-- ==== Sys2Proof/Word.lean ====
section
/-! DEFINITION. The value types of the block: every value is unsigned (R10). -/

namespace Sys2Proof

/-- The 8-bit value of R10: a wire byte, a request byte, a character code, a digit pattern. -/
abbrev Byte := BitVec 8

/-- The 16-bit button vector of R31 and R117: bit i is button i. -/
abbrev Buttons := BitVec 16

/-- Eight bytes, index 0 first: a digit sequence (R30) or a frame (R29). -/
abbrev Octet := Vector Byte 8

/-- Four bytes, index 0 first: a scan buffer (R28). -/
abbrev Quad := Vector Byte 4

end Sys2Proof
end

