-- ==== Sys2Proof/Config.lean ====
section
/-! DEFINITION. What an implementation fixes (R7 to R9) and the free values of the model. -/

namespace Sys2Proof

/-- The parameters the block takes as arguments (R8). Bound before the block leaves reset, never written
(R293). -/
structure Params where
  /-- FONT: the entries (character code, digit pattern); a code without an entry is not in the font (R220). -/
  font : List (Byte × Byte)
  /-- T_CLK, the minimum hold of each clock phase (R8). -/
  tClk : Nat
  /-- T_SETUP, the minimum time from a change of DIO to the next falling CLK edge (R8). -/
  tSetup : Nat
  /-- T_STB, the settle delay after each strobe edge (R8). -/
  tStb : Nat
  /-- T_RDWAIT, the minimum wait between the read command and the first received bit (R8). -/
  tRdwait : Nat
  /-- POS_MAP: the physical position that each digit index lights (R8, R62). -/
  posMap : Vector (Fin 8) 8
  deriving DecidableEq, Repr

namespace Config

/-- The n-th draw: a value nothing in the spec fixes (R12, R63, R73, R79). No body: no statement can rest
on what it is. DESIGN CHOICE, safe (notes/assumptions/3.md). -/
opaque draw : Nat → BitVec 8

/-- FONT as the implementation binds it (R220: OPEN). DESIGN CHOICE, safe (notes/assumptions/2.md). -/
opaque font : List (BitVec 8 × BitVec 8)

/-- T_CLK as the implementation binds it (R8: OPEN, lower bound). -/
opaque tClk : Nat

/-- T_SETUP as the implementation binds it (R8: OPEN, lower bound). -/
opaque tSetup : Nat

/-- T_STB as the implementation binds it (R8: OPEN, lower bound). -/
opaque tStb : Nat

/-- T_RDWAIT as the implementation binds it (R8: OPEN, lower bound). -/
opaque tRdwait : Nat

/-- POS_MAP as the board binds it (R8, R62: OPEN). -/
opaque posMap : Vector (Fin 8) 8

/-- The parameters of this implementation, all of them open. -/
def params : Params where
  font := font
  tClk := tClk
  tSetup := tSetup
  tStb := tStb
  tRdwait := tRdwait
  posMap := posMap

/-- REF_FONT of R221: the ten decimal digits, for test vectors only. Nothing but tests uses it. -/
def refFont : List (Byte × Byte) :=
  [(0x30#8, 0x3F#8), (0x31#8, 0x06#8), (0x32#8, 0x5B#8), (0x33#8, 0x4F#8), (0x34#8, 0x66#8),
   (0x35#8, 0x6D#8), (0x36#8, 0x7D#8), (0x37#8, 0x07#8), (0x38#8, 0x7F#8), (0x39#8, 0x6F#8)]

end Config

/-- T_SETUP and T_RDWAIT at their default, T_CLK (R8). -/
def Params.withDefaultDelays (p : Params) : Params :=
  { p with tSetup := p.tClk, tRdwait := p.tClk }

end Sys2Proof
end

