-- ==== Sys2Proof/Syntax.lean ====
section
/-! DEFINITION. The instructions: one constructor for each row of spec/opcode_table.json. -/

namespace Sys2Proof

/-- The fifteen rows of the opcode table: four wire command kinds (R101 to R103) and eleven host
operations (R109). -/
inductive Instr where
  /-- Wire command `10 00 D PPP` (R101): a transaction of that one byte (R69). -/
  | displayControl (d : Bool) (ppp : BitVec 3)
  /-- Wire command `01 00 I 0 00` (R102): `fixed` is the I bit; a transaction of that one byte (R70). -/
  | dataWrite (fixed : Bool)
  /-- Wire command 0x42 (R102) and the four bytes received after it (R71). -/
  | dataRead
  /-- Wire command `11 00 AAAA` (R103) and the payload bytes sent after it (R72). -/
  | setAddress (aaaa : BitVec 4) (payload : List Byte)
  /-- OP 0x1 (R160): ARG[3] is `enabled`, ARG[2:0] is `pulseWidth`. -/
  | configureDisplay (enabled : Bool) (pulseWidth : BitVec 3)
  /-- OP 0x2 (R162): ARG[0] is `autoIncrement`. -/
  | initWriteData (autoIncrement : Bool)
  /-- OP 0x3 (R164): the address byte as presented, and the payload. -/
  | writeData (address : Byte) (payload : List Byte)
  /-- OP 0x4 (R167). -/
  | readScan
  /-- OP 0x5 (R194): eight digit patterns, digit index 0 first. -/
  | writeDigits (d : Octet)
  /-- OP 0x6 (R196): the character codes, first character first. -/
  | writeString (text : List Byte)
  /-- OP 0x7 (R243). -/
  | readButtons
  /-- OP 0x8 (R224): the character codes, first character first. -/
  | buildDigits (text : List Byte)
  /-- OP 0x9 (R191): eight digit patterns, digit index 0 first. -/
  | scramble (d : Octet)
  /-- OP 0xA (R192): eight frame bytes, segment line a first. -/
  | unscramble (f : Octet)
  /-- OP 0xB (R240): four scan bytes, byte 0 first. -/
  | decodeScan (s : Quad)
  deriving DecidableEq, Repr

/-- A wire command byte as the chip classifies it (R106). -/
inductive Command where
  /-- Class `10`: D and PPP. -/
  | displayControl (d : Bool) (ppp : BitVec 3)
  /-- Class `01`, t = 0, MM = `00`: the I bit. -/
  | dataWrite (fixed : Bool)
  /-- Class `01`, t = 0, MM = `10`: the I bit. -/
  | dataRead (fixed : Bool)
  /-- Class `11`: the address field. -/
  | setAddress (aaaa : BitVec 4)
  deriving DecidableEq, Repr

/-- Where the words of an instruction stand: a host request (R108), or a transaction on the wire (R67),
given by the bytes the block sends and the number of bytes it then receives (R107). -/
inductive Source where
  /-- The bytes the host presents. -/
  | request (bytes : List Byte)
  /-- The bytes sent in one strobe frame, and how many bytes are received after them. -/
  | transaction (sent : List Byte) (receives : Nat)
  deriving DecidableEq, Repr

/-- Why words are no instruction of the table. -/
inductive Rejection where
  /-- OP 0x0 or OP 0xC to 0xF (R111): only the header byte is consumed. -/
  | reservedOp
  /-- A reserved ARG bit of a legal OP is set (R111): the full request is consumed. -/
  | reservedArg
  /-- A transaction of none of the forms R69 to R72. -/
  | undescribedTransaction
  deriving DecidableEq, Repr

/-- What the decoder answers: an instruction, a rejection by name, or that bytes of the request are still
to come (R108). The list is what stands after the words consumed. -/
inductive Decoded where
  | instr (i : Instr) (rest : List Byte)
  | rejected (why : Rejection) (rest : List Byte)
  | incomplete
  deriving DecidableEq, Repr

end Sys2Proof
end

