-- ==== Sys2Proof/Machine/State.lean ====
section
/-! DEFINITION. The state: the block (R20 to R37), the chip of the environment model (R63), and the inputs
of the host, the keypad and the board. All of it plain data. -/

namespace Sys2Proof.Machine

/-- DIO_MODE (R22). -/
inductive DioMode where
  | drive0
  | drive1
  | released
  deriving DecidableEq, Repr

/-- The parameter that a Wait carries (R8, R150). -/
inductive Delay where
  | tClk
  | tSetup
  | tStb
  | tRdwait
  deriving DecidableEq, Repr

/-- A wire event (R12). The value a sample returns is an input, not part of the event (R14). -/
inductive Event where
  | driveStb (v : Bool)
  | driveClk (v : Bool)
  | driveDio (v : Bool)
  | releaseDio
  | sample
  | wait (d : Delay)
  deriving DecidableEq, Repr

/-- CHIP.MODE, the data-mode latch (R63, R64). -/
inductive DataMode where
  | unknown
  | write
  | read
  deriving DecidableEq, Repr

/-- CHIP.AINC, the address mode (R63, R64). -/
inductive AddressMode where
  | unknown
  | auto
  | fixed
  deriving DecidableEq, Repr

/-- What the chip has seen of the transaction in progress (R67, R69 to R72, R79). -/
inductive Phase where
  /-- STB is high: no transaction. -/
  | idle
  /-- STB fell and no whole command byte has come yet. -/
  | command
  /-- A display-control or data-write command came: no further byte may follow (R69, R70). -/
  | single
  /-- A set-address command came: each further byte is data (R72). -/
  | address
  /-- A read command came: the bits the chip has still to present, in order (R71). -/
  | reading (bits : List Bool)
  /-- After a HAZARD: the chip interprets no further byte sent in this transaction. R72 says so for cases a and b;
  for cases c and d it is the model's choice (notes/assumptions/4.md). -/
  | ended
  deriving DecidableEq, Repr

/-- What the keypad and the unmapped scan bits are at one read (R73): bits 0, 3, 4 and 7 of `others` stand in
the scan bytes, its remaining bits are not used. -/
structure KeyRead where
  keys : Buttons
  others : Quad
  deriving DecidableEq, Repr

/-- The TM1638-class chip of the environment model (R63), with its keypad. -/
structure Chip where
  /-- CHIP.DRAM (R61): the bytes written since power-on or the last havoc, addresses rising. An unlisted
  address holds a draw (R63, R79). -/
  dram : List Host.Cell
  /-- The number of the draw that an unlisted address 0 holds. -/
  epoch : Nat
  /-- CHIP.DISP_EN. -/
  dispEn : Bool
  /-- CHIP.PW. -/
  pw : BitVec 3
  /-- CHIP.MODE. -/
  mode : DataMode
  /-- CHIP.AINC. -/
  ainc : AddressMode
  /-- CHIP.PTR: none is UNKNOWN. -/
  ptr : Option (BitVec 4)
  /-- CHIP.KEYS as the last read saw them. -/
  keys : Buttons
  /-- CHIP.HAZARD. -/
  hazard : Bool
  /-- The transaction so far. -/
  phase : Phase
  /-- The bits received of a byte not yet whole, bit 0 first (R68). -/
  bits : List Bool
  /-- False while the chip pulls DIO low (R23). -/
  out : Bool
  /-- The keypad's states for the coming reads, an input; when it is empty a read takes a draw. -/
  keypad : List KeyRead
  /-- The number of the next draw. The model's own field. -/
  draws : Nat
  deriving DecidableEq, Repr

/-- What stands at the other end of the wire (R75, R76, R266). -/
inductive Bus where
  /-- The chip is attached and listening. -/
  | attached
  /-- Nothing pulls DIO low and nothing listens (R76). -/
  | silent
  /-- Stuck or shorted: writes are lost and every sample is a draw (R266, I14). -/
  | faulty
  deriving DecidableEq, Repr

/-- The whole state. -/
structure State where
  /-- STB_OUT (R22). -/
  stb : Bool
  /-- CLK_OUT (R22). -/
  clk : Bool
  /-- DIO_MODE (R22). -/
  dio : DioMode
  /-- The sequencer position (R24). -/
  pc : Nat
  /-- BUSY (R25). -/
  busy : Bool
  /-- STATUS.CAUSE (R26). -/
  cause : BitVec 3
  /-- ERR_INDEX (R27). -/
  errIndex : Byte
  /-- ERR_CHAR (R27). -/
  errChar : Byte
  /-- SCANBUF[0..3] (R28). -/
  scanbuf : Quad
  /-- FRAME[0..7] (R29). -/
  frame : Octet
  /-- DIGITS[0..7] (R30). -/
  digits : Octet
  /-- BTN[0..15] (R31). -/
  btn : Buttons
  /-- BUILD (R32). -/
  build : List Byte
  /-- prev (R32). -/
  prev : Option Nat
  /-- The wire trace of the operation in progress or, when idle, of the last one, newest event first (R14). -/
  log : List Event
  /-- The response of the last operation (R112): empty while one is in progress or after reset. -/
  response : List Byte
  /-- The parameters (R8, R293): no step writes them. -/
  params : Params
  /-- The chip of the environment model (R63). -/
  chip : Chip
  /-- What stands at the other end of the wire, an input. -/
  bus : Bus
  /-- The bytes the host has presented and the block has not consumed, an input (R108). -/
  hostIn : List Byte
  /-- The host's reset input (R290): reset arrives when the operation of the coming step has emitted this
  many events, or after the step if it emits fewer. -/
  resetAt : Option Nat
  /-- Transactions put on the wire without a request: bytes sent, number of bytes received. The model's own
  port, where a wire row of the opcode table is fetched; no step fills it. -/
  rawIn : List (List Byte × Nat)
  /-- The bytes the last transaction of `rawIn` received. -/
  rawOut : List Byte
  deriving DecidableEq, Repr

/-- What can stop the machine with a fault: nothing. Every error of the spec ends an operation with a
response and the machine goes on (R260, R263), and the wire reports nothing (R266); so there is no
constructor, and no one raises any. -/
inductive Fault where
  deriving DecidableEq, Repr

/-- Why an instruction has no meaning. -/
inductive Refusal where
  /-- Not modelled. Raised by a refused arm of exec only, of which there is none; safe. -/
  | notModelled (mnemonic : String)
  deriving DecidableEq, Repr

/-- The chip just powered on (R63): the display registers, the display enable and the pulse width are draws,
the latches and the pointer UNKNOWN. KEYS before any read: DESIGN CHOICE (notes/assumptions/3.md). -/
def Chip.powerOn : Chip where
  dram := []
  epoch := 0
  dispEn := (Config.draw 16).getLsbD 0
  pw := (Config.draw 17).extractLsb' 0 3
  mode := .unknown
  ainc := .unknown
  ptr := none
  keys := 0#16
  hazard := false
  phase := .idle
  bits := []
  out := true
  keypad := []
  draws := 18

/-- The machine right after reset (R37, R290), with the chip just powered on (R63) and nothing presented.
The buffers, which R37 leaves unspecified, hold zeros: DESIGN CHOICE, unsafe (notes/assumptions/1.md). -/
def State.reset : State where
  stb := true
  clk := true
  dio := .released
  pc := 0
  busy := false
  cause := 0#3
  errIndex := 0#8
  errChar := 0#8
  scanbuf := Vector.replicate 4 0#8
  frame := Vector.replicate 8 0#8
  digits := Vector.replicate 8 0#8
  btn := 0#16
  build := []
  prev := none
  log := []
  response := []
  params := Config.params
  chip := Chip.powerOn
  bus := .attached
  hostIn := []
  resetAt := none
  rawIn := []
  rawOut := []

end Sys2Proof.Machine
end

