-- ==== Sys2Proof/Machine/Flags.lean ====
section
/-! DEFINITION. STATUS and its CAUSE field (R26, R261): the block's only result flag (R34). -/

namespace Sys2Proof.Machine

/-- CAUSE = 0, OK (R26, R261). -/
def causeOk : BitVec 3 := 0#3

/-- CAUSE = 1, UnknownCharacter (R26, R261). -/
def causeUnknownCharacter : BitVec 3 := 1#3

/-- CAUSE = 2, IllegalOperation (R26, R261). -/
def causeIllegalOperation : BitVec 3 := 2#3

/-- The first byte of every response: zext_8(CAUSE) (R112). -/
def causeByte (c : BitVec 3) : Byte :=
  c.setWidth 8

/-- The STATUS register (R26): BUSY in bit 0, CAUSE in bits [3:1], bits [7:4] read as 0. -/
def State.status (s : State) : Byte :=
  (BitVec.ofBool s.busy).setWidth 8 ||| (s.cause.setWidth 8 <<< 1)

end Sys2Proof.Machine
end

