-- ==== Sys2Proof/Decode.lean ====
section
/-! DEFINITION. The two encodings of file 30_encoding.md: host requests (R108 to R111) and wire commands
(R101 to R107), each with its decoder and its encoder. -/

namespace Sys2Proof

/-! ## Bytes and bits -/

/-- The bits of a byte, bit 0 first: the order they cross the wire (R80). -/
def byteBits (v : Byte) : List Bool :=
  [v.getLsbD 0, v.getLsbD 1, v.getLsbD 2, v.getLsbD 3, v.getLsbD 4, v.getLsbD 5, v.getLsbD 6, v.getLsbD 7]

/-- `acc | (b << k)`, the step that puts one bit in its place (R144). -/
def insertBit (acc : Byte) (k : Nat) (b : Bool) : Byte :=
  acc ||| ((BitVec.ofBool b).setWidth 8 <<< k)

/-- Put bits into places k, k+1, ... of an accumulator. -/
def packBitsFrom (k : Nat) (acc : Byte) : List Bool → Byte
  | [] => acc
  | b :: bs => packBitsFrom (k + 1) (insertBit acc k b) bs

/-- The byte whose bit k is the k-th bit of the list (R68, R144). -/
def packBits (bs : List Bool) : Byte :=
  packBitsFrom 0 0#8 bs

/-- Eight operand bytes, index 0 first (R110). -/
def octetOf (bs : List Byte) : Octet :=
  Vector.ofFn fun i => bs.getD i.val 0#8

/-- Four operand bytes, byte 0 first (R110). -/
def quadOf (bs : List Byte) : Quad :=
  Vector.ofFn fun i => bs.getD i.val 0#8

/-! ## Host requests -/

/-- H[7:4] = OP (R108). -/
def opField (h : Byte) : BitVec 4 :=
  h.extractLsb' 4 4

/-- H[3:0] = ARG (R108). -/
def argField (h : Byte) : BitVec 4 :=
  h.extractLsb' 0 4

/-- The header byte with these two fields (R108). -/
def headerByte (op arg : BitVec 4) : Byte :=
  (op.setWidth 8 <<< 4) ||| arg.setWidth 8

/-- OP 0x0 and OP 0xC to 0xF are illegal (R111). -/
def reservedOp (op : BitVec 4) : Bool :=
  op.toNat == 0 || decide (12 ≤ op.toNat)

/-- A reserved ARG bit of a legal OP is set: ARG[3:1] for OP 0x2, ARG[3:0] for OP 0x3 to 0xB (R111, R262). -/
def reservedArg (op arg : BitVec 4) : Bool :=
  match op.toNat with
  | 1 => false
  | 2 => arg.extractLsb' 1 3 != 0#3
  | _ => arg != 0#4

/-- The number of operand bytes after the header of a legal OP (R110): none if the count byte that fixes it
has not been presented yet. -/
def operandBytes (op : BitVec 4) (ops : List Byte) : Option Nat :=
  match op.toNat with
  | 3 =>
    match ops with
    | _ :: n :: _ => some (2 + n.toNat)
    | _ => none
  | 5 => some 8
  | 6 =>
    match ops with
    | l :: _ => some (1 + l.toNat)
    | [] => none
  | 8 =>
    match ops with
    | l :: _ => some (1 + l.toNat)
    | [] => none
  | 9 => some 8
  | 10 => some 8
  | 11 => some 4
  | _ => some 0

/-- The instruction of a legal header and its operand bytes (R109, R110). -/
def requestInstr (op arg : BitVec 4) (ops : List Byte) : Instr :=
  match op.toNat with
  | 1 => .configureDisplay (arg.getLsbD 3) (arg.extractLsb' 0 3)
  | 2 => .initWriteData (arg.getLsbD 0)
  | 3 => .writeData (ops.getD 0 0#8) (ops.drop 2)
  | 4 => .readScan
  | 5 => .writeDigits (octetOf ops)
  | 6 => .writeString (ops.drop 1)
  | 7 => .readButtons
  | 8 => .buildDigits (ops.drop 1)
  | 9 => .scramble (octetOf ops)
  | 10 => .unscramble (octetOf ops)
  | _ => .decodeScan (quadOf ops)

/-- Decode a host request (R108 to R111, R262). An illegal OP consumes its header only, a reserved ARG bit
the full request; bytes still to come leave the request incomplete. -/
def decodeRequest : List Byte → Decoded
  | [] => .incomplete
  | h :: ops =>
    if reservedOp (opField h) then .rejected .reservedOp ops
    else
      match operandBytes (opField h) ops with
      | none => .incomplete
      | some n =>
        if ops.length < n then .incomplete
        else if reservedArg (opField h) (argField h) then .rejected .reservedArg (ops.drop n)
        else .instr (requestInstr (opField h) (argField h) (ops.take n)) (ops.drop n)

/-! ## Wire commands -/

/-- Classify a command byte (R106); none is a reserved encoding (R105). -/
def classify (c : Byte) : Option Command :=
  if c.extractLsb' 4 2 ≠ 0#2 then none
  else
    match (c.extractLsb' 6 2).toNat with
    | 2 => some (.displayControl (c.getLsbD 3) (c.extractLsb' 0 3))
    | 1 =>
      if c.getLsbD 2 then none
      else
        match (c.extractLsb' 0 2).toNat with
        | 0 => some (.dataWrite (c.getLsbD 3))
        | 2 => some (.dataRead (c.getLsbD 3))
        | _ => none
    | 3 => some (.setAddress (c.extractLsb' 0 4))
    | _ => none

/-- `0x80 | (en << 3) | pw` (R104). -/
def displayControlByte (en : Bool) (pw : BitVec 3) : Byte :=
  0x80#8 ||| ((BitVec.ofBool en).setWidth 8 <<< 3) ||| pw.setWidth 8

/-- `0x40 | ((autoInc ? 0 : 1) << 3)` (R104). -/
def dataWriteByte (autoInc : Bool) : Byte :=
  0x40#8 ||| ((if autoInc then 0#8 else 1#8) <<< 3)

/-- `0x42` (R104, R168). -/
def dataReadByte : Byte :=
  0x42#8

/-- `0xC0 | (addr & 0x0F)` (R104): the address is masked to its low 4 bits. -/
def setAddressByte (addr : Byte) : Byte :=
  0xC0#8 ||| (addr &&& 0x0F#8)

/-- Decode a transaction: the four forms of R69 to R72 and R107, and nothing else. -/
def decodeTransaction (sent : List Byte) (receives : Nat) : Decoded :=
  match sent with
  | [] => .rejected .undescribedTransaction []
  | c :: payload =>
    match classify c with
    | some (.displayControl d ppp) =>
      if payload = [] ∧ receives = 0 then .instr (.displayControl d ppp) []
      else .rejected .undescribedTransaction []
    | some (.dataWrite fixed) =>
      if payload = [] ∧ receives = 0 then .instr (.dataWrite fixed) []
      else .rejected .undescribedTransaction []
    | some (.dataRead fixed) =>
      if fixed = false ∧ payload = [] ∧ receives = 4 then .instr .dataRead []
      else .rejected .undescribedTransaction []
    | some (.setAddress aaaa) =>
      if receives = 0 then .instr (.setAddress aaaa payload) []
      else .rejected .undescribedTransaction []
    | none => .rejected .undescribedTransaction []

/-- The decoder: total on any words, rejecting by name. -/
def decode : Source → Decoded
  | .request bytes => decodeRequest bytes
  | .transaction sent receives => decodeTransaction sent receives

/-! ## Encoder -/

/-- The words of an instruction: a transaction for a wire command (R101 to R104, R107), a request for a host
operation (R109, R110). -/
def encode : Instr → Source
  | .displayControl d ppp => .transaction [displayControlByte d ppp] 0
  | .dataWrite fixed => .transaction [dataWriteByte (!fixed)] 0
  | .dataRead => .transaction [dataReadByte] 4
  | .setAddress aaaa payload => .transaction (setAddressByte (aaaa.setWidth 8) :: payload) 0
  | .configureDisplay en pw =>
    .request [headerByte 0x1#4 (((BitVec.ofBool en).setWidth 4 <<< 3) ||| pw.setWidth 4)]
  | .initWriteData auto => .request [headerByte 0x2#4 ((BitVec.ofBool auto).setWidth 4)]
  | .writeData address payload =>
    .request (headerByte 0x3#4 0#4 :: address :: BitVec.ofNat 8 payload.length :: payload)
  | .readScan => .request [headerByte 0x4#4 0#4]
  | .writeDigits d => .request (headerByte 0x5#4 0#4 :: d.toList)
  | .writeString text => .request (headerByte 0x6#4 0#4 :: BitVec.ofNat 8 text.length :: text)
  | .readButtons => .request [headerByte 0x7#4 0#4]
  | .buildDigits text => .request (headerByte 0x8#4 0#4 :: BitVec.ofNat 8 text.length :: text)
  | .scramble d => .request (headerByte 0x9#4 0#4 :: d.toList)
  | .unscramble f => .request (headerByte 0xA#4 0#4 :: f.toList)
  | .decodeScan s => .request (headerByte 0xB#4 0#4 :: s.toList)

/-! ## Words as the opcode table numbers them -/

/-- The bytes of an n-byte word, the byte of bits 7..0 first. -/
def wordBytes : Nat → Nat → List Byte
  | 0, _ => []
  | n + 1, w => BitVec.ofNat 8 w :: wordBytes n (w / 256)

/-- Where the words of an opcode-table row stand, bits above `nbits` zero. A host request is tried first,
then a transaction: the two encodings share bytes (0x40 is READ_SCAN and a data-write command), and the
table does not say which port a byte stands at. DESIGN CHOICE, safe (notes/assumptions/9.md). -/
def tableSource (nbits w : Nat) : Source :=
  let bytes := wordBytes ((nbits + 7) / 8) w
  let padded := bytes ++ List.replicate 8 0#8
  match decodeRequest padded with
  | .instr _ rest => .request (padded.take (padded.length - rest.length))
  | _ =>
    let receives := if bytes.head? = some dataReadByte then 4 else 0
    match decodeTransaction bytes receives with
    | .instr _ _ => .transaction bytes receives
    | _ => .request bytes

/-- The instruction the decoder reads from an opcode-table row's bits. -/
def decodeTableWord (nbits w : Nat) : Option Instr :=
  match decode (tableSource nbits w) with
  | .instr i _ => some i
  | _ => none

end Sys2Proof
end

