-- ==== Sys2Proof/Machine/Operands.lean ====
section
/-! DEFINITION. Operand forms: the masked address (R165), the padded digit sequence (R196), the addresses of
the display lines (R61) and the button word's bytes (R117). -/

namespace Sys2Proof.Machine

/-- `a <- ADDR & 0x0F`: the address operand is masked, never rejected (R164, R165). -/
def maskAddress (addr : Byte) : BitVec 4 :=
  addr.extractLsb' 0 4

/-- `take(8, ds ++ replicate(8, 0x00))` (R196). -/
def padToDigits (ds : List Byte) : Octet :=
  octetOf ((ds ++ List.replicate 8 0#8).take 8)

/-- The address byte of segment line b: 2*b (R61, R194). -/
def lineAddress (b : Nat) : Byte :=
  BitVec.ofNat 8 (2 * b)

/-- The button word, low byte first (R117). -/
def buttonBytes (w : Buttons) : List Byte :=
  [w.extractLsb' 0 8, w.extractLsb' 8 8]

/-- The character `.`, code 0x2E (R224). -/
def dotChar : Byte :=
  0x2E#8

end Sys2Proof.Machine
end

