-- ==== Sys2Proof/Machine/Ops.lean ====
section
/-! DEFINITION. The named operations over memory and registers: the display registers (R12 MemRead and
MemWrite), accepting an operation (R24, R25), ending one, and raising an error (R263). -/

namespace Sys2Proof.Machine

/-! ## Memory -/

/-- MemRead: the byte listed at an address; none where nothing was written since power-on or the last havoc
(R63, R79). -/
def memRead : List Host.Cell → Nat → Option Byte
  | [], _ => none
  | c :: rest, a => if c.1 = a then some c.2 else memRead rest a

/-- MemWrite of one byte (R12, R72), keeping addresses strictly rising. -/
def memWrite : List Host.Cell → Nat → Byte → List Host.Cell
  | [], a, v => [(a, v)]
  | c :: rest, a, v =>
    if a < c.1 then (a, v) :: c :: rest
    else if a = c.1 then (a, v) :: rest
    else c :: memWrite rest a v

/-- The canonical form: addresses strictly rising and below 16 (R60). An unlisted address reads as none, so
no entry equals what an unlisted address reads as. -/
def memWf : List Host.Cell → Bool
  | [] => true
  | c :: rest => decide (c.1 < 16) && rest.all (fun d => decide (c.1 < d.1)) && memWf rest

/-- What CHIP.DRAM[a] holds: the byte written there, or the draw it holds since power-on or the last havoc
(R63, R79). -/
def Chip.dramByte (c : Chip) (a : Nat) : Byte :=
  match memRead c.dram a with
  | some v => v
  | none => Config.draw (c.epoch + a)

/-! ## Operations -/

/-- Accept an operation: BUSY <- 1, pc <- 0, an empty trace, no response yet (R24, R25). -/
def acceptOperation (s : State) : State :=
  { s with busy := true, pc := 0, log := [], response := [] }

/-- The end of an operation: BUSY <- 0, pc <- 0, the sequencer idle (R263). -/
def endOperation (s : State) : State :=
  { s with busy := false, pc := 0 }

/-- Success: CAUSE <- 0 and the OK response, its first byte the cause (R112, R263). -/
def finishOk (payload : List Byte) (s : State) : State :=
  endOperation { s with cause := causeOk, response := causeByte causeOk :: payload }

/-- The errors an operation can raise (R261). -/
inductive OpError where
  /-- A character that is not in FONT and not a merged `.`: its position and its code (R264). -/
  | unknownCharacter (index : Byte) (char : Byte)
  /-- A reserved operation code or ARG bit (R262). -/
  | illegalOperation
  deriving DecidableEq, Repr

/-- code(E) (R261). -/
def OpError.code : OpError → BitVec 3
  | .unknownCharacter _ _ => causeUnknownCharacter
  | .illegalOperation => causeIllegalOperation

/-- Raise an error: the one exception entry of the block (R263). CAUSE <- code(E); UnknownCharacter also
writes ERR_INDEX and ERR_CHAR; the error response is sent (R112); the sequencer is idle. No wire event, no
vector, no mode. -/
def raiseError (e : OpError) (s : State) : State :=
  match e with
  | .unknownCharacter index char =>
    endOperation
      { s with
        cause := e.code
        errIndex := index
        errChar := char
        response := [causeByte e.code, index, char] }
  | .illegalOperation =>
    endOperation { s with cause := e.code, response := [causeByte e.code] }

/-! There is no return from an error: nothing was saved and nothing is restored; with BUSY = 0 the next
request is accepted as after a success (R268). -/

/-- The answer to a request the IllegalOperation check refuses (R262): it is accepted, and the error is
raised before anything else. -/
def rejectRequest (s : State) : State :=
  raiseError .illegalOperation (acceptOperation s)

end Sys2Proof.Machine
end

