-- ==== Sys2Proof/Machine/Chip.lean ====
section
/-! DEFINITION. The environment model of the chip (R63 to R79): what it does at each edge of STB and CLK. -/

namespace Sys2Proof.Machine

/-! ## Draws and havoc -/

/-- A draw of CHIP.MODE. -/
def drawnMode (b : Byte) : DataMode :=
  match b.toNat % 3 with
  | 0 => .unknown
  | 1 => .write
  | _ => .read

/-- A draw of CHIP.AINC. -/
def drawnAinc (b : Byte) : AddressMode :=
  match b.toNat % 3 with
  | 0 => .unknown
  | 1 => .auto
  | _ => .fixed

/-- A draw of CHIP.PTR: UNKNOWN or any address. -/
def drawnPtr (b : Byte) : Option (BitVec 4) :=
  if b.getLsbD 4 then none else some (b.extractLsb' 0 4)

/-- HAZARD cases a and b (R79): DRAM and PTR take arbitrary values; the rest of the transaction is not
interpreted (R72). -/
def Chip.havocDisplay (c : Chip) : Chip :=
  { c with
    dram := []
    epoch := c.draws
    ptr := drawnPtr (Config.draw (c.draws + 16))
    hazard := true
    phase := .ended
    bits := []
    draws := c.draws + 17 }

/-- HAZARD cases c, d and e (R79): all chip state takes arbitrary values. The spec does not say what the chip does
with further bytes sent in the same transaction after case c or d, since R72 stops the interpretation for cases a and b
only: that it ignores them is the model's choice (notes/assumptions/4.md). -/
def Chip.havocAll (c : Chip) : Chip :=
  { c with
    dram := []
    epoch := c.draws
    ptr := drawnPtr (Config.draw (c.draws + 16))
    dispEn := (Config.draw (c.draws + 17)).getLsbD 0
    pw := (Config.draw (c.draws + 18)).extractLsb' 0 3
    mode := drawnMode (Config.draw (c.draws + 19))
    ainc := drawnAinc (Config.draw (c.draws + 20))
    keys := Config.draw (c.draws + 22) ++ Config.draw (c.draws + 21)
    hazard := true
    phase := .ended
    bits := []
    draws := c.draws + 23 }

/-! ## Scan data -/

/-- SCANDATA[k] of R73: four key bits, and the other four as drawn. -/
def KeyRead.scanByte (r : KeyRead) (k : Fin 4) : Byte :=
  packBits
    [r.others[k].getLsbD 0, r.keys.getLsbD (2 * k.val + 1), r.keys.getLsbD (9 + 2 * k.val),
     r.others[k].getLsbD 3, r.others[k].getLsbD 4, r.keys.getLsbD (2 * k.val),
     r.keys.getLsbD (8 + 2 * k.val), r.others[k].getLsbD 7]

/-- SCANDATA[0..3] (R73). -/
def KeyRead.scanData (r : KeyRead) : Quad :=
  Vector.ofFn r.scanByte

/-- The 32 bits the chip presents in a read, in order (R71): byte 0 first, bit 0 of each byte first. -/
def KeyRead.scanBits (r : KeyRead) : List Bool :=
  byteBits r.scanData[0] ++ byteBits r.scanData[1] ++ byteBits r.scanData[2] ++ byteBits r.scanData[3]

/-- The keypad and the unmapped bits at this read (R73): the next entry of the keypad's list, or a draw. -/
def Chip.nextRead (c : Chip) : KeyRead :=
  match c.keypad with
  | r :: _ => r
  | [] =>
    { keys := Config.draw (c.draws + 1) ++ Config.draw c.draws
      others := #v[Config.draw (c.draws + 2), Config.draw (c.draws + 3), Config.draw (c.draws + 4),
        Config.draw (c.draws + 5)] }

/-- KEYS are drawn afresh for every read transaction (R73). -/
def Chip.drawKeys (c : Chip) : Chip :=
  { c with
    keys := c.nextRead.keys
    keypad := c.keypad.tail
    draws := if c.keypad.isEmpty then c.draws + 6 else c.draws }

/-! ## Bytes -/

/-- A display-control command (R65). -/
def Chip.displayControl (c : Chip) (d : Bool) (ppp : BitVec 3) : Chip :=
  { c with dispEn := d, pw := ppp, phase := .single }

/-- A data-write command (R64): MODE <- WRITE, and AINC by the I bit. -/
def Chip.dataWrite (c : Chip) (fixed : Bool) : Chip :=
  { c with mode := .write, ainc := if fixed then .fixed else .auto, phase := .single }

/-- A read command (R64, R71): MODE <- READ. After 0x42 the chip presents the scan data; after 0x4A it
presents nothing, since the words of R79 case d name 0x42 only (R106). -/
def Chip.dataRead (c : Chip) (fixed : Bool) : Chip :=
  if fixed then { c with mode := .read, phase := .reading [] }
  else { c.drawKeys with mode := .read, phase := .reading c.nextRead.scanBits }

/-- A set-address command (R66, R72). -/
def Chip.setAddress (c : Chip) (aaaa : BitVec 4) : Chip :=
  { c with ptr := some aaaa, phase := .address }

/-- PTR after a data byte at p (R66, R72). -/
def Chip.nextPtr (c : Chip) (p : BitVec 4) : Option (BitVec 4) :=
  match c.ainc with
  | .auto => if p = 15#4 then none else some (p + 1#4)
  | _ => some p

/-- A data byte of a set-address transaction (R72). -/
def Chip.storeByte (c : Chip) (v : Byte) : Chip :=
  match c.mode with
  | .write =>
    match c.ptr with
    | some p => { c with dram := memWrite c.dram p.toNat v, ptr := c.nextPtr p }
    | none => c.havocDisplay
  | _ => c.havocDisplay

/-- A command byte (R67, R106); a reserved one is HAZARD case c (R79). -/
def Chip.acceptCommand (c : Chip) (v : Byte) : Chip :=
  match classify v with
  | some (.displayControl d ppp) => c.displayControl d ppp
  | some (.dataWrite fixed) => c.dataWrite fixed
  | some (.dataRead fixed) => c.dataRead fixed
  | some (.setAddress aaaa) => c.setAddress aaaa
  | none => c.havocAll

/-- A whole byte sent by the block (R67, R72). A byte after a display-control or data-write command is HAZARD
case c (R79); so, by the model's choice, is a byte sent after a read command (notes/assumptions/4.md). -/
def Chip.acceptByte (c : Chip) (v : Byte) : Chip :=
  match c.phase with
  | .idle => c
  | .command => c.acceptCommand v
  | .single => c.havocAll
  | .address => c.storeByte v
  | .reading _ => c.havocAll
  | .ended => c

/-! ## Edges -/

/-- STB falls: a transaction begins (R67). -/
def Chip.strobeFall (c : Chip) : Chip :=
  { c with phase := .command, bits := [], out := true }

/-- Whether a rising STB finds no whole command byte (HAZARD case e, R79), or a byte cut short (taken as case
e too: notes/assumptions/4.md). A read transaction with fewer than four receives, which R107 excludes and R79 does
not name, is not cut short: MODE is READ and there is no HAZARD, by the model's choice (notes/assumptions/4.md). -/
def Chip.cutShort (c : Chip) : Bool :=
  match c.phase with
  | .command => true
  | _ => !c.bits.isEmpty

/-- HAZARD case e (R79): all chip state takes arbitrary values, and no transaction is open. -/
def Chip.abandoned (c : Chip) : Chip :=
  { c.havocAll with phase := .idle, bits := [], out := true }

/-- STB rises: the transaction ends (R67), and the chip releases DIO. The spec does not say when it lets go after a
read; that it holds the last bit presented until this edge is the model's choice (R148; notes/assumptions/4.md). -/
def Chip.strobeRise (c : Chip) : Chip :=
  if c.cutShort then c.abandoned
  else { c with phase := .idle, bits := [], out := true }

/-- The chip takes one bit of a byte; with the eighth the byte is whole (R68). -/
def Chip.latchBit (c : Chip) (b : Bool) : Chip :=
  match c.phase with
  | .ended => c
  | _ =>
    if c.bits.length = 7 then Chip.acceptByte { c with bits := [] } (packBits (c.bits ++ [b]))
    else { c with bits := c.bits ++ [b] }

/-- The chip presents one bit of the scan data (R71); a receive anywhere else, or past the fourth byte, is
HAZARD case d, and the sample a draw (R79). -/
def Chip.presentBit (c : Chip) : Chip :=
  match c.phase with
  | .reading (b :: bs) => { c with phase := .reading bs, out := b }
  | _ => { c.havocAll with out := (Config.draw c.havocAll.draws).getLsbD 0, draws := c.havocAll.draws + 1 }

/-- CLK falls (R68, R71). With the block's driver released it is a receive, else the chip latches the level of
DIO. While STB is high the chip ignores both (R148). -/
def Chip.clockFall (c : Chip) (released level : Bool) : Chip :=
  match c.phase with
  | .idle => c
  | _ => if released then c.presentBit else c.latchBit level

end Sys2Proof.Machine
end

