-- ==== Sys2Proof/Machine/Transport.lean ====
section
/-! DEFINITION. The wire events (R12, R22, R23) and the micro-operations SEND_BYTE (R142), RECEIVE_BYTE (R144)
and FRAME (R146). -/

namespace Sys2Proof.Machine

/-- The wire trace in order (R14). -/
def State.trace (s : State) : List Event :=
  s.log.reverse

/-! ## Events -/

/-- The chip reacts, if it is there to react (R75, R76, R266). -/
def State.onChip (s : State) (f : Chip → Chip) : State :=
  match s.bus with
  | .attached => { s with chip := f s.chip }
  | _ => s

/-- chip_pull of R23: false while an attached chip pulls DIO low. -/
def State.chipPull (s : State) : Bool :=
  match s.bus with
  | .attached => s.chip.out
  | _ => true

/-- block_pull of R23. -/
def State.blockPull (s : State) : Bool :=
  match s.dio with
  | .drive0 => false
  | _ => true

/-- DIO_LEVEL, a wired AND (R23). -/
def State.dioLevel (s : State) : Bool :=
  s.blockPull && s.chipPull

/-- What Sample() returns: the level of DIO (R23); on a faulty bus a draw (I14). -/
def State.sampleValue (s : State) : Bool :=
  match s.bus with
  | .faulty => (Config.draw s.chip.draws).getLsbD 0
  | _ => s.dioLevel

/-- A change of STB (R22), seen by the chip. -/
def driveStbLine (v : Bool) (s : State) : State :=
  match s.stb, v with
  | true, false => { s with stb := v }.onChip Chip.strobeFall
  | false, true => { s with stb := v }.onChip Chip.strobeRise
  | _, _ => { s with stb := v }

/-- Whether DIO_MODE is RELEASED. -/
def State.dioReleased (s : State) : Bool :=
  match s.dio with
  | .released => true
  | _ => false

/-- A change of CLK (R22), seen by the chip: it acts on the falling edge (R68). -/
def driveClkLine (v : Bool) (s : State) : State :=
  match s.clk, v with
  | true, false => { s with clk := v }.onChip (fun c => c.clockFall s.dioReleased s.dioLevel)
  | _, _ => { s with clk := v }

/-- The count of draws after a sample: on a faulty bus it took one. -/
def countSample (s : State) : State :=
  match s.bus with
  | .faulty => { s with chip := { s.chip with draws := s.chip.draws + 1 } }
  | _ => s

/-- What an event does to the lines and to the chip (R12, R22). -/
def applyEvent (e : Event) (s : State) : State :=
  match e with
  | .driveStb v => driveStbLine v s
  | .driveClk v => driveClkLine v s
  | .driveDio v => { s with dio := if v then .drive1 else .drive0 }
  | .releaseDio => { s with dio := .released }
  | .sample => countSample s
  | .wait _ => s

/-- Emit one event: it is appended to the trace and `pc <- pc + 1` (R12, R24). -/
def emit (e : Event) (s : State) : State :=
  applyEvent e { s with log := e :: s.log, pc := s.pc + 1 }

/-- Emit events in order. -/
def emitAll (es : List Event) (s : State) : State :=
  es.foldl (fun t e => emit e t) s

/-! ## SEND_BYTE -/

/-- The six events of one bit of SEND_BYTE (R142). -/
def sendBitEvents (b : Bool) : List Event :=
  [.driveDio b, .wait .tSetup, .driveClk false, .wait .tClk, .driveClk true, .wait .tClk]

/-- One bit of SEND_BYTE (R142). -/
def sendBit (b : Bool) (s : State) : State :=
  emitAll (sendBitEvents b) s

/-- SEND_BYTE(v), least-significant bit first (R142). -/
def sendByte (v : Byte) (s : State) : State :=
  (byteBits v).foldl (fun t b => sendBit b t) s

/-- SEND_BYTE of each byte in turn. -/
def sendBytes (bs : List Byte) (s : State) : State :=
  bs.foldl (fun t v => sendByte v t) s

/-! ## RECEIVE_BYTE -/

/-- The events of one bit of RECEIVE_BYTE up to its sample (R144, R145). -/
def clockLowEvents : List Event :=
  [.driveClk false, .wait .tClk]

/-- The events of one bit of RECEIVE_BYTE from its sample on (R144, R145). -/
def sampleEvents : List Event :=
  [.sample, .driveClk true, .wait .tClk]

/-- One bit of RECEIVE_BYTE: the sample is taken while CLK = 0, and `acc <- acc | (s << k)` (R144). -/
def receiveBit (k : Nat) (p : Byte × State) : Byte × State :=
  (insertBit p.1 k (emitAll clockLowEvents p.2).sampleValue,
   emitAll sampleEvents (emitAll clockLowEvents p.2))

/-- RECEIVE_BYTE, least-significant bit first (R144, conflict C1). -/
def receiveByte (s : State) : Byte × State :=
  [0, 1, 2, 3, 4, 5, 6, 7].foldl (fun p k => receiveBit k p) (0#8, emit .releaseDio s)

/-- RECEIVE_BYTE n times: the bytes in order, and the state after. -/
def receiveBytes : Nat → State → List Byte × State
  | 0, s => ([], s)
  | n + 1, s =>
    ((receiveByte s).1 :: (receiveBytes n (receiveByte s).2).1, (receiveBytes n (receiveByte s).2).2)

/-! ## FRAME -/

/-- `Drive(STB, 0); Wait(T_STB)` (R146). -/
def openFrame (s : State) : State :=
  emitAll [.driveStb false, .wait .tStb] s

/-- `Drive(STB, 1); Wait(T_STB)` (R146). -/
def closeFrame (s : State) : State :=
  emitAll [.driveStb true, .wait .tStb] s

/-- FRAME of a body that only sends (R146). -/
def sendFrame (bs : List Byte) (s : State) : State :=
  closeFrame (sendBytes bs (openFrame s))

/-- FRAME of a body that sends, waits T_RDWAIT (R147) and receives n bytes: the bytes and the state after. -/
def receiveFrame (sent : List Byte) (n : Nat) (s : State) : List Byte × State :=
  let p := receiveBytes n (emit (.wait .tRdwait) (sendBytes sent (openFrame s)))
  (p.1, closeFrame p.2)

/-- One transaction: the bytes sent, then the bytes received, if any (R107). -/
def transaction (sent : List Byte) (receives : Nat) (s : State) : List Byte × State :=
  match receives with
  | 0 => ([], sendFrame sent s)
  | n + 1 => receiveFrame sent (n + 1) s

/-! ## Minimum durations -/

/-- The least time a Wait may take (R150). -/
def delayOf (p : Params) : Delay → Nat
  | .tClk => p.tClk
  | .tSetup => p.tSetup
  | .tStb => p.tStb
  | .tRdwait => p.tRdwait

/-- The least time one event takes (R150): waits have lower bounds, nothing else has a duration. -/
def eventDuration (p : Params) : Event → Nat
  | .wait d => delayOf p d
  | _ => 0

/-- The least time a trace takes (R310). -/
def minDuration (p : Params) (es : List Event) : Nat :=
  (es.map (eventDuration p)).sum

end Sys2Proof.Machine
end

