-- ==== Sys2Proof/Machine/Command.lean ====
section
/-! DEFINITION. The command encoder operations of file 41_command.md, each one transaction (R169). -/

namespace Sys2Proof.Machine

/-- CONFIGURE_DISPLAY (R160). -/
def execConfigureDisplay (enabled : Bool) (pulseWidth : BitVec 3) (s : State) :
    Host.Outcome State Fault Refusal :=
  .next (finishOk [] (sendFrame [displayControlByte enabled pulseWidth] (acceptOperation s)))

/-- INIT_WRITE_DATA (R162). -/
def execInitWriteData (autoIncrement : Bool) (s : State) : Host.Outcome State Fault Refusal :=
  .next (finishOk [] (sendFrame [dataWriteByte autoIncrement] (acceptOperation s)))

/-- WRITE_DATA (R164): the address is masked (R165), then the payload is sent in order. -/
def execWriteData (address : Byte) (payload : List Byte) (s : State) :
    Host.Outcome State Fault Refusal :=
  .next (finishOk []
    (sendFrame (setAddressByte ((maskAddress address).setWidth 8) :: payload) (acceptOperation s)))

/-- The body of READ_SCAN (R167): one read transaction that fills SCANBUF[0..3] in order. -/
def readScanBody (s : State) : State :=
  let p := receiveFrame [dataReadByte] 4 s
  { p.2 with scanbuf := quadOf p.1 }

/-- READ_SCAN (R167). -/
def execReadScan (s : State) : Host.Outcome State Fault Refusal :=
  let t := readScanBody (acceptOperation s)
  .next (finishOk t.scanbuf.toList t)

end Sys2Proof.Machine
end

