-- ==== Sys2Proof/Machine/Scrambler.lean ====
section
/-! DEFINITION. The digit layout scrambler of file 42_scrambler.md: the transposition (R190) and the operations
SCRAMBLE, UNSCRAMBLE and WRITE_DIGITS. -/

namespace Sys2Proof.Machine

/-- FRAME[b] of R191: for each digit i, if bit b of DIGITS[i] is set, set bit (7 - i). -/
def scrambleLine (d : Octet) (b : Nat) : Byte :=
  (List.finRange 8).foldl (fun acc i => if d[i].getLsbD b then acc ||| (1#8 <<< (7 - i.val)) else acc) 0#8

/-- The frame of a digit sequence (R190, R191). -/
def scrambleDigits (d : Octet) : Octet :=
  Vector.ofFn fun b => scrambleLine d b.val

/-- d_i of R192: for each line b, if bit (7 - i) of f_b is set, set bit b. -/
def unscrambleDigit (f : Octet) (i : Nat) : Byte :=
  (List.finRange 8).foldl (fun acc b => if f[b].getLsbD (7 - i) then acc ||| (1#8 <<< b.val) else acc) 0#8

/-- The digit sequence of a frame (R190, R192). -/
def unscrambleFrame (f : Octet) : Octet :=
  Vector.ofFn fun i => unscrambleDigit f i.val

/-- Load DIGITS[0..7] (R30). -/
def loadDigits (d : Octet) (s : State) : State :=
  { s with digits := d }

/-- The body of SCRAMBLE (R191): FRAME from DIGITS. -/
def scrambleBody (s : State) : State :=
  { s with frame := scrambleDigits s.digits }

/-- The wire part of WRITE_DIGITS (R194): for each line b one transaction, the address 2b and FRAME[b]. -/
def writeLines (s : State) : State :=
  (List.finRange 8).foldl (fun t b => sendFrame [setAddressByte (lineAddress b.val), t.frame[b]] t) s

/-- WRITE_DIGITS from its SCRAMBLE body on (R194), on the digits loaded. -/
def writeDigitsBody (s : State) : State :=
  writeLines (scrambleBody s)

/-- WRITE_DIGITS (R194). -/
def execWriteDigits (d : Octet) (s : State) : Host.Outcome State Fault Refusal :=
  .next (finishOk [] (writeDigitsBody (loadDigits d (acceptOperation s))))

/-- SCRAMBLE (R191). -/
def execScramble (d : Octet) (s : State) : Host.Outcome State Fault Refusal :=
  let t := scrambleBody (loadDigits d (acceptOperation s))
  .next (finishOk t.frame.toList t)

/-- UNSCRAMBLE (R192): it reads and writes no buffer. -/
def execUnscramble (f : Octet) (s : State) : Host.Outcome State Fault Refusal :=
  .next (finishOk (unscrambleFrame f).toList (acceptOperation s))

end Sys2Proof.Machine
end

