-- ==== Sys2Proof/Machine/Font.lean ====
section
/-! DEFINITION. The character encoder of file 43_font.md: FONT_LOOKUP, DP_MERGE, BUILD_DIGITS, and WRITE_STRING
(R196), which begins with it. -/

namespace Sys2Proof.Machine

/-- FONT(ch), none if ch is not in the font (R220, R222). -/
def fontLookup (font : List (Byte × Byte)) (ch : Byte) : Option Byte :=
  match font with
  | [] => none
  | e :: rest => if e.1 = ch then some e.2 else fontLookup rest ch

/-- DP_MERGE(k) on BUILD (R223): set the decimal-point bit of digit k. -/
def dpMerge (k : Nat) (build : List Byte) : List Byte :=
  build.modify k (fun p => p ||| 0x80#8)

/-- How BUILD_DIGITS ends (R224): with BUILD and prev, or at the first unknown character (R225). -/
inductive BuildResult where
  | done (build : List Byte) (prev : Option Nat)
  | unknown (index : Byte) (char : Byte)
  deriving DecidableEq, Repr

/-- The digit a character merges into: prev, if the character is `.` (R224). -/
def mergeTarget (ch : Byte) (prev : Option Nat) : Option Nat :=
  if ch = dotChar then prev else none

/-- The loop of BUILD_DIGITS from character j on (R224). -/
def buildFrom (font : List (Byte × Byte)) (j : Nat) (text : List Byte) (build : List Byte)
    (prev : Option Nat) : BuildResult :=
  match text with
  | [] => .done build prev
  | ch :: rest =>
    match mergeTarget ch prev with
    | some k => buildFrom font (j + 1) rest (dpMerge k build) none
    | none =>
      match fontLookup font ch with
      | some p => buildFrom font (j + 1) rest (build ++ [p]) (some build.length)
      | none => .unknown (BitVec.ofNat 8 j) ch

/-- BUILD_DIGITS(text) (R224): BUILD <- [], prev <- none, then the loop. -/
def buildDigits (font : List (Byte × Byte)) (text : List Byte) : BuildResult :=
  buildFrom font 0 text [] none

/-- BUILD and prev after BUILD_DIGITS (R32). -/
def storeBuild (build : List Byte) (prev : Option Nat) (s : State) : State :=
  { s with build := build, prev := prev }

/-- BUILD_DIGITS raised UnknownCharacter: the partial BUILD is discarded (R225), then the error (R264). -/
def failBuild (index char : Byte) (s : State) : State :=
  raiseError (.unknownCharacter index char) (storeBuild [] none s)

/-- BUILD_DIGITS (R224). -/
def execBuildDigits (text : List Byte) (s : State) : Host.Outcome State Fault Refusal :=
  match buildDigits s.params.font text with
  | .done build prev =>
    .next (finishOk (BitVec.ofNat 8 build.length :: build) (storeBuild build prev (acceptOperation s)))
  | .unknown index char => .next (failBuild index char (acceptOperation s))

/-- WRITE_STRING (R196): BUILD_DIGITS on the whole text, pad and truncate to 8, then WRITE_DIGITS from its
SCRAMBLE body on. An unknown character ends it before any wire event (R198). -/
def execWriteString (text : List Byte) (s : State) : Host.Outcome State Fault Refusal :=
  match buildDigits s.params.font text with
  | .done build prev =>
    .next (finishOk []
      (writeDigitsBody (loadDigits (padToDigits build) (storeBuild build prev (acceptOperation s)))))
  | .unknown index char => .next (failBuild index char (acceptOperation s))

end Sys2Proof.Machine
end

