-- ==== Sys2Proof/Machine/Scan.lean ====
section
/-! DEFINITION. The scan-matrix decoder of file 44_scan.md: DECODE_SCAN (R240) and READ_BUTTONS (R243). -/

namespace Sys2Proof.Machine

/-- The decode table, row by row (R240, R242): button, scan byte, mask. -/
def scanTable : List (Nat × Fin 4 × Byte) :=
  [(0, 0, 0x20#8), (1, 0, 0x02#8), (2, 1, 0x20#8), (3, 1, 0x02#8),
   (4, 2, 0x20#8), (5, 2, 0x02#8), (6, 3, 0x20#8), (7, 3, 0x02#8),
   (8, 0, 0x40#8), (9, 0, 0x04#8), (10, 1, 0x40#8), (11, 1, 0x04#8),
   (12, 2, 0x40#8), (13, 2, 0x04#8), (14, 3, 0x40#8), (15, 3, 0x04#8)]

/-- BTN[i] <- b on a vector whose bit i is 0. -/
def placeButton (w : Buttons) (i : Nat) (b : Bool) : Buttons :=
  w ||| ((BitVec.ofBool b).setWidth 16 <<< i)

/-- bool(v & mask) (R11, R240). -/
def maskedBool (v mask : Byte) : Bool :=
  (v &&& mask) != 0#8

/-- The button vector of four scan bytes, by the table (R240, R242: the table is the authority). -/
def decodeScanBytes (s : Quad) : Buttons :=
  scanTable.foldl (fun w row => placeButton w row.1 (maskedBool s[row.2.1] row.2.2)) 0#16

/-- The same by the loop of R240, the spec's restatement of the table. -/
def decodeScanLoop (s : Quad) : Buttons :=
  (List.finRange 4).foldl
    (fun w k =>
      placeButton
        (placeButton
          (placeButton
            (placeButton w (2 * k.val) (maskedBool s[k] 0x20#8))
            (2 * k.val + 1) (maskedBool s[k] 0x02#8))
          (8 + 2 * k.val) (maskedBool s[k] 0x40#8))
        (9 + 2 * k.val) (maskedBool s[k] 0x04#8))
    0#16

/-- The body of DECODE_SCAN (R240): all of BTN from four bytes. -/
def decodeScanBody (bytes : Quad) (s : State) : State :=
  { s with btn := decodeScanBytes bytes }

/-- DECODE_SCAN (R240). -/
def execDecodeScan (bytes : Quad) (s : State) : Host.Outcome State Fault Refusal :=
  let t := decodeScanBody bytes (acceptOperation s)
  .next (finishOk (buttonBytes t.btn) t)

/-- READ_BUTTONS (R243): the READ_SCAN body, then the DECODE_SCAN body on SCANBUF. -/
def execReadButtons (s : State) : Host.Outcome State Fault Refusal :=
  let t := readScanBody (acceptOperation s)
  let u := decodeScanBody t.scanbuf t
  .next (finishOk (buttonBytes u.btn) u)

end Sys2Proof.Machine
end

