-- ==== Sys2Proof/Machine/Wire.lean ====
section
/-! DEFINITION. The four wire command kinds (R101 to R103) as transactions of their own (R69 to R72): the block
sends the command byte and what follows it, and the chip interprets it. No request reaches them (R113); they
are fetched from `rawIn` (notes/assumptions/9.md). -/

namespace Sys2Proof.Machine

/-- One transaction put on the wire: its events, the chip's reaction, and the bytes received. It is no host
operation, so it sends no response and writes no status (R142, R144, R146). -/
def runTransaction (sent : List Byte) (receives : Nat) (s : State) : State :=
  let p := transaction sent receives (acceptOperation s)
  { endOperation p.2 with rawOut := p.1 }

/-- DISPLAY_CONTROL (R101, R65, R69). -/
def execDisplayControl (d : Bool) (ppp : BitVec 3) (s : State) : Host.Outcome State Fault Refusal :=
  .next (runTransaction [displayControlByte d ppp] 0 s)

/-- DATA_WRITE (R102, R64, R70). -/
def execDataWrite (fixed : Bool) (s : State) : Host.Outcome State Fault Refusal :=
  .next (runTransaction [dataWriteByte (!fixed)] 0 s)

/-- DATA_READ and its four received bytes (R102, R64, R71). -/
def execDataRead (s : State) : Host.Outcome State Fault Refusal :=
  .next (runTransaction [dataReadByte] 4 s)

/-- SET_ADDRESS and its payload (R103, R66, R72). -/
def execSetAddress (aaaa : BitVec 4) (payload : List Byte) (s : State) :
    Host.Outcome State Fault Refusal :=
  .next (runTransaction (setAddressByte (aaaa.setWidth 8) :: payload) 0 s)

end Sys2Proof.Machine
end

