-- ==== Sys2Proof/Machine/Dispatch.lean ====
section
/-! DEFINITION. What each instruction does: one arm for each constructor of Instr. -/

namespace Sys2Proof.Machine

/-- Execute one instruction as one atomic transition (R24). -/
def exec (i : Instr) (s : State) : Host.Outcome State Fault Refusal :=
  match i with
  | .displayControl d ppp => Sys2Proof.Machine.execDisplayControl d ppp s
  | .dataWrite fixed => Sys2Proof.Machine.execDataWrite fixed s
  | .dataRead => Sys2Proof.Machine.execDataRead s
  | .setAddress aaaa payload => Sys2Proof.Machine.execSetAddress aaaa payload s
  | .configureDisplay enabled pulseWidth => Sys2Proof.Machine.execConfigureDisplay enabled pulseWidth s
  | .initWriteData autoIncrement => Sys2Proof.Machine.execInitWriteData autoIncrement s
  | .writeData address payload => Sys2Proof.Machine.execWriteData address payload s
  | .readScan => Sys2Proof.Machine.execReadScan s
  | .writeDigits d => Sys2Proof.Machine.execWriteDigits d s
  | .writeString text => Sys2Proof.Machine.execWriteString text s
  | .readButtons => Sys2Proof.Machine.execReadButtons s
  | .buildDigits text => Sys2Proof.Machine.execBuildDigits text s
  | .scramble d => Sys2Proof.Machine.execScramble d s
  | .unscramble f => Sys2Proof.Machine.execUnscramble f s
  | .decodeScan bytes => Sys2Proof.Machine.execDecodeScan bytes s

end Sys2Proof.Machine
end

