-- ==== Sys2Proof/Machine/Fetch.lean ====
section
/-! DEFINITION. Taking the next words: the host's bytes (R108, R262), or a transaction of `rawIn`. -/

namespace Sys2Proof.Machine

/-- What the next step does. -/
inductive Fetched where
  /-- Nothing to run: no whole request is there (R108, R292), or BUSY holds it (R25). -/
  | hold
  /-- A request that the IllegalOperation check refuses, its bytes consumed (R262). -/
  | reject (s : State)
  /-- A transaction of `rawIn` of none of the forms R69 to R72, consumed. -/
  | undescribed (sent : List Byte) (receives : Nat) (s : State)
  /-- An instruction, its words consumed. -/
  | run (i : Instr) (s : State)
  deriving DecidableEq, Repr

/-- Take a request from the host's bytes (R108, R262). -/
def fetchRequest (s : State) : Fetched :=
  match decode (.request s.hostIn) with
  | .incomplete => .hold
  | .rejected _ rest => .reject { s with hostIn := rest }
  | .instr i rest => .run i { s with hostIn := rest }

/-- Take a transaction of `rawIn`. -/
def fetchTransaction (sent : List Byte) (receives : Nat) (s : State) : Fetched :=
  match decode (.transaction sent receives) with
  | .instr i _ => .run i s
  | _ => .undescribed sent receives s

/-- What the next step does. While BUSY = 1 nothing is accepted (R25). -/
def fetch (s : State) : Fetched :=
  match s.busy with
  | true => .hold
  | false =>
    match s.rawIn with
    | (sent, receives) :: rest => fetchTransaction sent receives { s with rawIn := rest }
    | [] => fetchRequest s

/-- The host presents bytes (R108, R277): they wait behind those it presented before. -/
def presentRequest (bytes : List Byte) (s : State) : State :=
  { s with hostIn := s.hostIn ++ bytes }

/-- Words put where the next step fetches. -/
def placeSource (src : Source) (s : State) : State :=
  match src with
  | .request bytes => { s with busy := false, resetAt := none, rawIn := [], hostIn := bytes }
  | .transaction sent receives => { s with busy := false, resetAt := none, rawIn := [(sent, receives)] }

end Sys2Proof.Machine
end

