-- ==== Sys2Proof/Machine/Reset.lean ====
section
/-! DEFINITION. The host's reset input (R290, R291). -/

namespace Sys2Proof.Machine

/-- Reset of the block (R290): every piece of block state at its value of R37, STB rising at once. The chip
keeps its state but for seeing that edge (R291), and so do the parameters and the inputs. The spec is silent on
two points, and both are the model's choice (notes/assumptions/8.md): the trace of what was emitted before reset is
emptied (R14, R290), and bytes of a request presented in part stay presented, the first of them the header that the
block waits for (R292). -/
def resetBlock (s : State) : State :=
  { driveStbLine true s with
    clk := State.reset.clk
    dio := State.reset.dio
    pc := State.reset.pc
    busy := State.reset.busy
    cause := State.reset.cause
    errIndex := State.reset.errIndex
    errChar := State.reset.errChar
    scanbuf := State.reset.scanbuf
    frame := State.reset.frame
    digits := State.reset.digits
    btn := State.reset.btn
    build := State.reset.build
    prev := State.reset.prev
    log := State.reset.log
    response := State.reset.response
    resetAt := none }

/-- Reset in the middle of an operation that has emitted these events (R290): the operation is abandoned
without a response, and the chip sees a transaction cut short, HAZARD case e (R79, R307). The events already on the
wire have had their effect on the chip and stand in no trace afterwards: R14 and R290 do not say, and this is the
model's choice (notes/assumptions/8.md). -/
def abandonOperation (es : List Event) (s : State) : State :=
  (resetBlock (emitAll es (acceptOperation s))).onChip Chip.abandoned

/-- The reset input at a step that took `before` to `after`: none; or, with the operation still short of its
last event, it is abandoned; or reset finds the block idle again. -/
def settleReset (before after : State) : State :=
  match before.resetAt with
  | none => after
  | some n => if n < after.log.length then abandonOperation (after.trace.take n) before else resetBlock after

/-- The reset input at a step in which no operation runs. -/
def settleIdle (s : State) : State :=
  match s.resetAt with
  | none => s
  | some _ => resetBlock s

/-- A power-on of the chip alone (R63, R291): every field unknown again, the draws fresh. HAZARD is not cleared
during a run (R79), and the keypad is no part of the chip's power. -/
def Chip.powerCycle (c : Chip) : Chip :=
  { Chip.powerOn with
    epoch := c.draws
    dispEn := (Config.draw (c.draws + 16)).getLsbD 0
    pw := (Config.draw (c.draws + 17)).extractLsb' 0 3
    hazard := c.hazard
    keypad := c.keypad
    draws := c.draws + 18 }

/-- The chip is powered on between two steps, an input that no step takes (notes/assumptions/8.md): the block
keeps its state and cannot tell (R75). -/
def powerCycleChip (s : State) : State :=
  { s with chip := s.chip.powerCycle }

end Sys2Proof.Machine
end

