-- ==== Sys2Proof/Machine/Step.lean ====
section
/-! DEFINITION. One step: fetch, execute, and the reset input. -/

namespace Sys2Proof.Machine

/-- One step of the machine: the next request or transaction as one atomic transition (R24, R90), or nothing
if there is none; then the reset input (R290). -/
def step (s : State) : Host.Outcome State Fault Refusal :=
  match fetch s with
  | .hold => .next (settleIdle s)
  | .reject t => .next (settleReset t (rejectRequest t))
  | .undescribed sent receives t => .next (settleReset t (runTransaction sent receives t))
  | .run i t =>
    match exec i t with
    | .next u => .next (settleReset t u)
    | .fault f => .fault f
    | .refused r => .refused r

/-- The state with an opcode-table row's words placed where the next step fetches (notes/assumptions/7.md). -/
def State.withFetchWord (s : State) (nbits w : Nat) : State :=
  placeSource (tableSource nbits w) s

end Sys2Proof.Machine
end

