-- ==== Sys2Proof/Machine/Display.lean ====
section
/-! DEFINITION. What the display shows (R74): the observation a display claim is stated through. -/

namespace Sys2Proof.Machine

/-- Segment line b is at address 2*b (R61). -/
def lineRegister (b : Fin 8) : Nat :=
  2 * b.val

/-- Segment b of digit index i is lit (R74, R62). -/
def Chip.lit (c : Chip) (b i : Fin 8) : Bool :=
  c.dispEn && (c.dramByte (lineRegister b)).getLsbD (7 - i.val)

/-- Segment b at a physical position is lit: some digit index that POS_MAP sends there has it lit (R62). -/
def State.litAt (s : State) (b position : Fin 8) : Bool :=
  (List.finRange 8).any fun i => s.params.posMap[i] = position && s.chip.lit b i

/-- The brightness of every lit segment: CHIP.PW, 0 dimmest and 7 brightest (R74). -/
def Chip.brightness (c : Chip) : Nat :=
  c.pw.toNat

end Sys2Proof.Machine
end

