-- ==== Sys2Proof/Machine/Trace.lean ====
section
/-! DEFINITION. The wire traces the rules give (R14), as lists, and what a transaction does to the chip, byte by
byte: the handier forms in which statements speak of the wire. -/

namespace Sys2Proof.Machine

/-- The 48 events of SEND_BYTE(v) (R142). -/
def sendTrace (v : Byte) : List Event :=
  (byteBits v).flatMap sendBitEvents

/-- The 5 events of one bit of RECEIVE_BYTE (R144, R145). -/
def receiveBitEvents : List Event :=
  [.driveClk false, .wait .tClk, .sample, .driveClk true, .wait .tClk]

/-- The 41 events of RECEIVE_BYTE (R144). -/
def receiveTrace : List Event :=
  .releaseDio :: (List.replicate 8 receiveBitEvents).flatten

/-- FRAME around a body's events (R146). -/
def frameTrace (body : List Event) : List Event :=
  [.driveStb false, .wait .tStb] ++ body ++ [.driveStb true, .wait .tStb]

/-- One transaction that only sends (R107, R146). -/
def sendFrameTrace (bs : List Byte) : List Event :=
  frameTrace (bs.flatMap sendTrace)

/-- One transaction that sends, waits T_RDWAIT and receives n bytes (R107, R146, R147). -/
def receiveFrameTrace (sent : List Byte) (n : Nat) : List Event :=
  frameTrace (sent.flatMap sendTrace ++ .wait .tRdwait :: (List.replicate n receiveTrace).flatten)

/-- The read transaction of READ_SCAN and READ_BUTTONS (R167). -/
def readTrace : List Event :=
  receiveFrameTrace [dataReadByte] 4

/-- The eight transactions of WRITE_DIGITS for a frame (R194). -/
def linesTrace (f : Octet) : List Event :=
  (List.finRange 8).flatMap fun b => sendFrameTrace [setAddressByte (lineAddress b.val), f[b]]

/-- DIO_MODE after a SEND_BYTE: the level of the last bit sent, bit 7 (R142, R148). -/
def dioAfterByte (v : Byte) : DioMode :=
  if v.getLsbD 7 then .drive1 else .drive0

/-- DIO_MODE after bytes are sent (R148). -/
def dioAfterBytes (dio : DioMode) (bs : List Byte) : DioMode :=
  bs.foldl (fun _ v => dioAfterByte v) dio

/-- The chip after a transaction of these sent bytes, byte by byte (R67). -/
def Chip.afterSent (c : Chip) (bs : List Byte) : Chip :=
  (bs.foldl Chip.acceptByte c.strobeFall).strobeRise

/-- The chip after a read transaction: KEYS drawn, MODE READ (R64, R71, R73, R86). -/
def Chip.afterRead (c : Chip) : Chip :=
  { c.drawKeys with mode := .read, phase := .idle, bits := [], out := true }

/-- The chip after the eight transactions of WRITE_DIGITS for a frame (R194). -/
def Chip.afterLines (c : Chip) (f : Octet) : Chip :=
  (List.finRange 8).foldl (fun d b => d.afterSent [setAddressByte (lineAddress b.val), f[b]]) c

/-- The number of transactions in a trace: the falls of STB, as a trace drives STB low once for each (R118,
R146). -/
def transactionCount (es : List Event) : Nat :=
  es.countP fun e => e == .driveStb false

/-- The levels that a trace drives DIO to, in order (R142). -/
def drivenBits (es : List Event) : List Bool :=
  es.filterMap fun e =>
    match e with
    | .driveDio v => some v
    | _ => none

/-- The chip of a state after something happened on the wire: changed only if it is attached (R75). -/
def State.chipAfter (s : State) (f : Chip → Chip) : Chip :=
  match s.bus with
  | .attached => f s.chip
  | _ => s.chip

end Sys2Proof.Machine
end

