-- ==== Sys2Proof/Safety.lean ====
section
/-! DEFINITION. What claims are stated in: the idle invariant (R149), the machine invariant, the host's duties
(R300, R305) and the stability of DIO (R143). -/

namespace Sys2Proof.Machine

/-- Between operations (R149): STB and CLK are high, the block is idle, and the chip sees no transaction. -/
abbrev State.Idle (s : State) : Prop :=
  s.stb = true ∧ s.clk = true ∧ s.busy = false ∧ s.pc = 0 ∧
    s.chip.phase = .idle ∧ s.chip.bits = [] ∧ s.chip.out = true

/-- The data-mode latch and the address mode are set together (R72), so long as nothing was havocked. -/
abbrev Chip.ModeKnown (c : Chip) : Prop :=
  c.hazard = false → c.mode = .write → c.ainc ≠ .unknown

/-- BUILD has at most MAX_TEXT entries, and prev is none or an index in it (R32). -/
abbrev State.BuildBounded (s : State) : Prop :=
  s.build.length ≤ 255 ∧ ∀ k ∈ s.prev, k < s.build.length

/-- The machine invariant: idle (R149), CAUSE never a reserved code (R26), display memory in canonical form,
the modes known together (R72), BUILD and prev in bounds (R32). -/
abbrev State.Inv (s : State) : Prop :=
  s.Idle ∧ s.cause.toNat ≤ 2 ∧ memWf s.chip.dram = true ∧ s.chip.ModeKnown ∧ s.BuildBounded

/-- The host has initialised the chip for writing since the last read (R300, R301), the chip is there, and no
hazard has happened: the premises of a display claim (R199, R307). -/
abbrev State.WriteReady (s : State) : Prop :=
  s.bus = .attached ∧ s.chip.mode = .write ∧ s.chip.hazard = false

/-- The host's duty of R305 for n payload bytes at a masked address. -/
abbrev Chip.NoOverflow (c : Chip) (a : BitVec 4) (n : Nat) : Prop :=
  c.ainc = .auto → a.toNat + n ≤ 16

/-- All chip state is arbitrary, as HAZARD cases c, d and e leave it (R79): each variable the consecutive draws
from number k on, in the order that the model takes them (notes/assumptions/3.md). -/
def Chip.AllDrawn (c : Chip) (k : Nat) : Prop :=
  c.hazard = true ∧ (∀ x : Nat, c.dramByte x = Config.draw (k + x)) ∧
    c.ptr = drawnPtr (Config.draw (k + 16)) ∧ c.dispEn = (Config.draw (k + 17)).getLsbD 0 ∧
    c.pw = (Config.draw (k + 18)).extractLsb' 0 3 ∧ c.mode = drawnMode (Config.draw (k + 19)) ∧
    c.ainc = drawnAinc (Config.draw (k + 20)) ∧ c.keys = Config.draw (k + 22) ++ Config.draw (k + 21)

/-- The transactions of HAZARD cases c, d and e in the words of R79, as bytes sent and bytes received: none sent;
a reserved command byte; a byte after a display-control or data-write command; a receive in a transaction that does
not start with 0x42; a fifth receive in one that does. -/
def isHazardTransaction (sent : List Byte) (receives : Nat) : Bool :=
  match sent with
  | [] => true
  | c :: payload =>
    let cls := c.extractLsb' 6 2
    let mm := c.extractLsb' 0 2
    cls == 0b00#2 || c.extractLsb' 4 2 != 0b00#2 ||
      (cls == 0b01#2 && (c.getLsbD 2 || mm == 0b01#2 || mm == 0b11#2)) ||
      ((cls == 0b10#2 || (cls == 0b01#2 && mm == 0b00#2)) && !payload.isEmpty) ||
      (c != 0x42#8 && 1 ≤ receives) || 5 ≤ receives

/-- Every change of DIO in a trace comes while CLK is high, `clk` being the level before it (R143). -/
def dioStable (clk : Bool) (es : List Event) : Bool :=
  match es with
  | [] => true
  | .driveStb _ :: rest => dioStable clk rest
  | .driveClk v :: rest => dioStable v rest
  | .driveDio _ :: rest => clk && dioStable clk rest
  | .releaseDio :: rest => clk && dioStable clk rest
  | .sample :: rest => dioStable clk rest
  | .wait _ :: rest => dioStable clk rest

/-- The eleven host operations of R109; the other four rows are wire commands. -/
def isHostOperation : Instr → Bool
  | .displayControl _ _ => false
  | .dataWrite _ => false
  | .dataRead => false
  | .setAddress _ _ => false
  | .configureDisplay _ _ => true
  | .initWriteData _ => true
  | .writeData _ _ => true
  | .readScan => true
  | .writeDigits _ => true
  | .writeString _ => true
  | .readButtons => true
  | .buildDigits _ => true
  | .scramble _ => true
  | .unscramble _ => true
  | .decodeScan _ => true

/-- The operations that compute only and never touch the wire: OP 0x8 to 0xB (R118, R295). -/
def isPureOperation : Instr → Bool
  | .displayControl _ _ => false
  | .dataWrite _ => false
  | .dataRead => false
  | .setAddress _ _ => false
  | .configureDisplay _ _ => false
  | .initWriteData _ => false
  | .writeData _ _ => false
  | .readScan => false
  | .writeDigits _ => false
  | .writeString _ => false
  | .readButtons => false
  | .buildDigits _ => true
  | .scramble _ => true
  | .unscramble _ => true
  | .decodeScan _ => true

/-- The instructions that send data bytes to display registers (R72): the others store nothing. -/
def storesDisplay : Instr → Bool
  | .displayControl _ _ => false
  | .dataWrite _ => false
  | .dataRead => false
  | .setAddress _ _ => true
  | .configureDisplay _ _ => false
  | .initWriteData _ => false
  | .writeData _ _ => true
  | .readScan => false
  | .writeDigits _ => true
  | .writeString _ => true
  | .readButtons => false
  | .buildDigits _ => false
  | .scramble _ => false
  | .unscramble _ => false
  | .decodeScan _ => false

/-- Two states that agree on everything but the data buffers of R28 to R32 (R33). -/
def SameButBuffers (s t : State) : Prop :=
  t = { s with
    scanbuf := t.scanbuf, frame := t.frame, digits := t.digits, btn := t.btn, build := t.build, prev := t.prev }

end Sys2Proof.Machine
end

