-- ==== Sys2Proof/WellFormed.lean ====
section
/-! DEFINITION. Which terms of Instr are instructions: the count bytes of R110 bound three operands. -/

namespace Sys2Proof

/-- An instruction its encoding can express: a payload or a text has at most 255 bytes, since its count is
one byte (R9, R110, R265). Every other operand is bounded by its type. -/
def Instr.wellFormed : Instr → Bool
  | .displayControl _ _ => true
  | .dataWrite _ => true
  | .dataRead => true
  | .setAddress _ _ => true
  | .configureDisplay _ _ => true
  | .initWriteData _ => true
  | .writeData _ payload => payload.length ≤ 255
  | .readScan => true
  | .writeDigits _ => true
  | .writeString text => text.length ≤ 255
  | .readButtons => true
  | .buildDigits text => text.length ≤ 255
  | .scramble _ => true
  | .unscramble _ => true
  | .decodeScan _ => true

end Sys2Proof
end

