-- ==== Sys2Proof/Certificates/Slice0/Obligations.lean ====
section
/-! DEFINITION. The statements for the provers, from the numbered rules of spec/. -/

open Sys2Proof Sys2Proof.Machine

/-! ## Reset, the step, the invariant -/

/-- What reset leaves (R37, R290, R292), with the chip just powered on (R63) and no byte presented. The
buffers, which R37 leaves unspecified, and the draws of the chip are not named. That the chip has just been
powered on is the model's choice (notes/assumptions/3.md). -/
def Obligations.ResetLeavesTheGivenValues : Prop :=
  State.reset.stb = true ∧ State.reset.clk = true ∧ State.reset.dio = .released ∧ State.reset.pc = 0 ∧
    State.reset.busy = false ∧ State.reset.cause = 0#3 ∧ State.reset.errIndex = 0#8 ∧
    State.reset.errChar = 0#8 ∧ State.reset.status = 0#8 ∧ State.reset.trace = [] ∧
    State.reset.chip.mode = .unknown ∧ State.reset.chip.ainc = .unknown ∧ State.reset.chip.ptr = none ∧
    State.reset.chip.hazard = false

/-- The machine invariant holds at reset (R37, R149). BUILD at reset is the model's choice
(notes/assumptions/1.md). -/
def Obligations.ResetMeetsInvariant : Prop :=
  State.reset.Inv

/-- Every step keeps the machine invariant (R149, R26, R72, R32), from every state that meets it. -/
def Obligations.EveryStepKeepsInvariant : Prop :=
  ∀ s t : State, s.Inv → step s = .next t → t.Inv

/-- No step stops the machine, since errors are responses and the wire reports nothing (R151, R260, R266); and no
step writes a parameter (R20, R93, R293). -/
def Obligations.EveryStepAnswersNextAndKeepsTheParameters : Prop :=
  ∀ s : State, ∃ t, step s = .next t ∧ t.params = s.params

/-- The layout of STATUS (R26): BUSY in bit 0, CAUSE in bits [3:1], bits [7:4] read as 0. -/
def Obligations.StatusRegisterLayout : Prop :=
  ∀ s : State, s.status.getLsbD 0 = s.busy ∧ s.status.extractLsb' 1 3 = s.cause ∧ s.status.extractLsb' 4 4 = 0#4

/-- A step runs the decoded instruction (R24, R90, R108): a whole request at the front of the host's bytes is
executed, its bytes consumed; so is a transaction at the front of `rawIn`, the model's own port
(notes/assumptions/9.md). -/
def Obligations.StepRunsDecodedInstruction : Prop :=
  ∀ (s : State) (i : Instr), s.busy = false → s.resetAt = none →
    (∀ rest : List Byte, s.rawIn = [] → decode (.request s.hostIn) = .instr i rest →
      step s = exec i { s with hostIn := rest }) ∧
    (∀ (sent rest : List Byte) (n : Nat) (later : List (List Byte × Nat)), s.rawIn = (sent, n) :: later →
      decode (.transaction sent n) = .instr i rest → step s = exec i { s with rawIn := later })

/-- A request is held, not dropped and no error, while BUSY = 1 (R25) and while bytes of it are still to come
(R108, R292): the step changes nothing. That a step finds BUSY = 1, in states no run reaches, is deduced
(notes/assumptions/10.md); that an incomplete request leaves no trace of how far it has come is the model's choice
(notes/assumptions/7.md); `rawIn` is the model's port (notes/assumptions/9.md). -/
def Obligations.RequestsAreHeldUntilTheyCanRun : Prop :=
  ∀ s : State, s.resetAt = none →
    (s.busy = true ∨ (s.rawIn = [] ∧ decode (.request s.hostIn) = .incomplete)) → step s = .next s

/-- The IllegalOperation check (R262): an illegal OP consumes its header only; a reserved ARG bit consumes
the whole request. Either way the answer is the error response, with no wire event and the chip as it was.
`rawIn` is the model's port (notes/assumptions/9.md). -/
def Obligations.IllegalRequestIsRefused : Prop :=
  ∀ (s : State) (h : Byte) (ops : List Byte),
    s.busy = false → s.rawIn = [] → s.resetAt = none → s.hostIn = h :: ops →
    (((opField h).toNat = 0 ∨ 12 ≤ (opField h).toNat) →
      step s = .next
        { s with busy := false, pc := 0, cause := 2#3, response := [0x02#8], log := [], hostIn := ops }) ∧
    (∀ n : Nat, 1 ≤ (opField h).toNat → (opField h).toNat ≤ 11 →
      operandBytes (opField h) ops = some n → n ≤ ops.length →
      (((opField h).toNat = 2 ∧ (argField h).extractLsb' 1 3 ≠ 0#3) ∨
        (3 ≤ (opField h).toNat ∧ argField h ≠ 0#4)) →
      step s = .next
        { s with
          busy := false, pc := 0, cause := 2#3, response := [0x02#8], log := [], hostIn := ops.drop n })

/-! ## Encodings -/

/-- Decode of encode, for every well-formed instruction and whatever bytes follow a request. Transactions as
words: the model's port (notes/assumptions/9.md). -/
def Obligations.DecodeOfEncode : Prop :=
  ∀ (i : Instr) (rest : List Byte), i.wellFormed = true →
    match encode i with
    | .request bytes => decode (.request (bytes ++ rest)) = .instr i rest
    | .transaction sent n => decode (.transaction sent n) = .instr i []

/-- Encode of decode: words that decode to an instruction are its encoding, and it is well-formed. Transactions
as words: the model's port (notes/assumptions/9.md). -/
def Obligations.EncodeOfDecode : Prop :=
  (∀ (bytes rest : List Byte) (i : Instr), decode (.request bytes) = .instr i rest →
    i.wellFormed = true ∧ ∃ used, encode i = .request used ∧ bytes = used ++ rest) ∧
  (∀ (sent rest : List Byte) (n : Nat) (i : Instr), decode (.transaction sent n) = .instr i rest →
    i.wellFormed = true ∧ encode i = .transaction sent n)

/-- Words written out from the spec's encodings (R101 to R103, R109, R110, L1-10, L1-12, L2-C8). -/
def Obligations.WordsOfTheSpecDecode : Prop :=
  decode (.transaction [0b10001111#8] 0) = .instr (.displayControl true 7#3) [] ∧
  decode (.transaction [0b01001000#8] 0) = .instr (.dataWrite true) [] ∧
  decode (.transaction [0b01000010#8] 4) = .instr .dataRead [] ∧
  decode (.transaction [0b11000001#8, 0xAA#8] 0) = .instr (.setAddress 1#4 [0xAA#8]) [] ∧
  decode (.request [0x1F#8]) = .instr (.configureDisplay true 7#3) [] ∧
  decode (.request [0x30#8, 0x11#8, 0x02#8, 0xAA#8, 0x55#8]) =
    .instr (.writeData 0x11#8 [0xAA#8, 0x55#8]) [] ∧
  decode (.request [0x60#8, 0x02#8, 0x31#8, 0x5A#8, 0x40#8]) = .instr (.writeString [0x31#8, 0x5A#8]) [0x40#8] ∧
  decode (.request [0xB0#8, 0x20#8, 0x00#8, 0x00#8, 0x04#8]) = .instr (.decodeScan #v[0x20#8, 0#8, 0#8, 4#8]) []

/-! ## Lines and micro-operations -/

/-- DIO is a wired AND: low exactly if the block drives 0 or an attached chip pulls low, so DRIVE1 and RELEASED
give the same level, and with nobody pulling low the sample is 1 (R23). A faulty bus is the model's input
(notes/assumptions/6.md). -/
def Obligations.DioIsAWiredAnd : Prop :=
  ∀ s : State, s.bus ≠ .faulty →
    (s.sampleValue = false ↔ s.dio = .drive0 ∨ (s.bus = .attached ∧ s.chip.out = false)) ∧
    State.sampleValue { s with dio := .drive1 } = State.sampleValue { s with dio := .released }

/-- SEND_BYTE (R142): 48 events, the DIO levels v[0] to v[7] in order, CLK high and DIO at v[7] after, STB and
everything off the wire unchanged. -/
def Obligations.SendByteSendsLeastSignificantBitFirst : Prop :=
  ∀ (v : Byte) (s : State),
    ∃ es c, sendByte v s =
        { s with clk := true, dio := if v.getLsbD 7 then .drive1 else .drive0, pc := s.pc + 48,
                 log := es.reverse ++ s.log, chip := c } ∧
      es.length = 48 ∧
      drivenBits es = [v.getLsbD 0, v.getLsbD 1, v.getLsbD 2, v.getLsbD 3, v.getLsbD 4, v.getLsbD 5,
        v.getLsbD 6, v.getLsbD 7] ∧
      es = (byteBits v).flatMap fun b =>
        [.driveDio b, .wait .tSetup, .driveClk false, .wait .tClk, .driveClk true, .wait .tClk]

/-- RECEIVE_BYTE (R144): 41 events, CLK high and DIO released after; the byte is what an attached chip presents
(R71), and 0xFF on a silent bus (R76). -/
def Obligations.ReceiveByteTakesLeastSignificantBitFirst : Prop :=
  ∀ s : State,
    (∃ es c, (receiveByte s).2 =
        { s with clk := true, dio := .released, pc := s.pc + 41, log := es.reverse ++ s.log, chip := c } ∧
      es = .releaseDio :: (List.replicate 8
        [.driveClk false, .wait .tClk, .sample, .driveClk true, .wait .tClk]).flatten) ∧
    (s.bus = .silent → (receiveByte s).1 = 0xFF#8) ∧
    (∀ (b0 b1 b2 b3 b4 b5 b6 b7 : Bool) (rest : List Bool), s.bus = .attached → s.clk = true →
      s.chip.phase = .reading ([b0, b1, b2, b3, b4, b5, b6, b7] ++ rest) →
      byteBits (receiveByte s).1 = [b0, b1, b2, b3, b4, b5, b6, b7])

/-- DIO changes only while CLK is high, in every operation (R143). -/
def Obligations.DioChangesOnlyWhileClockIsHigh : Prop :=
  ∀ (i : Instr) (s t : State), s.clk = true → exec i s = .next t → dioStable true t.trace = true

/-- An operation is its wire trace (R14, R24): the events of the trace, one by one, take the lines and the chip
from where the operation found them to where it left them. -/
def Obligations.OperationIsItsWireTrace : Prop :=
  ∀ (i : Instr) (s t : State), exec i s = .next t →
    t.stb = (emitAll t.trace (acceptOperation s)).stb ∧ t.clk = (emitAll t.trace (acceptOperation s)).clk ∧
      t.dio = (emitAll t.trace (acceptOperation s)).dio ∧
      t.chip = (emitAll t.trace (acceptOperation s)).chip ∧
      (emitAll t.trace (acceptOperation s)).pc = t.trace.length

/-- Exact event counts (R309), of the micro-operations too (R142, R144, R146), and the number of transactions of
each operation (R118). The rows of the four wire commands are the model's port (notes/assumptions/9.md). -/
def Obligations.TraceShapesAreExact : Prop :=
  (∀ (i : Instr) (s t : State), exec i s = .next t →
    (t.trace.length, transactionCount t.trace) =
      match i with
      | .displayControl _ _ => (52, 1)
      | .dataWrite _ => (52, 1)
      | .dataRead => (217, 1)
      | .setAddress _ payload => (4 + 48 * (1 + payload.length), 1)
      | .configureDisplay _ _ => (52, 1)
      | .initWriteData _ => (52, 1)
      | .writeData _ payload => (4 + 48 * (1 + payload.length), 1)
      | .readScan => (217, 1)
      | .writeDigits _ => (800, 8)
      | .writeString _ => if t.cause = 1#3 then (0, 0) else (800, 8)
      | .readButtons => (217, 1)
      | .buildDigits _ => (0, 0)
      | .scramble _ => (0, 0)
      | .unscramble _ => (0, 0)
      | .decodeScan _ => (0, 0)) ∧
  (∀ s : State, (rejectRequest s).trace = []) ∧
  (∀ v : Byte, (sendTrace v).length = 48) ∧ receiveTrace.length = 41 ∧
  (∀ body : List Event, (frameTrace body).length = 4 + body.length)

/-- Minimum durations (R310): the sum of the lower bounds of an operation's waits. -/
def Obligations.MinimumDurations : Prop :=
  ∀ p : Params,
    (∀ v : Byte, minDuration p (sendTrace v) = 8 * (p.tSetup + 2 * p.tClk)) ∧
    minDuration p receiveTrace = 16 * p.tClk ∧
    (∀ (en : Bool) (pw : BitVec 3) (s t : State), exec (.configureDisplay en pw) s = .next t →
      minDuration p t.trace = 2 * p.tStb + 8 * (p.tSetup + 2 * p.tClk)) ∧
    (∀ (auto : Bool) (s t : State), exec (.initWriteData auto) s = .next t →
      minDuration p t.trace = 2 * p.tStb + 8 * (p.tSetup + 2 * p.tClk)) ∧
    (∀ s t : State, exec .readScan s = .next t →
      minDuration p t.trace = 2 * p.tStb + 8 * (p.tSetup + 2 * p.tClk) + p.tRdwait + 64 * p.tClk) ∧
    (∀ (d : Octet) (s t : State), exec (.writeDigits d) s = .next t →
      minDuration p t.trace = 8 * (2 * p.tStb + 16 * (p.tSetup + 2 * p.tClk)))

/-! ## Wire commands -/

/-- DISPLAY_CONTROL (R65, R69, R101): the transaction of that byte sets the display enable and the pulse width
of an attached chip, and nothing else but the lines. That a wire command has no response and leaves CAUSE is the
model's choice (notes/assumptions/9.md). -/
def Obligations.DisplayControlRuns : Prop :=
  ∀ (d : Bool) (ppp : BitVec 3) (s : State), s.stb = true → s.clk = true →
    exec (.displayControl d ppp) s = .next
      { s with
        busy := false, pc := 0, response := [], rawOut := [], dio := .drive1
        log := (sendFrameTrace [displayControlByte d ppp]).reverse
        chip := s.chipAfter fun c =>
          { c with dispEn := d, pw := ppp, phase := .idle, bits := [], out := true } }

/-- DATA_WRITE (R64, R70, R102): MODE <- WRITE, AINC <- FIXED if I = 1, else AUTO. No response and no CAUSE: the
model's choice (notes/assumptions/9.md). -/
def Obligations.DataWriteRuns : Prop :=
  ∀ (fixed : Bool) (s : State), s.stb = true → s.clk = true →
    exec (.dataWrite fixed) s = .next
      { s with
        busy := false, pc := 0, response := [], rawOut := [], dio := .drive0
        log := (sendFrameTrace [dataWriteByte (!fixed)]).reverse
        chip := s.chipAfter fun c =>
          { c with
            mode := .write, ainc := if fixed then .fixed else .auto
            phase := .idle, bits := [], out := true } }

/-- DATA_READ (R64, R71, R73, R102) with the chip attached: KEYS are drawn, MODE <- READ, and the four bytes
received are SCANDATA[0..3] in order. Where the bytes go, and how keys are drawn, is the model's choice
(notes/assumptions/9.md, 3.md, 5.md). -/
def Obligations.DataReadRuns : Prop :=
  ∀ s : State, s.bus = .attached → s.stb = true → s.clk = true →
    exec .dataRead s = .next
      { s with
        busy := false, pc := 0, response := [], dio := .released, log := readTrace.reverse
        rawOut := s.chip.nextRead.scanData.toList
        chip := { s.chip.drawKeys with mode := .read, phase := .idle, bits := [], out := true } }

/-- SET_ADDRESS (R72, R103): the transaction of the command byte and the payload, its effect on an attached
chip byte by byte. No response and no CAUSE: the model's choice (notes/assumptions/9.md). -/
def Obligations.SetAddressRuns : Prop :=
  ∀ (a : BitVec 4) (payload : List Byte) (s : State), s.stb = true → s.clk = true →
    exec (.setAddress a payload) s = .next
      { s with
        busy := false, pc := 0, response := [], rawOut := []
        dio := dioAfterBytes .drive1 payload
        log := (sendFrameTrace (setAddressByte (a.setWidth 8) :: payload)).reverse
        chip := s.chipAfter fun c =>
          { payload.foldl Chip.acceptByte { c with ptr := some a, phase := .address, bits := [], out := true } with
            phase := .idle, bits := [], out := true } }

/-! ## Command encoder operations -/

/-- CONFIGURE_DISPLAY (R160, R65). -/
def Obligations.ConfigureDisplayRuns : Prop :=
  ∀ (en : Bool) (pw : BitVec 3) (s : State), s.stb = true → s.clk = true →
    exec (.configureDisplay en pw) s = .next
      { s with
        busy := false, pc := 0, cause := 0#3, response := [0x00#8], dio := .drive1
        log := (sendFrameTrace [0x80#8 ||| ((BitVec.ofBool en).setWidth 8 <<< 3) ||| pw.setWidth 8]).reverse
        chip := s.chipAfter fun c =>
          { c with dispEn := en, pw := pw, phase := .idle, bits := [], out := true } }

/-- INIT_WRITE_DATA (R162, R64): 0x40 for auto-increment, 0x48 for a fixed address. -/
def Obligations.InitWriteDataRuns : Prop :=
  ∀ (auto : Bool) (s : State), s.stb = true → s.clk = true →
    exec (.initWriteData auto) s = .next
      { s with
        busy := false, pc := 0, cause := 0#3, response := [0x00#8], dio := .drive0
        log := (sendFrameTrace [if auto then 0x40#8 else 0x48#8]).reverse
        chip := s.chipAfter fun c =>
          { c with
            mode := .write, ainc := if auto then .auto else .fixed
            phase := .idle, bits := [], out := true } }

/-- WRITE_DATA (R164): one transaction of the masked address and the payload, in every chip mode. -/
def Obligations.WriteDataRuns : Prop :=
  ∀ (a : Byte) (payload : List Byte) (s : State), s.stb = true → s.clk = true →
    exec (.writeData a payload) s = .next
      { s with
        busy := false, pc := 0, cause := 0#3, response := [0x00#8]
        dio := dioAfterBytes .drive1 payload
        log := (sendFrameTrace ((0xC0#8 ||| (a &&& 0x0F#8)) :: payload)).reverse
        chip := s.chipAfter fun c => c.afterSent ((0xC0#8 ||| (a &&& 0x0F#8)) :: payload) }

/-- WRITE_DATA masks the address and never rejects it: only ADDR[3:0] is used, and whatever it holds the
operation ends with CAUSE 0 (R165). -/
def Obligations.WriteDataMasksItsAddress : Prop :=
  ∀ (a b : Byte) (payload : List Byte) (s : State), a.extractLsb' 0 4 = b.extractLsb' 0 4 →
    exec (.writeData a payload) s = exec (.writeData b payload) s ∧
      ∃ t, exec (.writeData a payload) s = .next t ∧ t.cause = 0#3 ∧ t.response = [0x00#8]

/-- WRITE_DATA, and the wire command SET_ADDRESS with its payload, to a chip in write mode with auto-increment
(R66, R72, R81, R164): byte k lands at address a + k, every other address keeps what it held, the pointer ends
behind the last byte, no hazard. -/
def Obligations.WriteDataStoresAscending : Prop :=
  ∀ (a : Byte) (payload : List Byte) (i : Instr) (s : State), s.stb = true → s.clk = true →
    s.bus = .attached → s.chip.mode = .write → s.chip.ainc = .auto →
    (maskAddress a).toNat + payload.length ≤ 16 →
    (i = .writeData a payload ∨ i = .setAddress (maskAddress a) payload) →
    ∃ t, exec i s = .next t ∧
      (∀ k (h : k < payload.length), memRead t.chip.dram ((maskAddress a).toNat + k) = some payload[k]) ∧
      (∀ x : Nat, x < (maskAddress a).toNat ∨ (maskAddress a).toNat + payload.length ≤ x →
        memRead t.chip.dram x = memRead s.chip.dram x ∧ t.chip.dramByte x = s.chip.dramByte x) ∧
      t.chip.ptr = (if (maskAddress a).toNat + payload.length = 16 then none
        else some (BitVec.ofNat 4 ((maskAddress a).toNat + payload.length))) ∧
      t.chip.hazard = s.chip.hazard ∧ t.chip.mode = .write ∧ t.chip.ainc = .auto ∧
      t.chip.dispEn = s.chip.dispEn ∧ t.chip.pw = s.chip.pw ∧ t.chip.keys = s.chip.keys

/-- WRITE_DATA, and SET_ADDRESS with its payload, to a chip in write mode with a fixed address (R66, R72): every
byte lands at the same address, so the last one stays; every other address keeps what it held, and the pointer
stays. -/
def Obligations.WriteDataStoresAtFixedAddress : Prop :=
  ∀ (a : Byte) (payload : List Byte) (i : Instr) (s : State), s.stb = true → s.clk = true →
    s.bus = .attached → s.chip.mode = .write → s.chip.ainc = .fixed →
    (i = .writeData a payload ∨ i = .setAddress (maskAddress a) payload) →
    ∃ t, exec i s = .next t ∧
      (∀ h : payload ≠ [], memRead t.chip.dram (maskAddress a).toNat = some (payload.getLast h)) ∧
      (∀ x : Nat, (payload = [] ∨ x ≠ (maskAddress a).toNat) →
        memRead t.chip.dram x = memRead s.chip.dram x ∧ t.chip.dramByte x = s.chip.dramByte x) ∧
      t.chip.ptr = some (maskAddress a) ∧
      t.chip.hazard = s.chip.hazard ∧ t.chip.mode = .write ∧ t.chip.ainc = .fixed ∧
      t.chip.dispEn = s.chip.dispEn ∧ t.chip.pw = s.chip.pw ∧ t.chip.keys = s.chip.keys

/-- A payload to a chip that is not in write mode is HAZARD case a (R79, R300, R301), while WRITE_DATA responds OK
(R75): the display registers and the pointer become draws, and nothing else of the chip's registers changes.
With no payload only the pointer is set, in any mode (R72). The form of a draw is the model's
(notes/assumptions/3.md). -/
def Obligations.WriteWithoutInitIsAHazard : Prop :=
  ∀ (a : Byte) (payload : List Byte) (i : Instr) (s : State), s.stb = true → s.clk = true →
    s.bus = .attached → s.chip.mode ≠ .write →
    (i = .writeData a payload ∨ i = .setAddress (maskAddress a) payload) →
    ∃ t, exec i s = .next t ∧ (i = .writeData a payload → t.response = [0x00#8]) ∧
      (payload ≠ [] → t.chip.hazard = true ∧ t.chip.mode = s.chip.mode ∧ t.chip.ainc = s.chip.ainc ∧
        t.chip.dispEn = s.chip.dispEn ∧ t.chip.pw = s.chip.pw ∧
        (∀ x : Nat, t.chip.dramByte x = Config.draw (s.chip.draws + x)) ∧
        t.chip.ptr = drawnPtr (Config.draw (s.chip.draws + 16))) ∧
      (payload = [] → t.chip = { s.chip with
        ptr := some (maskAddress a), phase := .idle, bits := [], out := true })

/-- A byte past address 0xF in auto-increment mode is HAZARD case b (R79, R305): the display registers become
draws. The form of a draw is the model's (notes/assumptions/3.md). -/
def Obligations.PointerOverflowIsAHazard : Prop :=
  ∀ (a : Byte) (payload : List Byte) (i : Instr) (s : State), s.stb = true → s.clk = true →
    s.bus = .attached → s.chip.mode = .write → s.chip.ainc = .auto →
    16 < (maskAddress a).toNat + payload.length →
    (i = .writeData a payload ∨ i = .setAddress (maskAddress a) payload) →
    ∃ t, exec i s = .next t ∧ (i = .writeData a payload → t.response = [0x00#8]) ∧
      t.chip.hazard = true ∧ t.chip.mode = .write ∧ t.chip.ainc = .auto ∧
      (∀ x : Nat, t.chip.dramByte x = Config.draw (s.chip.draws + x)) ∧
      t.chip.ptr = drawnPtr (Config.draw (s.chip.draws + 16))

/-- Repeating a write, by WRITE_DATA or as a set-address transaction, leaves the display registers and the pointer as
one such write leaves them (R77), if it stays within the registers (R79 case b) and the address mode is known, as it
is in write mode without hazard (R72). -/
def Obligations.DisplayWritesAreIdempotent : Prop :=
  ∀ (a : Byte) (payload : List Byte) (i : Instr) (s t u : State), s.stb = true → s.clk = true →
    s.bus = .attached → s.chip.mode = .write → s.chip.ainc ≠ .unknown →
    s.chip.NoOverflow (maskAddress a) payload.length →
    (i = .writeData a payload ∨ i = .setAddress (maskAddress a) payload) →
    exec i s = .next t → exec i t = .next u →
    (∀ x : Nat, memRead u.chip.dram x = memRead t.chip.dram x ∧ u.chip.dramByte x = t.chip.dramByte x) ∧
      u.chip.ptr = t.chip.ptr

/-- SCANDATA[0..3] for a keypad state (R73): four bits of each byte are keys, the other four as drawn. -/
def Obligations.ScanDataHoldsTheKeys : Prop :=
  ∀ (r : KeyRead) (k : Fin 4),
    r.scanData[k].getLsbD 5 = r.keys.getLsbD (2 * k.val) ∧
    r.scanData[k].getLsbD 1 = r.keys.getLsbD (2 * k.val + 1) ∧
    r.scanData[k].getLsbD 6 = r.keys.getLsbD (8 + 2 * k.val) ∧
    r.scanData[k].getLsbD 2 = r.keys.getLsbD (9 + 2 * k.val) ∧
    (∀ j ∈ [0, 3, 4, 7], r.scanData[k].getLsbD j = r.others[k].getLsbD j)

/-- READ_SCAN with the chip attached (R167, R71, R73, R86): SCANBUF and the response hold SCANDATA[0..3]. How
keys are drawn is the model's choice (notes/assumptions/3.md, 5.md). -/
def Obligations.ReadScanRuns : Prop :=
  ∀ s : State, s.bus = .attached → s.stb = true → s.clk = true →
    exec .readScan s = .next
      { s with
        busy := false, pc := 0, cause := 0#3, dio := .released, log := readTrace.reverse
        scanbuf := s.chip.nextRead.scanData
        response := 0x00#8 :: s.chip.nextRead.scanData.toList
        chip := { s.chip.drawKeys with mode := .read, phase := .idle, bits := [], out := true } }

/-- READ_SCAN, READ_BUTTONS and the wire command DATA_READ end as ever on every bus (R75, R151, R167, R243): the
four bytes received fill SCANBUF, whatever the wire gave, and BTN is their decoding. Without an attached chip the
chip keeps its state but for the count of draws. Where DATA_READ's bytes go is the model's choice
(notes/assumptions/9.md). -/
def Obligations.ReadsCompleteOnEveryBus : Prop :=
  ∀ s : State, ∃ (q : Quad) (c : Chip),
    exec .readScan s = .next
      { s with
        stb := true, clk := true, dio := .released, busy := false, pc := 0, cause := 0#3
        log := readTrace.reverse, scanbuf := q, response := 0x00#8 :: q.toList, chip := c } ∧
    exec .readButtons s = .next
      { s with
        stb := true, clk := true, dio := .released, busy := false, pc := 0, cause := 0#3
        log := readTrace.reverse, scanbuf := q, btn := decodeScanBytes q
        response := 0x00#8 :: buttonBytes (decodeScanBytes q), chip := c } ∧
    exec .dataRead s = .next
      { s with
        stb := true, clk := true, dio := .released, busy := false, pc := 0
        log := readTrace.reverse, response := [], rawOut := q.toList, chip := c } ∧
    (s.bus ≠ .attached → { c with draws := s.chip.draws } = s.chip)

/-- On a silent bus each received byte is 0xFF, READ_BUTTONS reports all buttons pressed, and no error is raised
(R76). -/
def Obligations.SilentBusReadsAllOnes : Prop :=
  ∀ s : State, s.bus = .silent →
    (∃ t, exec .readScan s = .next t ∧ t.response = [0x00#8, 0xFF#8, 0xFF#8, 0xFF#8, 0xFF#8] ∧
      t.cause = 0#3 ∧ t.chip = s.chip) ∧
    (∃ t, exec .readButtons s = .next t ∧ t.response = [0x00#8, 0xFF#8, 0xFF#8] ∧ t.btn = 0xFFFF#16 ∧
      t.cause = 0#3 ∧ t.chip = s.chip)

/-! ## Scrambler -/

/-- The scramble function and its inverse, bit by bit (R190). -/
def Obligations.ScrambleTransposesBits : Prop :=
  ∀ (d f : Octet) (i b : Fin 8),
    (scrambleDigits d)[b].getLsbD (7 - i.val) = d[i].getLsbD b.val ∧
    (unscrambleFrame f)[i].getLsbD b.val = f[b].getLsbD (7 - i.val)

/-- The round-trip laws (R193): the scramble is a bijection on 8-byte sequences, a transpose of the bit matrix
with the digit index reversed. -/
def Obligations.ScrambleRoundTrips : Prop :=
  (∀ d : Octet, unscrambleFrame (scrambleDigits d) = d) ∧ (∀ f : Octet, scrambleDigits (unscrambleFrame f) = f) ∧
    (∀ (d : Octet) (i b : Fin 8), (scrambleDigits d)[b].getLsbD (7 - i.val) = d[i].getLsbD b.val)

/-- SCRAMBLE writes DIGITS and FRAME and answers the frame (R191); UNSCRAMBLE writes no buffer and answers the
digits (R192). Neither has a wire event. -/
def Obligations.ScrambleAndUnscrambleRun : Prop :=
  ∀ (d f : Octet) (s : State),
    exec (.scramble d) s = .next
      { s with
        busy := false, pc := 0, cause := 0#3, log := [], digits := d, frame := scrambleDigits d
        response := 0x00#8 :: (scrambleDigits d).toList } ∧
    exec (.unscramble f) s = .next
      { s with
        busy := false, pc := 0, cause := 0#3, log := []
        response := 0x00#8 :: (unscrambleFrame f).toList }

/-- WRITE_DIGITS (R194): DIGITS and FRAME are written, eight transactions of two bytes go out, and the chip
reacts to each in turn. -/
def Obligations.WriteDigitsRuns : Prop :=
  ∀ (d : Octet) (s : State), s.stb = true → s.clk = true →
    exec (.writeDigits d) s = .next
      { s with
        busy := false, pc := 0, cause := 0#3, response := [0x00#8], digits := d, frame := scrambleDigits d
        dio := dioAfterByte (scrambleDigits d)[7]
        log := (linesTrace (scrambleDigits d)).reverse
        chip := s.chipAfter fun c => c.afterLines (scrambleDigits d) }

/-- After WRITE_DIGITS, or WRITE_STRING of a text that builds, in write mode (R195, R196), in either address mode:
the even registers hold the frame, every other address keeps what it held, no hazard; the pointer ends at 0xF
with auto-increment and at 0xE with a fixed address. -/
def Obligations.WriteDigitsFillsTheEvenRegisters : Prop :=
  ∀ (d : Octet) (i : Instr) (s : State), s.stb = true → s.clk = true → s.bus = .attached →
    s.chip.mode = .write →
    (i = .writeDigits d ∨ ∃ text b prev, i = .writeString text ∧
      Machine.buildDigits s.params.font text = .done b prev ∧ d = padToDigits b) →
    ∃ t, exec i s = .next t ∧
      (∀ b : Fin 8, memRead t.chip.dram (lineRegister b) = some (scrambleDigits d)[b]) ∧
      (∀ x : Nat, (∀ b : Fin 8, x ≠ lineRegister b) →
        memRead t.chip.dram x = memRead s.chip.dram x ∧ t.chip.dramByte x = s.chip.dramByte x) ∧
      (s.chip.ainc = .auto → t.chip.ptr = some 15#4) ∧ (s.chip.ainc = .fixed → t.chip.ptr = some 14#4) ∧
      t.chip.hazard = s.chip.hazard ∧ t.chip.mode = .write ∧ t.chip.ainc = s.chip.ainc ∧
      t.chip.dispEn = s.chip.dispEn ∧ t.chip.pw = s.chip.pw ∧ t.chip.keys = s.chip.keys

/-- The end-to-end display law (R199): with the chip in write mode, enabled and no hazard, segment b of digit
index i is lit afterwards exactly if bit b of that digit's pattern is set. -/
def Obligations.DisplayShowsTheDigits : Prop :=
  ∀ (d : Octet) (s : State), s.Idle → s.WriteReady → s.chip.dispEn = true →
    ∃ t, exec (.writeDigits d) s = .next t ∧ t.chip.hazard = false ∧
      ∀ i b : Fin 8, t.chip.lit b i = d[i].getLsbD b.val

/-- The boot order (R294), its steps 3 and 4 in either order: then WRITE_DIGITS shows the digits, from every
idle state with the chip attached and no hazard, whatever the chip held. -/
def Obligations.BootOrderShowsTheDigits : Prop :=
  ∀ (d : Octet) (auto : Bool) (pw : BitVec 3) (s : State), s.Idle → s.bus = .attached → s.chip.hazard = false →
    (∃ t u v, exec (.configureDisplay true pw) s = .next t ∧ exec (.initWriteData auto) t = .next u ∧
      exec (.writeDigits d) u = .next v ∧ v.chip.hazard = false ∧ v.chip.pw = pw ∧
      ∀ i b : Fin 8, v.chip.lit b i = d[i].getLsbD b.val) ∧
    (∃ t u v, exec (.initWriteData auto) s = .next t ∧ exec (.configureDisplay true pw) t = .next u ∧
      exec (.writeDigits d) u = .next v ∧ v.chip.hazard = false ∧ v.chip.pw = pw ∧
      ∀ i b : Fin 8, v.chip.lit b i = d[i].getLsbD b.val)

/-- Display tearing (R85, R306): after the first k of the eight transactions of WRITE_DIGITS, 100 events each,
the first k lines are new, and every other register holds the byte it held before. -/
def Obligations.DisplayTearsBetweenTransactions : Prop :=
  ∀ (d : Octet) (s t : State) (k : Nat), s.stb = true → s.clk = true → s.bus = .attached →
    s.chip.mode = .write → k ≤ 8 → exec (.writeDigits d) s = .next t →
    ∃ c, (emitAll (t.trace.take (100 * k)) (acceptOperation s)).chip = c ∧
      (∀ b : Fin 8, b.val < k → memRead c.dram (lineRegister b) = some (scrambleDigits d)[b]) ∧
      (∀ x : Nat, (∀ b : Fin 8, b.val < k → x ≠ lineRegister b) →
        memRead c.dram x = memRead s.chip.dram x ∧ c.dramByte x = s.chip.dramByte x)

/-! ## Character encoder -/

/-- One more character (R222 to R224): a `.` merges into the digit prev names and prev becomes none; anything
else, a `.` without such a digit too, is looked up, and is an error if the font has no entry. -/
def Obligations.BuildDigitsTakesOneMoreCharacter : Prop :=
  ∀ (font : List (Byte × Byte)) (text : List Byte) (ch : Byte) (b : List Byte) (prev : Option Nat),
    Machine.buildDigits font text = .done b prev →
    Machine.buildDigits font (text ++ [ch]) =
      match prev, decide (ch = 0x2E#8), fontLookup font ch with
      | some k, true, _ => .done (b.modify k (fun p => p ||| 0x80#8)) none
      | _, _, some p => .done (b ++ [p]) (some b.length)
      | _, _, none => .unknown (BitVec.ofNat 8 text.length) ch

/-- The first unknown character is the one reported (R225, R264): it has no entry, is no merged `.`, and what
stands before it builds. -/
def Obligations.FirstUnknownCharacterIsReported : Prop :=
  ∀ (font : List (Byte × Byte)) (text : List Byte) (j ch : Byte), text.length ≤ 255 →
    Machine.buildDigits font text = .unknown j ch →
    text[j.toNat]? = some ch ∧ fontLookup font ch = none ∧
      ∃ b prev, Machine.buildDigits font (text.take j.toNat) = .done b prev ∧ (ch = 0x2E#8 → prev = none)

/-- BUILD_DIGITS on a text that builds (R224, R112): BUILD is the response after its count. -/
def Obligations.BuildDigitsRuns : Prop :=
  ∀ (text : List Byte) (s : State) (b : List Byte) (prev : Option Nat),
    Machine.buildDigits s.params.font text = .done b prev →
    b.length ≤ text.length ∧
    exec (.buildDigits text) s = .next
      { s with
        busy := false, pc := 0, cause := 0#3, log := [], build := b, prev := prev
        response := 0x00#8 :: BitVec.ofNat 8 b.length :: b }

/-- WRITE_STRING on a text that builds (R196): the digits are padded with zeros or truncated to eight, and
written as by WRITE_DIGITS. -/
def Obligations.WriteStringRuns : Prop :=
  ∀ (text : List Byte) (s : State) (b : List Byte) (prev : Option Nat), s.stb = true → s.clk = true →
    Machine.buildDigits s.params.font text = .done b prev →
    ∃ d : Octet, (∀ i : Fin 8, d[i] = if h : i.val < b.length then b[i.val] else 0x00#8) ∧
      exec (.writeString text) s = .next
        { s with
          busy := false, pc := 0, cause := 0#3, response := [0x00#8], build := b, prev := prev
          digits := d, frame := scrambleDigits d
          dio := dioAfterByte (scrambleDigits d)[7]
          log := (linesTrace (scrambleDigits d)).reverse
          chip := s.chipAfter fun c => c.afterLines (scrambleDigits d) }

/-- UnknownCharacter (R198, R261, R263, R264): CAUSE 1, the position and the code in ERR_INDEX and ERR_CHAR and
in the response, and no wire event: the chip and the lines are as before. The emptied BUILD is the model's
choice (notes/assumptions/1.md). -/
def Obligations.UnknownCharacterEndsTheOperation : Prop :=
  ∀ (text : List Byte) (s : State) (j ch : Byte),
    Machine.buildDigits s.params.font text = .unknown j ch →
    exec (.writeString text) s = .next
        { s with
          busy := false, pc := 0, cause := 1#3, errIndex := j, errChar := ch, log := []
          response := [0x01#8, j, ch], build := [], prev := none } ∧
      exec (.buildDigits text) s = exec (.writeString text) s

/-! ## Scan decoder -/

/-- The decode table (R240, R242): button i is the masked bit of its row, and the loop of R240 equals the
table. -/
def Obligations.DecodeFollowsTheTable : Prop :=
  ∀ q : Quad,
    (∀ k : Fin 4,
      (decodeScanBytes q).getLsbD (2 * k.val) = q[k].getLsbD 5 ∧
      (decodeScanBytes q).getLsbD (2 * k.val + 1) = q[k].getLsbD 1 ∧
      (decodeScanBytes q).getLsbD (8 + 2 * k.val) = q[k].getLsbD 6 ∧
      (decodeScanBytes q).getLsbD (9 + 2 * k.val) = q[k].getLsbD 2) ∧
    decodeScanLoop q = decodeScanBytes q

/-- Bits 0, 3, 4 and 7 of a scan byte are ignored (R241). -/
def Obligations.UnmappedScanBitsAreIgnored : Prop :=
  ∀ q r : Quad,
    (∀ k : Fin 4, q[k].getLsbD 1 = r[k].getLsbD 1 ∧ q[k].getLsbD 2 = r[k].getLsbD 2 ∧
      q[k].getLsbD 5 = r[k].getLsbD 5 ∧ q[k].getLsbD 6 = r[k].getLsbD 6) →
    decodeScanBytes q = decodeScanBytes r

/-- DECODE_SCAN (R240, R117): BTN is written and is the response, low byte first; no wire event. -/
def Obligations.DecodeScanRuns : Prop :=
  ∀ (q : Quad) (s : State), ∃ w : Buttons,
    exec (.decodeScan q) s = .next
      { s with
        busy := false, pc := 0, cause := 0#3, log := [], btn := w
        response := [0x00#8, w.extractLsb' 0 8, w.extractLsb' 8 8] } ∧
    ∀ k : Fin 4,
      w.getLsbD (2 * k.val) = q[k].getLsbD 5 ∧ w.getLsbD (2 * k.val + 1) = q[k].getLsbD 1 ∧
      w.getLsbD (8 + 2 * k.val) = q[k].getLsbD 6 ∧ w.getLsbD (9 + 2 * k.val) = q[k].getLsbD 2

/-- READ_BUTTONS and the end-to-end keypad law (R243, R245): the buttons returned are the keys the read saw,
whatever the unmapped scan bits hold; SCANBUF is filled and the chip is left in read mode (R64). How keys are drawn
is the model's choice (notes/assumptions/3.md, 5.md). -/
def Obligations.ReadButtonsReturnsTheKeys : Prop :=
  ∀ s : State, s.bus = .attached → s.stb = true → s.clk = true →
    exec .readButtons s = .next
      { s with
        busy := false, pc := 0, cause := 0#3, dio := .released, log := readTrace.reverse
        scanbuf := s.chip.nextRead.scanData
        btn := s.chip.nextRead.keys
        response := [0x00#8, s.chip.nextRead.keys.extractLsb' 0 8, s.chip.nextRead.keys.extractLsb' 8 8]
        chip := { s.chip.drawKeys with
          keys := s.chip.nextRead.keys, mode := .read, phase := .idle, bits := [], out := true } }

/-! ## Whole-machine rules -/

/-- Instructions that send no data byte leave every display register as it was (R65, R86, R118, R226). -/
def Obligations.OtherInstructionsKeepDisplayMemory : Prop :=
  ∀ (i : Instr) (s t : State), storesDisplay i = false → s.stb = true → s.clk = true → exec i s = .next t →
    ∀ x : Nat, memRead t.chip.dram x = memRead s.chip.dram x ∧ t.chip.dramByte x = s.chip.dramByte x

/-- How a host operation ends (R112, R260, R263, R268): with CAUSE 0, ERR_INDEX and ERR_CHAR kept; or with
CAUSE 1, no wire event, and the chip and the lines as they were. Either way BUSY = 0, pc = 0 and the response
begins with the cause. -/
def Obligations.HostOperationsEndInOneOfTwoWays : Prop :=
  ∀ (i : Instr) (s t : State), isHostOperation i = true → exec i s = .next t →
    t.busy = false ∧ t.pc = 0 ∧ t.response.head? = some (t.cause.setWidth 8) ∧
    ((t.cause = 0#3 ∧ t.errIndex = s.errIndex ∧ t.errChar = s.errChar) ∨
      (t.cause = 1#3 ∧ t.response = [0x01#8, t.errIndex, t.errChar] ∧ t.trace = [] ∧ t.chip = s.chip ∧
        t.stb = s.stb ∧ t.clk = s.clk ∧ t.dio = s.dio))

/-- Without an attached chip every write is lost silently (R75, R266): the operation ends as ever, and the chip
keeps its state but for the count of draws that samples of a faulty bus take. The kinds of bus are the model's
input (notes/assumptions/6.md). -/
def Obligations.WritesToAnAbsentChipAreLost : Prop :=
  ∀ (i : Instr) (s t : State), s.bus ≠ .attached → exec i s = .next t →
    { t.chip with draws := s.chip.draws } = s.chip

/-- HAZARD is never cleared during a run, and a transaction of HAZARD cases c, d or e leaves all chip state at fresh
draws (R79). No host operation makes such a transaction: it comes through `rawIn`, the model's port
(notes/assumptions/9.md), and the form of a draw is the model's (notes/assumptions/3.md). That bytes sent after the one
that made the hazard are ignored, and that a receive after a byte sent behind 0x42 havocs again, is the model's choice
(notes/assumptions/4.md). -/
def Obligations.HazardIsNeverCleared : Prop :=
  (∀ s t : State, s.chip.hazard = true → step s = .next t → t.chip.hazard = true) ∧
  (∀ (s : State) (sent : List Byte) (n : Nat) (later : List (List Byte × Nat)), s.Idle → s.bus = .attached →
    s.resetAt = none → s.rawIn = (sent, n) :: later → isHazardTransaction sent n = true →
    ∃ t k, step s = .next t ∧ s.chip.draws ≤ k ∧ t.chip.AllDrawn k)

/-- No result depends on the length of a wait (R150, R308) or on where a digit index lights (R8, R62): with other
delays and another POS_MAP the operation ends in the same state. -/
def Obligations.NoResultDependsOnTheDelays : Prop :=
  ∀ (i : Instr) (s : State) (p : Params), p.font = s.params.font →
    ∃ t, exec i s = .next t ∧ exec i { s with params := p } = .next { t with params := p }

/-- No operation reads a buffer that an earlier one wrote (R28, R33): two states that differ in the buffers only
give the same response, status, trace, lines and chip. -/
def Obligations.NoOperationReadsAStaleBuffer : Prop :=
  ∀ (i : Instr) (s s' : State), SameButBuffers s s' →
    ∃ t t', exec i s = .next t ∧ exec i s' = .next t' ∧ SameButBuffers t t'

/-- Reset while an operation still has events to emit (R290, R307): it is abandoned without a response, every
piece of block state the spec gives a reset value has it, and an attached chip sees HAZARD case e: all its state is
fresh draws (R79). When reset arrives is the model's input, the hazard even between two transactions its reading, and
the emptied trace its choice (notes/assumptions/8.md); the form of a draw is the model's too
(notes/assumptions/3.md). -/
def Obligations.ResetAbandonsTheOperation : Prop :=
  ∀ (s u : State) (i : Instr) (rest : List Byte) (n : Nat),
    s.busy = false → s.rawIn = [] → s.resetAt = some n → decode (.request s.hostIn) = .instr i rest →
    exec i { s with hostIn := rest } = .next u → n < u.trace.length →
    ∃ t, step s = .next t ∧ t.stb = true ∧ t.clk = true ∧ t.dio = .released ∧ t.busy = false ∧ t.pc = 0 ∧
      t.cause = 0#3 ∧ t.errIndex = 0#8 ∧ t.errChar = 0#8 ∧ t.response = [] ∧ t.trace = [] ∧
      t.hostIn = rest ∧ t.resetAt = none ∧ (s.bus = .attached → ∃ k, s.chip.draws ≤ k ∧ t.chip.AllDrawn k)

/-- Reset of an idle block, with no request presented or only a part of one, does not reach the chip (R290, R291): the
block is at its reset values and the chip as it was. The reset input is the model's; that the trace and the response
of the last operation are emptied, and that the bytes presented stay presented, is the model's choice
(notes/assumptions/8.md); `rawIn` is the model's port (notes/assumptions/9.md). -/
def Obligations.IdleResetLeavesTheChip : Prop :=
  ∀ (s : State) (n : Nat), s.Idle → s.rawIn = [] → decode (.request s.hostIn) = .incomplete →
    s.resetAt = some n →
    ∃ t, step s = .next t ∧ t.chip = s.chip ∧ t.stb = true ∧ t.clk = true ∧ t.dio = .released ∧
      t.busy = false ∧ t.pc = 0 ∧ t.cause = 0#3 ∧ t.errIndex = 0#8 ∧ t.errChar = 0#8 ∧ t.response = [] ∧
      t.trace = [] ∧ t.hostIn = s.hostIn ∧ t.params = s.params ∧ t.resetAt = none
end

