-- ==== Sys2Proof/Laws/Memory.lean ====
section
/-! SUPPORT. The laws of the display registers: read after write, and the canonical form. -/

namespace Sys2Proof.Machine

@[simp] theorem memRead_nil (a : Nat) : memRead [] a = none := rfl

/-- A byte written is read back. -/
theorem memRead_memWrite_same (m : List Host.Cell) (a : Nat) (v : Byte) :
    memRead (memWrite m a v) a = some v := by
  induction m with
  | nil => simp [memWrite, memRead]
  | cons c rest ih =>
    simp only [memWrite]
    split
    · simp [memRead]
    · split
      · simp [memRead]
      · rename_i h1 h2
        have : c.1 ≠ a := fun h => h2 h.symm
        simp [memRead, this, ih]

/-- A write leaves every other address alone. -/
theorem memRead_memWrite_other (m : List Host.Cell) {a b : Nat} (v : Byte) (h : a ≠ b) :
    memRead (memWrite m a v) b = memRead m b := by
  induction m with
  | nil => simp [memWrite, memRead, h]
  | cons c rest ih =>
    simp only [memWrite]
    split
    · simp [memRead, h]
    · split
      · rename_i h1 h2
        subst h2
        simp [memRead, h]
      · by_cases hc : c.1 = b <;> simp [memRead, hc, ih]

/-- What a write makes an address read as. -/
theorem memRead_memWrite (m : List Host.Cell) (a b : Nat) (v : Byte) :
    memRead (memWrite m a v) b = if a = b then some v else memRead m b := by
  split
  · rename_i h
    subst h
    exact memRead_memWrite_same m a v
  · rename_i h
    exact memRead_memWrite_other m v h

/-- The addresses after a write: the old ones and the one written. -/
theorem mem_memWrite {m : List Host.Cell} {a : Nat} {v : Byte} {c : Host.Cell}
    (h : c ∈ memWrite m a v) : c = (a, v) ∨ c ∈ m := by
  induction m with
  | nil => simpa [memWrite] using h
  | cons d rest ih =>
    simp only [memWrite] at h
    split at h
    · simpa using h
    · split at h
      · rcases List.mem_cons.mp h with h | h
        · exact .inl h
        · exact .inr (List.mem_cons_of_mem _ h)
      · rcases List.mem_cons.mp h with h | h
        · exact .inr (h ▸ List.mem_cons_self)
        · exact (ih h).imp_right (List.mem_cons_of_mem _)

/-- A write to an existing address keeps the canonical form. -/
theorem memWf_memWrite {m : List Host.Cell} {a : Nat} (v : Byte) (ha : a < 16) (h : memWf m = true) :
    memWf (memWrite m a v) = true := by
  induction m with
  | nil => simp [memWrite, memWf, ha]
  | cons c rest ih =>
    simp only [memWf, Bool.and_eq_true, decide_eq_true_eq, List.all_eq_true] at h
    obtain ⟨⟨hc, hrest⟩, hw⟩ := h
    simp only [memWrite]
    split
    · rename_i hlt
      simp only [memWf, Bool.and_eq_true, decide_eq_true_eq, List.all_eq_true, List.mem_cons,
        forall_eq_or_imp]
      exact ⟨⟨ha, hlt, fun d hd => lt_trans hlt (hrest d hd)⟩, ⟨hc, hrest⟩, hw⟩
    · split
      · rename_i heq
        simp only [memWf, Bool.and_eq_true, decide_eq_true_eq, List.all_eq_true]
        exact ⟨⟨ha, fun d hd => heq ▸ hrest d hd⟩, hw⟩
      · rename_i h1 h2
        simp only [memWf, Bool.and_eq_true, decide_eq_true_eq, List.all_eq_true]
        refine ⟨⟨hc, fun d hd => ?_⟩, ih hw⟩
        rcases mem_memWrite hd with rfl | hd
        · simp only
          omega
        · exact hrest d hd

/-- The display registers at reset list nothing, which is the canonical form. -/
theorem reset_memWf : memWf State.reset.chip.dram = true := rfl

end Sys2Proof.Machine
end

