-- ==== Sys2Proof/Laws/Chip.lean ====
section
/-! SUPPORT. What the chip does with bits and bytes, said once: eight latched bits are one accepted byte, and
eight presented bits are one byte of the scan data; and the lifting of chip invariants to the edges. -/

namespace Sys2Proof.Machine

/-! ## Bits and bytes -/

/-- Packing the bits of a byte gives the byte back (R68, R144). -/
theorem packBits_byteBits : ∀ v : Byte, packBits (byteBits v) = v := by decide +kernel

/-- Packing eight bits and taking the bits of the byte gives them back. -/
theorem byteBits_packBits (b0 b1 b2 b3 b4 b5 b6 b7 : Bool) :
    byteBits (packBits [b0, b1, b2, b3, b4, b5, b6, b7]) = [b0, b1, b2, b3, b4, b5, b6, b7] := by
  revert b0 b1 b2 b3 b4 b5 b6 b7
  decide +kernel

/-! ## Fields that accepting a byte leaves alone -/

@[simp] theorem havocAll_out (c : Chip) : c.havocAll.out = c.out := rfl
@[simp] theorem havocAll_bits (c : Chip) : c.havocAll.bits = [] := rfl
@[simp] theorem havocAll_phase (c : Chip) : c.havocAll.phase = .ended := rfl
@[simp] theorem havocAll_hazard (c : Chip) : c.havocAll.hazard = true := rfl
@[simp] theorem havocAll_dram (c : Chip) : c.havocAll.dram = [] := rfl
@[simp] theorem havocDisplay_out (c : Chip) : c.havocDisplay.out = c.out := rfl
@[simp] theorem havocDisplay_bits (c : Chip) : c.havocDisplay.bits = [] := rfl
@[simp] theorem havocDisplay_hazard (c : Chip) : c.havocDisplay.hazard = true := rfl
@[simp] theorem havocDisplay_dram (c : Chip) : c.havocDisplay.dram = [] := rfl

@[simp] theorem drawKeys_out (c : Chip) : c.drawKeys.out = c.out := rfl
@[simp] theorem drawKeys_bits (c : Chip) : c.drawKeys.bits = c.bits := rfl
@[simp] theorem drawKeys_dram (c : Chip) : c.drawKeys.dram = c.dram := rfl
@[simp] theorem drawKeys_epoch (c : Chip) : c.drawKeys.epoch = c.epoch := rfl
@[simp] theorem drawKeys_dispEn (c : Chip) : c.drawKeys.dispEn = c.dispEn := rfl
@[simp] theorem drawKeys_pw (c : Chip) : c.drawKeys.pw = c.pw := rfl
@[simp] theorem drawKeys_ainc (c : Chip) : c.drawKeys.ainc = c.ainc := rfl
@[simp] theorem drawKeys_ptr (c : Chip) : c.drawKeys.ptr = c.ptr := rfl
@[simp] theorem drawKeys_hazard (c : Chip) : c.drawKeys.hazard = c.hazard := rfl

/-- The keys drawn are those of this read (R73). -/
@[simp] theorem drawKeys_keys (c : Chip) : c.drawKeys.keys = c.nextRead.keys := rfl

/-- A data byte leaves the receiver between bytes. -/
theorem storeByte_bits {c : Chip} (v : Byte) (h : c.bits = []) : (c.storeByte v).bits = [] := by
  unfold Chip.storeByte
  split
  · split <;> simp [h]
  · simp

theorem storeByte_out (c : Chip) (v : Byte) : (c.storeByte v).out = c.out := by
  unfold Chip.storeByte
  split
  · split <;> simp
  · simp

theorem acceptCommand_bits {c : Chip} (v : Byte) (h : c.bits = []) : (c.acceptCommand v).bits = [] := by
  unfold Chip.acceptCommand
  split <;> try simp [Chip.displayControl, Chip.dataWrite, Chip.setAddress, h]
  unfold Chip.dataRead
  split <;> simp [h]

theorem acceptCommand_out (c : Chip) (v : Byte) : (c.acceptCommand v).out = c.out := by
  unfold Chip.acceptCommand
  split <;> try simp [Chip.displayControl, Chip.dataWrite, Chip.setAddress]
  unfold Chip.dataRead
  split <;> simp

/-- After a whole byte the receiver is between bytes. -/
theorem acceptByte_bits {c : Chip} (v : Byte) (h : c.bits = []) : (c.acceptByte v).bits = [] := by
  unfold Chip.acceptByte
  split <;> simp [h, acceptCommand_bits, storeByte_bits]

/-- A byte sent never makes the chip pull DIO. -/
theorem acceptByte_out (c : Chip) (v : Byte) : (c.acceptByte v).out = c.out := by
  unfold Chip.acceptByte
  split <;> simp [acceptCommand_out, storeByte_out]

/-! ## Eight edges -/

/-- Latching the bits of a byte, bit 0 first, accepts that byte (R68). -/
theorem latch_byteBits (c : Chip) (v : Byte) (hb : c.bits = []) :
    (byteBits v).foldl (fun d b => d.clockFall false b) c = c.acceptByte v := by
  obtain ⟨dram, epoch, dispEn, pw, mode, ainc, ptr, keys, hazard, phase, bits, out, keypad, draws⟩ := c
  simp only at hb
  subst hb
  have hp := packBits_byteBits v
  rw [byteBits] at hp
  cases phase <;>
    simp only [byteBits, List.foldl, Chip.clockFall, Chip.latchBit, Chip.acceptByte, List.length_nil,
      List.nil_append, List.cons_append, List.length_cons, Bool.false_eq_true, if_false, if_true,
      Nat.reduceAdd, Nat.reduceEqDiff, hp] 

/-! ## Invariants of the chip -/

/-- A property of the chip that no edge and no draw on the wire ends. -/
structure ChipClosed (P : Chip → Prop) : Prop where
  strobeFall : ∀ c, P c → P c.strobeFall
  strobeRise : ∀ c, P c → P c.strobeRise
  clockFall : ∀ c r l, P c → P (c.clockFall r l)
  draw : ∀ c : Chip, P c → P { c with draws := c.draws + 1 }
  abandoned : ∀ c, P c → P c.abandoned

/-- It is enough that the receiver's own fields, a havoc and a whole byte keep the property. -/
theorem ChipClosed.of_byte {P : Chip → Prop}
    (keep : ∀ (c : Chip) (ph : Phase) (bs : List Bool) (o : Bool) (n : Nat), P c →
      P { c with phase := ph, bits := bs, out := o, draws := n })
    (havoc : ∀ c : Chip, P c → P c.havocAll)
    (byte : ∀ (c : Chip) v, P c → P (c.acceptByte v)) : ChipClosed P where
  strobeFall c h := keep c _ _ _ _ h
  strobeRise c h := by
    unfold Chip.strobeRise
    split
    · exact keep _ _ _ _ _ (havoc c h)
    · exact keep c _ _ _ _ h
  clockFall c r l h := by
    unfold Chip.clockFall
    split
    · exact h
    · split
      · unfold Chip.presentBit
        split
        · exact keep c _ _ _ _ h
        · exact keep _ _ _ _ _ (havoc c h)
      · unfold Chip.latchBit
        split
        · exact h
        · split
          · exact byte _ _ (keep c _ _ _ _ h)
          · exact keep c _ _ _ _ h
  draw c h := keep c _ _ _ _ h
  abandoned c h := keep _ _ _ _ _ (havoc c h)

/-- The display memory keeps its canonical form. -/
theorem memWf_closed : ChipClosed (fun c => memWf c.dram = true) := by
  refine ChipClosed.of_byte (fun _ _ _ _ _ h => h) (fun _ _ => rfl) (fun c v h => ?_)
  unfold Chip.acceptByte
  split
  · exact h
  · unfold Chip.acceptCommand
    split
    · exact h
    · exact h
    · unfold Chip.dataRead; split <;> exact h
    · exact h
    · rfl
  · rfl
  · unfold Chip.storeByte
    split
    · split
      · exact memWf_memWrite _ (BitVec.isLt _) h
      · rfl
    · rfl
  · rfl
  · exact h

/-- HAZARD is never cleared (R79). -/
theorem hazard_closed : ChipClosed (fun c => c.hazard = true) := by
  refine ChipClosed.of_byte (fun _ _ _ _ _ h => h) (fun _ _ => rfl) (fun c v h => ?_)
  unfold Chip.acceptByte
  split
  · exact h
  · unfold Chip.acceptCommand
    split
    · exact h
    · exact h
    · unfold Chip.dataRead; split <;> exact h
    · exact h
    · rfl
  · rfl
  · unfold Chip.storeByte
    split
    · split
      · exact h
      · rfl
    · rfl
  · rfl
  · exact h

end Sys2Proof.Machine
end

