-- ==== Sys2Proof/Laws/Decode.lean ====
section
/-! SUPPORT. What the pieces of an encoding do, said once: the header's fields, the operand blocks, the count
byte, and the classes of the command bytes. -/

namespace Sys2Proof

/-- The fields of a header byte are those it was made from (R108). -/
theorem headerByte_fields (op arg : BitVec 4) :
    opField (headerByte op arg) = op ∧ argField (headerByte op arg) = arg := by
  revert op arg
  decide +kernel

/-- A header byte is made of its fields (R108). -/
theorem headerByte_of_fields (h : Byte) : headerByte (opField h) (argField h) = h := by
  revert h
  decide +kernel

theorem octetOf_toList (d : Octet) : octetOf d.toList = d := by
  ext i hi
  simp [octetOf]

theorem quadOf_toList (q : Quad) : quadOf q.toList = q := by
  ext i hi
  simp [quadOf]

theorem toList_octetOf {bs : List Byte} (h : bs.length = 8) : (octetOf bs).toList = bs := by
  apply List.ext_getElem
  · simp [h]
  · intro i h1 h2
    simp [octetOf, h2]

theorem toList_quadOf {bs : List Byte} (h : bs.length = 4) : (quadOf bs).toList = bs := by
  apply List.ext_getElem
  · simp [h]
  · intro i h1 h2
    simp [quadOf, h2]

/-- A count byte holds the length it was made from (R110). -/
theorem countByte_toNat {n : Nat} (h : n ≤ 255) : (BitVec.ofNat 8 n).toNat = n := by
  simp only [BitVec.toNat_ofNat]
  omega

/-- Each byte the block sends as a command is classified with the fields it was built from (R104, R106). -/
theorem classify_displayControlByte (en : Bool) (pw : BitVec 3) :
    classify (displayControlByte en pw) = some (.displayControl en pw) := by
  revert en pw
  decide

theorem classify_dataWriteByte (auto : Bool) : classify (dataWriteByte auto) = some (.dataWrite (!auto)) := by
  revert auto
  decide

theorem classify_dataReadByte : classify dataReadByte = some (.dataRead false) := by decide

theorem classify_setAddressByte (addr : Byte) :
    classify (setAddressByte addr) = some (.setAddress (addr.extractLsb' 0 4)) := by
  revert addr
  decide +kernel

end Sys2Proof
end

