-- ==== Sys2Proof/Laws/State.lean ====
section
/-! SUPPORT. What each named update of the state does to each field: true by unfolding, for simp. -/

namespace Sys2Proof.Machine

variable (s : State)

/-! ## acceptOperation: acceptOperation (R24, R25) -/

@[simp] theorem acceptOperation_stb : (acceptOperation s).stb = s.stb := rfl
@[simp] theorem acceptOperation_clk : (acceptOperation s).clk = s.clk := rfl
@[simp] theorem acceptOperation_dio : (acceptOperation s).dio = s.dio := rfl
@[simp] theorem acceptOperation_pc : (acceptOperation s).pc = 0 := rfl
@[simp] theorem acceptOperation_busy : (acceptOperation s).busy = true := rfl
@[simp] theorem acceptOperation_cause : (acceptOperation s).cause = s.cause := rfl
@[simp] theorem acceptOperation_errIndex : (acceptOperation s).errIndex = s.errIndex := rfl
@[simp] theorem acceptOperation_errChar : (acceptOperation s).errChar = s.errChar := rfl
@[simp] theorem acceptOperation_scanbuf : (acceptOperation s).scanbuf = s.scanbuf := rfl
@[simp] theorem acceptOperation_frame : (acceptOperation s).frame = s.frame := rfl
@[simp] theorem acceptOperation_digits : (acceptOperation s).digits = s.digits := rfl
@[simp] theorem acceptOperation_btn : (acceptOperation s).btn = s.btn := rfl
@[simp] theorem acceptOperation_build : (acceptOperation s).build = s.build := rfl
@[simp] theorem acceptOperation_prev : (acceptOperation s).prev = s.prev := rfl
@[simp] theorem acceptOperation_log : (acceptOperation s).log = [] := rfl
@[simp] theorem acceptOperation_response : (acceptOperation s).response = [] := rfl
@[simp] theorem acceptOperation_params : (acceptOperation s).params = s.params := rfl
@[simp] theorem acceptOperation_chip : (acceptOperation s).chip = s.chip := rfl
@[simp] theorem acceptOperation_bus : (acceptOperation s).bus = s.bus := rfl
@[simp] theorem acceptOperation_hostIn : (acceptOperation s).hostIn = s.hostIn := rfl
@[simp] theorem acceptOperation_resetAt : (acceptOperation s).resetAt = s.resetAt := rfl
@[simp] theorem acceptOperation_rawIn : (acceptOperation s).rawIn = s.rawIn := rfl
@[simp] theorem acceptOperation_rawOut : (acceptOperation s).rawOut = s.rawOut := rfl

/-! ## endOperation: endOperation (R263) -/

@[simp] theorem endOperation_stb : (endOperation s).stb = s.stb := rfl
@[simp] theorem endOperation_clk : (endOperation s).clk = s.clk := rfl
@[simp] theorem endOperation_dio : (endOperation s).dio = s.dio := rfl
@[simp] theorem endOperation_pc : (endOperation s).pc = 0 := rfl
@[simp] theorem endOperation_busy : (endOperation s).busy = false := rfl
@[simp] theorem endOperation_cause : (endOperation s).cause = s.cause := rfl
@[simp] theorem endOperation_errIndex : (endOperation s).errIndex = s.errIndex := rfl
@[simp] theorem endOperation_errChar : (endOperation s).errChar = s.errChar := rfl
@[simp] theorem endOperation_scanbuf : (endOperation s).scanbuf = s.scanbuf := rfl
@[simp] theorem endOperation_frame : (endOperation s).frame = s.frame := rfl
@[simp] theorem endOperation_digits : (endOperation s).digits = s.digits := rfl
@[simp] theorem endOperation_btn : (endOperation s).btn = s.btn := rfl
@[simp] theorem endOperation_build : (endOperation s).build = s.build := rfl
@[simp] theorem endOperation_prev : (endOperation s).prev = s.prev := rfl
@[simp] theorem endOperation_log : (endOperation s).log = s.log := rfl
@[simp] theorem endOperation_response : (endOperation s).response = s.response := rfl
@[simp] theorem endOperation_params : (endOperation s).params = s.params := rfl
@[simp] theorem endOperation_chip : (endOperation s).chip = s.chip := rfl
@[simp] theorem endOperation_bus : (endOperation s).bus = s.bus := rfl
@[simp] theorem endOperation_hostIn : (endOperation s).hostIn = s.hostIn := rfl
@[simp] theorem endOperation_resetAt : (endOperation s).resetAt = s.resetAt := rfl
@[simp] theorem endOperation_rawIn : (endOperation s).rawIn = s.rawIn := rfl
@[simp] theorem endOperation_rawOut : (endOperation s).rawOut = s.rawOut := rfl

/-! ## finishOk: finishOk (R263) -/

@[simp] theorem finishOk_stb (p : List Byte) : (finishOk p s).stb = s.stb := rfl
@[simp] theorem finishOk_clk (p : List Byte) : (finishOk p s).clk = s.clk := rfl
@[simp] theorem finishOk_dio (p : List Byte) : (finishOk p s).dio = s.dio := rfl
@[simp] theorem finishOk_pc (p : List Byte) : (finishOk p s).pc = 0 := rfl
@[simp] theorem finishOk_busy (p : List Byte) : (finishOk p s).busy = false := rfl
@[simp] theorem finishOk_cause (p : List Byte) : (finishOk p s).cause = causeOk := rfl
@[simp] theorem finishOk_errIndex (p : List Byte) : (finishOk p s).errIndex = s.errIndex := rfl
@[simp] theorem finishOk_errChar (p : List Byte) : (finishOk p s).errChar = s.errChar := rfl
@[simp] theorem finishOk_scanbuf (p : List Byte) : (finishOk p s).scanbuf = s.scanbuf := rfl
@[simp] theorem finishOk_frame (p : List Byte) : (finishOk p s).frame = s.frame := rfl
@[simp] theorem finishOk_digits (p : List Byte) : (finishOk p s).digits = s.digits := rfl
@[simp] theorem finishOk_btn (p : List Byte) : (finishOk p s).btn = s.btn := rfl
@[simp] theorem finishOk_build (p : List Byte) : (finishOk p s).build = s.build := rfl
@[simp] theorem finishOk_prev (p : List Byte) : (finishOk p s).prev = s.prev := rfl
@[simp] theorem finishOk_log (p : List Byte) : (finishOk p s).log = s.log := rfl
@[simp] theorem finishOk_response (p : List Byte) : (finishOk p s).response = causeByte causeOk :: p := rfl
@[simp] theorem finishOk_params (p : List Byte) : (finishOk p s).params = s.params := rfl
@[simp] theorem finishOk_chip (p : List Byte) : (finishOk p s).chip = s.chip := rfl
@[simp] theorem finishOk_bus (p : List Byte) : (finishOk p s).bus = s.bus := rfl
@[simp] theorem finishOk_hostIn (p : List Byte) : (finishOk p s).hostIn = s.hostIn := rfl
@[simp] theorem finishOk_resetAt (p : List Byte) : (finishOk p s).resetAt = s.resetAt := rfl
@[simp] theorem finishOk_rawIn (p : List Byte) : (finishOk p s).rawIn = s.rawIn := rfl
@[simp] theorem finishOk_rawOut (p : List Byte) : (finishOk p s).rawOut = s.rawOut := rfl

/-! ## raiseError: raiseError_unknownCharacter (R263, R264) -/

@[simp] theorem raiseError_unknownCharacter_stb (j ch : Byte) : (raiseError (.unknownCharacter j ch) s).stb = s.stb := rfl
@[simp] theorem raiseError_unknownCharacter_clk (j ch : Byte) : (raiseError (.unknownCharacter j ch) s).clk = s.clk := rfl
@[simp] theorem raiseError_unknownCharacter_dio (j ch : Byte) : (raiseError (.unknownCharacter j ch) s).dio = s.dio := rfl
@[simp] theorem raiseError_unknownCharacter_pc (j ch : Byte) : (raiseError (.unknownCharacter j ch) s).pc = 0 := rfl
@[simp] theorem raiseError_unknownCharacter_busy (j ch : Byte) : (raiseError (.unknownCharacter j ch) s).busy = false := rfl
@[simp] theorem raiseError_unknownCharacter_cause (j ch : Byte) : (raiseError (.unknownCharacter j ch) s).cause = causeUnknownCharacter := rfl
@[simp] theorem raiseError_unknownCharacter_errIndex (j ch : Byte) : (raiseError (.unknownCharacter j ch) s).errIndex = j := rfl
@[simp] theorem raiseError_unknownCharacter_errChar (j ch : Byte) : (raiseError (.unknownCharacter j ch) s).errChar = ch := rfl
@[simp] theorem raiseError_unknownCharacter_scanbuf (j ch : Byte) : (raiseError (.unknownCharacter j ch) s).scanbuf = s.scanbuf := rfl
@[simp] theorem raiseError_unknownCharacter_frame (j ch : Byte) : (raiseError (.unknownCharacter j ch) s).frame = s.frame := rfl
@[simp] theorem raiseError_unknownCharacter_digits (j ch : Byte) : (raiseError (.unknownCharacter j ch) s).digits = s.digits := rfl
@[simp] theorem raiseError_unknownCharacter_btn (j ch : Byte) : (raiseError (.unknownCharacter j ch) s).btn = s.btn := rfl
@[simp] theorem raiseError_unknownCharacter_build (j ch : Byte) : (raiseError (.unknownCharacter j ch) s).build = s.build := rfl
@[simp] theorem raiseError_unknownCharacter_prev (j ch : Byte) : (raiseError (.unknownCharacter j ch) s).prev = s.prev := rfl
@[simp] theorem raiseError_unknownCharacter_log (j ch : Byte) : (raiseError (.unknownCharacter j ch) s).log = s.log := rfl
@[simp] theorem raiseError_unknownCharacter_response (j ch : Byte) : (raiseError (.unknownCharacter j ch) s).response = [causeByte causeUnknownCharacter, j, ch] := rfl
@[simp] theorem raiseError_unknownCharacter_params (j ch : Byte) : (raiseError (.unknownCharacter j ch) s).params = s.params := rfl
@[simp] theorem raiseError_unknownCharacter_chip (j ch : Byte) : (raiseError (.unknownCharacter j ch) s).chip = s.chip := rfl
@[simp] theorem raiseError_unknownCharacter_bus (j ch : Byte) : (raiseError (.unknownCharacter j ch) s).bus = s.bus := rfl
@[simp] theorem raiseError_unknownCharacter_hostIn (j ch : Byte) : (raiseError (.unknownCharacter j ch) s).hostIn = s.hostIn := rfl
@[simp] theorem raiseError_unknownCharacter_resetAt (j ch : Byte) : (raiseError (.unknownCharacter j ch) s).resetAt = s.resetAt := rfl
@[simp] theorem raiseError_unknownCharacter_rawIn (j ch : Byte) : (raiseError (.unknownCharacter j ch) s).rawIn = s.rawIn := rfl
@[simp] theorem raiseError_unknownCharacter_rawOut (j ch : Byte) : (raiseError (.unknownCharacter j ch) s).rawOut = s.rawOut := rfl

/-! ## raiseError: raiseError_illegalOperation (R262, R263) -/

@[simp] theorem raiseError_illegalOperation_stb : (raiseError .illegalOperation s).stb = s.stb := rfl
@[simp] theorem raiseError_illegalOperation_clk : (raiseError .illegalOperation s).clk = s.clk := rfl
@[simp] theorem raiseError_illegalOperation_dio : (raiseError .illegalOperation s).dio = s.dio := rfl
@[simp] theorem raiseError_illegalOperation_pc : (raiseError .illegalOperation s).pc = 0 := rfl
@[simp] theorem raiseError_illegalOperation_busy : (raiseError .illegalOperation s).busy = false := rfl
@[simp] theorem raiseError_illegalOperation_cause : (raiseError .illegalOperation s).cause = causeIllegalOperation := rfl
@[simp] theorem raiseError_illegalOperation_errIndex : (raiseError .illegalOperation s).errIndex = s.errIndex := rfl
@[simp] theorem raiseError_illegalOperation_errChar : (raiseError .illegalOperation s).errChar = s.errChar := rfl
@[simp] theorem raiseError_illegalOperation_scanbuf : (raiseError .illegalOperation s).scanbuf = s.scanbuf := rfl
@[simp] theorem raiseError_illegalOperation_frame : (raiseError .illegalOperation s).frame = s.frame := rfl
@[simp] theorem raiseError_illegalOperation_digits : (raiseError .illegalOperation s).digits = s.digits := rfl
@[simp] theorem raiseError_illegalOperation_btn : (raiseError .illegalOperation s).btn = s.btn := rfl
@[simp] theorem raiseError_illegalOperation_build : (raiseError .illegalOperation s).build = s.build := rfl
@[simp] theorem raiseError_illegalOperation_prev : (raiseError .illegalOperation s).prev = s.prev := rfl
@[simp] theorem raiseError_illegalOperation_log : (raiseError .illegalOperation s).log = s.log := rfl
@[simp] theorem raiseError_illegalOperation_response : (raiseError .illegalOperation s).response = [causeByte causeIllegalOperation] := rfl
@[simp] theorem raiseError_illegalOperation_params : (raiseError .illegalOperation s).params = s.params := rfl
@[simp] theorem raiseError_illegalOperation_chip : (raiseError .illegalOperation s).chip = s.chip := rfl
@[simp] theorem raiseError_illegalOperation_bus : (raiseError .illegalOperation s).bus = s.bus := rfl
@[simp] theorem raiseError_illegalOperation_hostIn : (raiseError .illegalOperation s).hostIn = s.hostIn := rfl
@[simp] theorem raiseError_illegalOperation_resetAt : (raiseError .illegalOperation s).resetAt = s.resetAt := rfl
@[simp] theorem raiseError_illegalOperation_rawIn : (raiseError .illegalOperation s).rawIn = s.rawIn := rfl
@[simp] theorem raiseError_illegalOperation_rawOut : (raiseError .illegalOperation s).rawOut = s.rawOut := rfl

/-! ## loadDigits: loadDigits (R30) -/

@[simp] theorem loadDigits_stb (d : Octet) : (loadDigits d s).stb = s.stb := rfl
@[simp] theorem loadDigits_clk (d : Octet) : (loadDigits d s).clk = s.clk := rfl
@[simp] theorem loadDigits_dio (d : Octet) : (loadDigits d s).dio = s.dio := rfl
@[simp] theorem loadDigits_pc (d : Octet) : (loadDigits d s).pc = s.pc := rfl
@[simp] theorem loadDigits_busy (d : Octet) : (loadDigits d s).busy = s.busy := rfl
@[simp] theorem loadDigits_cause (d : Octet) : (loadDigits d s).cause = s.cause := rfl
@[simp] theorem loadDigits_errIndex (d : Octet) : (loadDigits d s).errIndex = s.errIndex := rfl
@[simp] theorem loadDigits_errChar (d : Octet) : (loadDigits d s).errChar = s.errChar := rfl
@[simp] theorem loadDigits_scanbuf (d : Octet) : (loadDigits d s).scanbuf = s.scanbuf := rfl
@[simp] theorem loadDigits_frame (d : Octet) : (loadDigits d s).frame = s.frame := rfl
@[simp] theorem loadDigits_digits (d : Octet) : (loadDigits d s).digits = d := rfl
@[simp] theorem loadDigits_btn (d : Octet) : (loadDigits d s).btn = s.btn := rfl
@[simp] theorem loadDigits_build (d : Octet) : (loadDigits d s).build = s.build := rfl
@[simp] theorem loadDigits_prev (d : Octet) : (loadDigits d s).prev = s.prev := rfl
@[simp] theorem loadDigits_log (d : Octet) : (loadDigits d s).log = s.log := rfl
@[simp] theorem loadDigits_response (d : Octet) : (loadDigits d s).response = s.response := rfl
@[simp] theorem loadDigits_params (d : Octet) : (loadDigits d s).params = s.params := rfl
@[simp] theorem loadDigits_chip (d : Octet) : (loadDigits d s).chip = s.chip := rfl
@[simp] theorem loadDigits_bus (d : Octet) : (loadDigits d s).bus = s.bus := rfl
@[simp] theorem loadDigits_hostIn (d : Octet) : (loadDigits d s).hostIn = s.hostIn := rfl
@[simp] theorem loadDigits_resetAt (d : Octet) : (loadDigits d s).resetAt = s.resetAt := rfl
@[simp] theorem loadDigits_rawIn (d : Octet) : (loadDigits d s).rawIn = s.rawIn := rfl
@[simp] theorem loadDigits_rawOut (d : Octet) : (loadDigits d s).rawOut = s.rawOut := rfl

/-! ## scrambleBody: scrambleBody (R191) -/

@[simp] theorem scrambleBody_stb : (scrambleBody s).stb = s.stb := rfl
@[simp] theorem scrambleBody_clk : (scrambleBody s).clk = s.clk := rfl
@[simp] theorem scrambleBody_dio : (scrambleBody s).dio = s.dio := rfl
@[simp] theorem scrambleBody_pc : (scrambleBody s).pc = s.pc := rfl
@[simp] theorem scrambleBody_busy : (scrambleBody s).busy = s.busy := rfl
@[simp] theorem scrambleBody_cause : (scrambleBody s).cause = s.cause := rfl
@[simp] theorem scrambleBody_errIndex : (scrambleBody s).errIndex = s.errIndex := rfl
@[simp] theorem scrambleBody_errChar : (scrambleBody s).errChar = s.errChar := rfl
@[simp] theorem scrambleBody_scanbuf : (scrambleBody s).scanbuf = s.scanbuf := rfl
@[simp] theorem scrambleBody_frame : (scrambleBody s).frame = scrambleDigits s.digits := rfl
@[simp] theorem scrambleBody_digits : (scrambleBody s).digits = s.digits := rfl
@[simp] theorem scrambleBody_btn : (scrambleBody s).btn = s.btn := rfl
@[simp] theorem scrambleBody_build : (scrambleBody s).build = s.build := rfl
@[simp] theorem scrambleBody_prev : (scrambleBody s).prev = s.prev := rfl
@[simp] theorem scrambleBody_log : (scrambleBody s).log = s.log := rfl
@[simp] theorem scrambleBody_response : (scrambleBody s).response = s.response := rfl
@[simp] theorem scrambleBody_params : (scrambleBody s).params = s.params := rfl
@[simp] theorem scrambleBody_chip : (scrambleBody s).chip = s.chip := rfl
@[simp] theorem scrambleBody_bus : (scrambleBody s).bus = s.bus := rfl
@[simp] theorem scrambleBody_hostIn : (scrambleBody s).hostIn = s.hostIn := rfl
@[simp] theorem scrambleBody_resetAt : (scrambleBody s).resetAt = s.resetAt := rfl
@[simp] theorem scrambleBody_rawIn : (scrambleBody s).rawIn = s.rawIn := rfl
@[simp] theorem scrambleBody_rawOut : (scrambleBody s).rawOut = s.rawOut := rfl

/-! ## storeBuild: storeBuild (R32) -/

@[simp] theorem storeBuild_stb (b : List Byte) (p : Option Nat) : (storeBuild b p s).stb = s.stb := rfl
@[simp] theorem storeBuild_clk (b : List Byte) (p : Option Nat) : (storeBuild b p s).clk = s.clk := rfl
@[simp] theorem storeBuild_dio (b : List Byte) (p : Option Nat) : (storeBuild b p s).dio = s.dio := rfl
@[simp] theorem storeBuild_pc (b : List Byte) (p : Option Nat) : (storeBuild b p s).pc = s.pc := rfl
@[simp] theorem storeBuild_busy (b : List Byte) (p : Option Nat) : (storeBuild b p s).busy = s.busy := rfl
@[simp] theorem storeBuild_cause (b : List Byte) (p : Option Nat) : (storeBuild b p s).cause = s.cause := rfl
@[simp] theorem storeBuild_errIndex (b : List Byte) (p : Option Nat) : (storeBuild b p s).errIndex = s.errIndex := rfl
@[simp] theorem storeBuild_errChar (b : List Byte) (p : Option Nat) : (storeBuild b p s).errChar = s.errChar := rfl
@[simp] theorem storeBuild_scanbuf (b : List Byte) (p : Option Nat) : (storeBuild b p s).scanbuf = s.scanbuf := rfl
@[simp] theorem storeBuild_frame (b : List Byte) (p : Option Nat) : (storeBuild b p s).frame = s.frame := rfl
@[simp] theorem storeBuild_digits (b : List Byte) (p : Option Nat) : (storeBuild b p s).digits = s.digits := rfl
@[simp] theorem storeBuild_btn (b : List Byte) (p : Option Nat) : (storeBuild b p s).btn = s.btn := rfl
@[simp] theorem storeBuild_build (b : List Byte) (p : Option Nat) : (storeBuild b p s).build = b := rfl
@[simp] theorem storeBuild_prev (b : List Byte) (p : Option Nat) : (storeBuild b p s).prev = p := rfl
@[simp] theorem storeBuild_log (b : List Byte) (p : Option Nat) : (storeBuild b p s).log = s.log := rfl
@[simp] theorem storeBuild_response (b : List Byte) (p : Option Nat) : (storeBuild b p s).response = s.response := rfl
@[simp] theorem storeBuild_params (b : List Byte) (p : Option Nat) : (storeBuild b p s).params = s.params := rfl
@[simp] theorem storeBuild_chip (b : List Byte) (p : Option Nat) : (storeBuild b p s).chip = s.chip := rfl
@[simp] theorem storeBuild_bus (b : List Byte) (p : Option Nat) : (storeBuild b p s).bus = s.bus := rfl
@[simp] theorem storeBuild_hostIn (b : List Byte) (p : Option Nat) : (storeBuild b p s).hostIn = s.hostIn := rfl
@[simp] theorem storeBuild_resetAt (b : List Byte) (p : Option Nat) : (storeBuild b p s).resetAt = s.resetAt := rfl
@[simp] theorem storeBuild_rawIn (b : List Byte) (p : Option Nat) : (storeBuild b p s).rawIn = s.rawIn := rfl
@[simp] theorem storeBuild_rawOut (b : List Byte) (p : Option Nat) : (storeBuild b p s).rawOut = s.rawOut := rfl

/-! ## decodeScanBody: decodeScanBody (R240) -/

@[simp] theorem decodeScanBody_stb (q : Quad) : (decodeScanBody q s).stb = s.stb := rfl
@[simp] theorem decodeScanBody_clk (q : Quad) : (decodeScanBody q s).clk = s.clk := rfl
@[simp] theorem decodeScanBody_dio (q : Quad) : (decodeScanBody q s).dio = s.dio := rfl
@[simp] theorem decodeScanBody_pc (q : Quad) : (decodeScanBody q s).pc = s.pc := rfl
@[simp] theorem decodeScanBody_busy (q : Quad) : (decodeScanBody q s).busy = s.busy := rfl
@[simp] theorem decodeScanBody_cause (q : Quad) : (decodeScanBody q s).cause = s.cause := rfl
@[simp] theorem decodeScanBody_errIndex (q : Quad) : (decodeScanBody q s).errIndex = s.errIndex := rfl
@[simp] theorem decodeScanBody_errChar (q : Quad) : (decodeScanBody q s).errChar = s.errChar := rfl
@[simp] theorem decodeScanBody_scanbuf (q : Quad) : (decodeScanBody q s).scanbuf = s.scanbuf := rfl
@[simp] theorem decodeScanBody_frame (q : Quad) : (decodeScanBody q s).frame = s.frame := rfl
@[simp] theorem decodeScanBody_digits (q : Quad) : (decodeScanBody q s).digits = s.digits := rfl
@[simp] theorem decodeScanBody_btn (q : Quad) : (decodeScanBody q s).btn = decodeScanBytes q := rfl
@[simp] theorem decodeScanBody_build (q : Quad) : (decodeScanBody q s).build = s.build := rfl
@[simp] theorem decodeScanBody_prev (q : Quad) : (decodeScanBody q s).prev = s.prev := rfl
@[simp] theorem decodeScanBody_log (q : Quad) : (decodeScanBody q s).log = s.log := rfl
@[simp] theorem decodeScanBody_response (q : Quad) : (decodeScanBody q s).response = s.response := rfl
@[simp] theorem decodeScanBody_params (q : Quad) : (decodeScanBody q s).params = s.params := rfl
@[simp] theorem decodeScanBody_chip (q : Quad) : (decodeScanBody q s).chip = s.chip := rfl
@[simp] theorem decodeScanBody_bus (q : Quad) : (decodeScanBody q s).bus = s.bus := rfl
@[simp] theorem decodeScanBody_hostIn (q : Quad) : (decodeScanBody q s).hostIn = s.hostIn := rfl
@[simp] theorem decodeScanBody_resetAt (q : Quad) : (decodeScanBody q s).resetAt = s.resetAt := rfl
@[simp] theorem decodeScanBody_rawIn (q : Quad) : (decodeScanBody q s).rawIn = s.rawIn := rfl
@[simp] theorem decodeScanBody_rawOut (q : Quad) : (decodeScanBody q s).rawOut = s.rawOut := rfl

end Sys2Proof.Machine
end

