-- ==== Sys2Proof/Laws/Transport.lean ====
section
/-! SUPPORT. What the wire events and the micro-operations do, said once: which fields they touch, the trace they
emit, the lines they leave, and what the chip makes of them. -/

namespace Sys2Proof.Machine

/-! ## The fields an event may touch -/

/-- Two states agree on everything but the lines, the sequencer, the trace and the chip. -/
def WireOnly (s t : State) : Prop :=
  t = { s with stb := t.stb, clk := t.clk, dio := t.dio, pc := t.pc, log := t.log, chip := t.chip }

theorem WireOnly.refl (s : State) : WireOnly s s := rfl

theorem WireOnly.trans {s t u : State} (h : WireOnly s t) (k : WireOnly t u) : WireOnly s u := by
  unfold WireOnly at *
  rw [k, h]

theorem WireOnly.bus {s t : State} (h : WireOnly s t) : t.bus = s.bus := by rw [h]
theorem WireOnly.busy {s t : State} (h : WireOnly s t) : t.busy = s.busy := by rw [h]
theorem WireOnly.cause {s t : State} (h : WireOnly s t) : t.cause = s.cause := by rw [h]
theorem WireOnly.errIndex {s t : State} (h : WireOnly s t) : t.errIndex = s.errIndex := by rw [h]
theorem WireOnly.errChar {s t : State} (h : WireOnly s t) : t.errChar = s.errChar := by rw [h]
theorem WireOnly.scanbuf {s t : State} (h : WireOnly s t) : t.scanbuf = s.scanbuf := by rw [h]
theorem WireOnly.frame {s t : State} (h : WireOnly s t) : t.frame = s.frame := by rw [h]
theorem WireOnly.digits {s t : State} (h : WireOnly s t) : t.digits = s.digits := by rw [h]
theorem WireOnly.btn {s t : State} (h : WireOnly s t) : t.btn = s.btn := by rw [h]
theorem WireOnly.build {s t : State} (h : WireOnly s t) : t.build = s.build := by rw [h]
theorem WireOnly.prev {s t : State} (h : WireOnly s t) : t.prev = s.prev := by rw [h]
theorem WireOnly.response {s t : State} (h : WireOnly s t) : t.response = s.response := by rw [h]
theorem WireOnly.params {s t : State} (h : WireOnly s t) : t.params = s.params := by rw [h]
theorem WireOnly.hostIn {s t : State} (h : WireOnly s t) : t.hostIn = s.hostIn := by rw [h]
theorem WireOnly.resetAt {s t : State} (h : WireOnly s t) : t.resetAt = s.resetAt := by rw [h]
theorem WireOnly.rawIn {s t : State} (h : WireOnly s t) : t.rawIn = s.rawIn := by rw [h]
theorem WireOnly.rawOut {s t : State} (h : WireOnly s t) : t.rawOut = s.rawOut := by rw [h]

theorem onChip_wireOnly (s : State) (f : Chip → Chip) : WireOnly s (s.onChip f) := by
  unfold State.onChip
  split <;> rfl

theorem onChip_attached {s : State} (f : Chip → Chip) (h : s.bus = .attached) :
    s.onChip f = { s with chip := f s.chip } := by
  simp [State.onChip, h]

theorem onChip_detached {s : State} (f : Chip → Chip) (h : s.bus ≠ .attached) : s.onChip f = s := by
  unfold State.onChip
  split
  · contradiction
  · rfl

@[simp] theorem onChip_stb (s : State) (f : Chip → Chip) : (s.onChip f).stb = s.stb := by
  unfold State.onChip; split <;> rfl
@[simp] theorem onChip_clk (s : State) (f : Chip → Chip) : (s.onChip f).clk = s.clk := by
  unfold State.onChip; split <;> rfl
@[simp] theorem onChip_dio (s : State) (f : Chip → Chip) : (s.onChip f).dio = s.dio := by
  unfold State.onChip; split <;> rfl
@[simp] theorem onChip_pc (s : State) (f : Chip → Chip) : (s.onChip f).pc = s.pc := by
  unfold State.onChip; split <;> rfl
@[simp] theorem onChip_log (s : State) (f : Chip → Chip) : (s.onChip f).log = s.log := by
  unfold State.onChip; split <;> rfl

/-- An edge of STB touches STB and the chip only. -/
theorem driveStbLine_wireOnly (v : Bool) (s : State) : WireOnly s (driveStbLine v s) := by
  unfold driveStbLine
  split
  · exact WireOnly.trans (t := { s with stb := _ }) rfl (onChip_wireOnly _ _)
  · exact WireOnly.trans (t := { s with stb := _ }) rfl (onChip_wireOnly _ _)
  · rfl

theorem driveClkLine_wireOnly (v : Bool) (s : State) : WireOnly s (driveClkLine v s) := by
  unfold driveClkLine
  split
  · exact WireOnly.trans (t := { s with clk := _ }) rfl (onChip_wireOnly _ _)
  · rfl

@[simp] theorem driveStbLine_stb (v : Bool) (s : State) : (driveStbLine v s).stb = v := by
  unfold driveStbLine; split <;> simp
@[simp] theorem driveStbLine_clk (v : Bool) (s : State) : (driveStbLine v s).clk = s.clk := by
  unfold driveStbLine; split <;> simp
@[simp] theorem driveStbLine_dio (v : Bool) (s : State) : (driveStbLine v s).dio = s.dio := by
  unfold driveStbLine; split <;> simp
@[simp] theorem driveStbLine_pc (v : Bool) (s : State) : (driveStbLine v s).pc = s.pc := by
  unfold driveStbLine; split <;> simp
@[simp] theorem driveStbLine_log (v : Bool) (s : State) : (driveStbLine v s).log = s.log := by
  unfold driveStbLine; split <;> simp
@[simp] theorem driveClkLine_clk (v : Bool) (s : State) : (driveClkLine v s).clk = v := by
  unfold driveClkLine; split <;> simp
@[simp] theorem driveClkLine_stb (v : Bool) (s : State) : (driveClkLine v s).stb = s.stb := by
  unfold driveClkLine; split <;> simp
@[simp] theorem driveClkLine_dio (v : Bool) (s : State) : (driveClkLine v s).dio = s.dio := by
  unfold driveClkLine; split <;> simp
@[simp] theorem driveClkLine_pc (v : Bool) (s : State) : (driveClkLine v s).pc = s.pc := by
  unfold driveClkLine; split <;> simp
@[simp] theorem driveClkLine_log (v : Bool) (s : State) : (driveClkLine v s).log = s.log := by
  unfold driveClkLine; split <;> simp

@[simp] theorem countSample_stb (s : State) : (countSample s).stb = s.stb := by
  unfold countSample; split <;> rfl
@[simp] theorem countSample_clk (s : State) : (countSample s).clk = s.clk := by
  unfold countSample; split <;> rfl
@[simp] theorem countSample_dio (s : State) : (countSample s).dio = s.dio := by
  unfold countSample; split <;> rfl
@[simp] theorem countSample_pc (s : State) : (countSample s).pc = s.pc := by
  unfold countSample; split <;> rfl
@[simp] theorem countSample_log (s : State) : (countSample s).log = s.log := by
  unfold countSample; split <;> rfl

/-! ## One event -/

/-- An event touches only the lines, the sequencer, the trace and the chip. -/
theorem emit_wireOnly (e : Event) (s : State) : WireOnly s (emit e s) := by
  have h : WireOnly s { s with log := e :: s.log, pc := s.pc + 1 } := rfl
  refine h.trans ?_
  unfold emit applyEvent
  split
  · exact driveStbLine_wireOnly _ _
  · exact driveClkLine_wireOnly _ _
  · rfl
  · rfl
  · unfold countSample
    split <;> rfl
  · rfl

/-- Each event is appended to the trace. -/
@[simp] theorem emit_log (e : Event) (s : State) : (emit e s).log = e :: s.log := by
  unfold emit applyEvent
  split <;> simp

/-- Each event moves the sequencer by one (R24). -/
@[simp] theorem emit_pc (e : Event) (s : State) : (emit e s).pc = s.pc + 1 := by
  unfold emit applyEvent
  split <;> simp

/-- An event changes STB only if it drives STB. -/
theorem emit_stb (e : Event) (s : State) :
    (emit e s).stb = match e with | .driveStb v => v | _ => s.stb := by
  unfold emit applyEvent
  split <;> simp

/-- An event changes CLK only if it drives CLK. -/
theorem emit_clk (e : Event) (s : State) :
    (emit e s).clk = match e with | .driveClk v => v | _ => s.clk := by
  unfold emit applyEvent
  split <;> simp

/-- An event changes DIO_MODE only if it drives or releases DIO (R22). -/
theorem emit_dio (e : Event) (s : State) :
    (emit e s).dio =
      match e with
      | .driveDio v => if v then .drive1 else .drive0
      | .releaseDio => .released
      | _ => s.dio := by
  unfold emit applyEvent
  split <;> simp

/-- A chip property that no edge ends survives every event. -/
theorem emit_chip {P : Chip → Prop} (hP : ChipClosed P) (e : Event) (s : State) (h : P s.chip) :
    P (emit e s).chip := by
  have onChip : ∀ (t : State) (f : Chip → Chip), (∀ c, P c → P (f c)) → P t.chip → P (t.onChip f).chip := by
    intro t f hf ht
    unfold State.onChip
    split
    · exact hf _ ht
    · exact ht
  unfold emit applyEvent
  split
  · unfold driveStbLine
    split
    · exact onChip _ _ hP.strobeFall h
    · exact onChip _ _ hP.strobeRise h
    · exact h
  · unfold driveClkLine
    split
    · exact onChip _ _ (fun c => hP.clockFall c _ _) h
    · exact h
  · exact h
  · exact h
  · unfold countSample
    split
    · exact hP.draw _ h
    · exact h
  · exact h

/-! ## Event lists -/

@[simp] theorem emitAll_nil (s : State) : emitAll [] s = s := rfl

@[simp] theorem emitAll_cons (e : Event) (es : List Event) (s : State) :
    emitAll (e :: es) s = emitAll es (emit e s) := rfl

theorem emitAll_append (es fs : List Event) (s : State) :
    emitAll (es ++ fs) s = emitAll fs (emitAll es s) := by
  simp [emitAll]

theorem emitAll_wireOnly (es : List Event) (s : State) : WireOnly s (emitAll es s) := by
  induction es generalizing s with
  | nil => exact WireOnly.refl s
  | cons e es ih => exact (emit_wireOnly e s).trans (ih _)

theorem emitAll_log (es : List Event) (s : State) : (emitAll es s).log = es.reverse ++ s.log := by
  induction es generalizing s with
  | nil => rfl
  | cons e es ih => simp [ih]

theorem emitAll_pc (es : List Event) (s : State) : (emitAll es s).pc = s.pc + es.length := by
  induction es generalizing s with
  | nil => rfl
  | cons e es ih =>
    simp [ih]
    omega

theorem emitAll_chip {P : Chip → Prop} (hP : ChipClosed P) (es : List Event) (s : State) (h : P s.chip) :
    P (emitAll es s).chip := by
  induction es generalizing s with
  | nil => exact h
  | cons e es ih => exact ih _ (emit_chip hP e s h)

/-! ## The micro-operations are their traces -/

/-- SEND_BYTE emits its 48 events and does nothing else (R142). -/
theorem sendByte_emitAll (v : Byte) (s : State) : sendByte v s = emitAll (sendTrace v) s := by
  unfold sendByte sendTrace
  generalize byteBits v = bs
  induction bs generalizing s with
  | nil => rfl
  | cons b bs ih => rw [List.foldl_cons, ih, List.flatMap_cons, emitAll_append]; rfl

/-- Bytes sent in turn emit their traces in turn. -/
theorem sendBytes_emitAll (bs : List Byte) (s : State) :
    sendBytes bs s = emitAll (bs.flatMap sendTrace) s := by
  unfold sendBytes
  induction bs generalizing s with
  | nil => rfl
  | cons v bs ih => rw [List.foldl_cons, ih, List.flatMap_cons, emitAll_append, sendByte_emitAll]

/-- RECEIVE_BYTE emits its 41 events and does nothing else to the state (R144). -/
theorem receiveByte_emitAll (s : State) : (receiveByte s).2 = emitAll receiveTrace s := by
  simp [receiveByte, receiveBit, receiveTrace, receiveBitEvents, clockLowEvents, sampleEvents, List.replicate]

/-- Bytes received in turn emit their traces in turn. -/
theorem receiveBytes_emitAll (n : Nat) (s : State) :
    (receiveBytes n s).2 = emitAll (List.replicate n receiveTrace).flatten s := by
  induction n generalizing s with
  | zero => rfl
  | succ n ih =>
    rw [List.replicate_succ, List.flatten_cons, emitAll_append, ← receiveByte_emitAll, ← ih]
    rfl

@[simp] theorem receiveBytes_length (n : Nat) (s : State) : (receiveBytes n s).1.length = n := by
  induction n generalizing s with
  | zero => rfl
  | succ n ih => simp [receiveBytes, ih]

/-- A sending transaction emits its trace and does nothing else (R146). -/
theorem sendFrame_emitAll (bs : List Byte) (s : State) :
    sendFrame bs s = emitAll (sendFrameTrace bs) s := by
  rw [sendFrame, sendBytes_emitAll, sendFrameTrace, frameTrace, emitAll_append, emitAll_append]
  rfl

/-- A receiving transaction emits its trace and does nothing else to the state (R146, R147). -/
theorem receiveFrame_emitAll (sent : List Byte) (n : Nat) (s : State) :
    (receiveFrame sent n s).2 = emitAll (receiveFrameTrace sent n) s := by
  simp only [receiveFrame, receiveFrameTrace, frameTrace, emitAll_append, emitAll_cons,
    receiveBytes_emitAll, sendBytes_emitAll, openFrame, closeFrame, emitAll_nil]

/-- A transaction is its trace. -/
theorem transaction_emitAll (sent : List Byte) (n : Nat) (s : State) :
    (transaction sent n s).2 =
      emitAll (match n with | 0 => sendFrameTrace sent | n + 1 => receiveFrameTrace sent (n + 1)) s := by
  cases n with
  | zero => exact sendFrame_emitAll sent s
  | succ n => exact receiveFrame_emitAll sent (n + 1) s

/-- The wire part of WRITE_DIGITS emits the eight transactions of its frame (R194). -/
theorem writeLines_emitAll (s : State) : writeLines s = emitAll (linesTrace s.frame) s := by
  have h : ∀ (bs : List (Fin 8)) (f : Octet) (t : State), t.frame = f →
      bs.foldl (fun t b => sendFrame [setAddressByte (lineAddress b.val), t.frame[b]] t) t =
        emitAll (bs.flatMap fun b => sendFrameTrace [setAddressByte (lineAddress b.val), f[b]]) t := by
    intro bs f
    induction bs with
    | nil => intro t _; rfl
    | cons b bs ih =>
      intro t ht
      rw [List.foldl_cons, List.flatMap_cons, emitAll_append, ← sendFrame_emitAll, ht]
      refine ih _ ?_
      rw [sendFrame_emitAll, (emitAll_wireOnly _ _).frame, ht]
  exact h _ _ s rfl

/-! ## The lines after a micro-operation -/

/-- The level an event list leaves on STB, from the level before it. -/
def stbAfter (stb : Bool) (es : List Event) : Bool :=
  es.foldl (fun l e => match e with | .driveStb v => v | _ => l) stb

/-- The level an event list leaves on CLK, from the level before it. -/
def clkAfter (clk : Bool) (es : List Event) : Bool :=
  es.foldl (fun l e => match e with | .driveClk v => v | _ => l) clk

/-- The mode an event list leaves DIO in, from the mode before it. -/
def dioAfter (dio : DioMode) (es : List Event) : DioMode :=
  es.foldl
    (fun l e =>
      match e with
      | .driveDio v => if v then .drive1 else .drive0
      | .releaseDio => .released
      | _ => l)
    dio

theorem emitAll_stb (es : List Event) (s : State) : (emitAll es s).stb = stbAfter s.stb es := by
  induction es generalizing s with
  | nil => rfl
  | cons e es ih => rw [emitAll_cons, ih, emit_stb]; rfl

theorem emitAll_clk (es : List Event) (s : State) : (emitAll es s).clk = clkAfter s.clk es := by
  induction es generalizing s with
  | nil => rfl
  | cons e es ih => rw [emitAll_cons, ih, emit_clk]; rfl

theorem emitAll_dio (es : List Event) (s : State) : (emitAll es s).dio = dioAfter s.dio es := by
  induction es generalizing s with
  | nil => rfl
  | cons e es ih => rw [emitAll_cons, ih, emit_dio]; rfl

theorem stbAfter_append (b : Bool) (es fs : List Event) :
    stbAfter b (es ++ fs) = stbAfter (stbAfter b es) fs := by simp [stbAfter]
theorem clkAfter_append (b : Bool) (es fs : List Event) :
    clkAfter b (es ++ fs) = clkAfter (clkAfter b es) fs := by simp [clkAfter]
theorem dioAfter_append (d : DioMode) (es fs : List Event) :
    dioAfter d (es ++ fs) = dioAfter (dioAfter d es) fs := by simp [dioAfter]

@[simp] theorem stbAfter_sendTrace (b : Bool) (v : Byte) : stbAfter b (sendTrace v) = b := rfl
@[simp] theorem clkAfter_sendTrace (b : Bool) (v : Byte) : clkAfter b (sendTrace v) = true := rfl
@[simp] theorem dioAfter_sendTrace (d : DioMode) (v : Byte) : dioAfter d (sendTrace v) = dioAfterByte v := rfl
@[simp] theorem stbAfter_receiveTrace (b : Bool) : stbAfter b receiveTrace = b := rfl
@[simp] theorem clkAfter_receiveTrace (b : Bool) : clkAfter b receiveTrace = true := rfl
@[simp] theorem dioAfter_receiveTrace (d : DioMode) : dioAfter d receiveTrace = .released := rfl

@[simp] theorem stbAfter_sends (b : Bool) (bs : List Byte) : stbAfter b (bs.flatMap sendTrace) = b := by
  induction bs with
  | nil => rfl
  | cons v bs ih => simp [stbAfter_append, ih]

theorem clkAfter_sends {b : Bool} (bs : List Byte) (h : b = true) :
    clkAfter b (bs.flatMap sendTrace) = true := by
  induction bs generalizing b with
  | nil => exact h
  | cons v bs ih => simp [clkAfter_append, ih]

@[simp] theorem dioAfter_sends (d : DioMode) (bs : List Byte) :
    dioAfter d (bs.flatMap sendTrace) = dioAfterBytes d bs := by
  induction bs generalizing d with
  | nil => rfl
  | cons v bs ih => simp [dioAfter_append, ih, dioAfterBytes]

@[simp] theorem stbAfter_receives (b : Bool) (n : Nat) :
    stbAfter b (List.replicate n receiveTrace).flatten = b := by
  induction n with
  | zero => rfl
  | succ n ih => simp [List.replicate_succ, stbAfter_append, ih]

theorem clkAfter_receives {b : Bool} (n : Nat) (h : b = true) :
    clkAfter b (List.replicate n receiveTrace).flatten = true := by
  induction n generalizing b with
  | zero => exact h
  | succ n ih => simp [List.replicate_succ, clkAfter_append, ih]

theorem dioAfter_receives (d : DioMode) (n : Nat) :
    dioAfter d (List.replicate (n + 1) receiveTrace).flatten = .released := by
  induction n generalizing d with
  | zero => rfl
  | succ n ih => rw [List.replicate_succ, List.flatten_cons, dioAfter_append, ih]

/-- Every FRAME ends with STB high (R146, R149). -/
@[simp] theorem stbAfter_frame (b : Bool) (body : List Event) : stbAfter b (frameTrace body) = true := by
  simp [frameTrace, stbAfter]

theorem clkAfter_frame {b : Bool} {body : List Event} (h : ∀ c, c = true → clkAfter c body = true)
    (hb : b = true) : clkAfter b (frameTrace body) = true := by
  have := h b hb
  simpa [frameTrace, clkAfter_append, clkAfter] using this

/-- A sending transaction ends with CLK high (R149). -/
theorem clkAfter_sendFrame {b : Bool} (bs : List Byte) (h : b = true) :
    clkAfter b (sendFrameTrace bs) = true :=
  clkAfter_frame (fun _ hc => clkAfter_sends bs hc) h

/-- A receiving transaction ends with CLK high (R149). -/
theorem clkAfter_receiveFrame {b : Bool} (bs : List Byte) (n : Nat) (h : b = true) :
    clkAfter b (receiveFrameTrace bs n) = true := by
  refine clkAfter_frame (fun c hc => ?_) h
  rw [clkAfter_append]
  exact clkAfter_receives n (clkAfter_sends bs hc)

/-- The wire part of WRITE_DIGITS ends with both lines high (R149). -/
theorem linesAfter_lines (f : Octet) {stb clk : Bool} (hs : stb = true) (hc : clk = true) :
    stbAfter stb (linesTrace f) = true ∧ clkAfter clk (linesTrace f) = true := by
  have h : ∀ bs : List (Fin 8), ∀ stb clk : Bool, stb = true → clk = true →
      stbAfter stb (bs.flatMap fun b => sendFrameTrace [setAddressByte (lineAddress b.val), f[b]]) = true ∧
      clkAfter clk (bs.flatMap fun b => sendFrameTrace [setAddressByte (lineAddress b.val), f[b]]) = true := by
    intro bs
    induction bs with
    | nil => intro stb clk hs hc; exact ⟨hs, hc⟩
    | cons b bs ih =>
      intro stb clk hs hc
      rw [List.flatMap_cons, stbAfter_append, clkAfter_append]
      exact ih _ _ (stbAfter_frame _ _) (clkAfter_sendFrame _ hc)
  exact h _ _ _ hs hc

/-! ## What the chip makes of them -/

/-- An attached chip accepts the byte that SEND_BYTE was given (R68), if it is between bytes and does not pull
DIO low. -/
theorem sendByte_chip (v : Byte) (s : State) (hbus : s.bus = .attached) (hclk : s.clk = true)
    (hbits : s.chip.bits = []) (hout : s.chip.out = true) :
    (sendByte v s).chip = s.chip.acceptByte v := by
  have bit : ∀ (b : Bool) (t : State), t.bus = .attached → t.clk = true → t.chip.out = true →
      (sendBit b t).chip = t.chip.clockFall false b ∧ (sendBit b t).bus = .attached ∧
        (sendBit b t).clk = true := by
    intro b t h1 h2 h3
    cases b <;>
      simp [sendBit, sendBitEvents, emit, applyEvent, driveClkLine, State.onChip, h1, h2, h3,
        State.dioReleased, State.dioLevel, State.blockPull, State.chipPull]
  have out : ∀ (c : Chip) (b : Bool), c.out = true → (c.clockFall false b).out = true := by
    intro c b h
    unfold Chip.clockFall Chip.latchBit
    split
    · exact h
    · simp only [Bool.false_eq_true, if_false]
      split
      · exact h
      · split
        · rw [acceptByte_out]
          exact h
        · exact h
  have all : ∀ (bs : List Bool) (t : State), t.bus = .attached → t.clk = true → t.chip.out = true →
      (bs.foldl (fun t b => sendBit b t) t).chip = bs.foldl (fun d b => d.clockFall false b) t.chip := by
    intro bs
    induction bs with
    | nil => intro t _ _ _; rfl
    | cons b bs ih =>
      intro t h1 h2 h3
      obtain ⟨e1, e2, e3⟩ := bit b t h1 h2 h3
      rw [List.foldl_cons, List.foldl_cons, ih _ e2 e3 (by rw [e1]; exact out _ _ h3), e1]
  rw [sendByte, all _ _ hbus hclk hout, latch_byteBits _ _ hbits]

/-- Bytes sent in turn are accepted in turn (R81, R90). -/
theorem sendBytes_chip (bs : List Byte) (s : State) (hbus : s.bus = .attached) (hclk : s.clk = true)
    (hbits : s.chip.bits = []) (hout : s.chip.out = true) :
    (sendBytes bs s).chip = bs.foldl Chip.acceptByte s.chip := by
  unfold sendBytes
  induction bs generalizing s with
  | nil => rfl
  | cons v bs ih =>
    have e := sendByte_chip v s hbus hclk hbits hout
    have w : WireOnly s (sendByte v s) := by rw [sendByte_emitAll]; exact emitAll_wireOnly _ _
    have c : (sendByte v s).clk = true := by rw [sendByte_emitAll, emitAll_clk]; simp
    rw [List.foldl_cons, List.foldl_cons, ih _ (w.bus.trans hbus) c (by rw [e]; exact acceptByte_bits v hbits)
      (by rw [e, acceptByte_out]; exact hout), e]

/-- A chip that is not attached sees nothing. -/
theorem emitAll_chip_detached (es : List Event) (s : State) (h : s.bus = .silent) :
    (emitAll es s).chip = s.chip := by
  induction es generalizing s with
  | nil => rfl
  | cons e es ih =>
    rw [emitAll_cons, ih _ ((emit_wireOnly e s).bus.trans h)]
    unfold emit applyEvent
    split <;> simp [driveStbLine, driveClkLine, countSample, State.onChip, h] <;> (try split) <;> rfl

/-- The chip after one sending transaction (R67), from any state with the lines idle. -/
theorem sendFrame_chip (bs : List Byte) (s : State) (hbus : s.bus = .attached) (hstb : s.stb = true)
    (hclk : s.clk = true) : (sendFrame bs s).chip = s.chip.afterSent bs := by
  have o : (openFrame s).chip = s.chip.strobeFall ∧ (openFrame s).bus = .attached ∧
      (openFrame s).clk = true ∧ (openFrame s).stb = false := by
    simp [openFrame, emit, applyEvent, driveStbLine, State.onChip, hbus, hstb, hclk]
  obtain ⟨o1, o2, o3, o4⟩ := o
  have b := sendBytes_chip bs (openFrame s) o2 o3 (by rw [o1]; rfl) (by rw [o1]; rfl)
  have w : WireOnly (openFrame s) (sendBytes bs (openFrame s)) := by
    rw [sendBytes_emitAll]; exact emitAll_wireOnly _ _
  have st : (sendBytes bs (openFrame s)).stb = false := by
    rw [sendBytes_emitAll, emitAll_stb]; simp [o4]
  have cl : ∀ t : State, t.bus = .attached → t.stb = false → (closeFrame t).chip = t.chip.strobeRise := by
    intro t h1 h2
    simp [closeFrame, emit, applyEvent, driveStbLine, State.onChip, h1, h2]
  rw [sendFrame, cl _ (w.bus.trans o2) st, b, o1, Chip.afterSent]

/-- One bit received while the chip presents scan data: the sample is the bit presented (R71, R144). -/
theorem receiveBit_reading (k : Nat) (acc : Byte) (b : Bool) (bs : List Bool) (s : State)
    (hbus : s.bus = .attached) (hclk : s.clk = true) (hdio : s.dio = .released)
    (hph : s.chip.phase = .reading (b :: bs)) :
    (receiveBit k (acc, s)).1 = insertBit acc k b ∧
      (receiveBit k (acc, s)).2.chip = { s.chip with phase := .reading bs, out := b } ∧
      (receiveBit k (acc, s)).2.bus = .attached ∧ (receiveBit k (acc, s)).2.clk = true ∧
      (receiveBit k (acc, s)).2.dio = .released := by
  simp [receiveBit, clockLowEvents, sampleEvents, emit, applyEvent, driveClkLine, countSample, State.onChip,
    hbus, hclk, hdio, hph, State.dioReleased, State.sampleValue, State.dioLevel, State.blockPull,
    State.chipPull, Chip.clockFall, Chip.presentBit]

/-- RECEIVE_BYTE while the chip presents scan data takes the next eight bits, the first as bit 0 (R71, R144). -/
theorem receiveByte_reading (v : Byte) (rest : List Bool) (s : State) (hbus : s.bus = .attached)
    (hclk : s.clk = true) (hph : s.chip.phase = .reading (byteBits v ++ rest)) :
    (receiveByte s).1 = v ∧
      (receiveByte s).2.chip = { s.chip with phase := .reading rest, out := v.getLsbD 7 } ∧
      (receiveByte s).2.bus = .attached ∧ (receiveByte s).2.clk = true := by
  have step : ∀ (bs : List Bool) (k : Nat) (acc : Byte) (rest : List Bool) (t : State),
      t.bus = .attached → t.clk = true → t.dio = .released → t.chip.phase = .reading (bs ++ rest) →
      let p := (List.range' k bs.length).foldl (fun p k => receiveBit k p) (acc, t)
      p.1 = packBitsFrom k acc bs ∧
        p.2.chip = { t.chip with phase := .reading rest, out := bs.getLastD t.chip.out } ∧
        p.2.bus = .attached ∧ p.2.clk = true := by
    intro bs
    induction bs with
    | nil =>
      intro k acc rest t h1 h2 _ h4
      refine ⟨rfl, ?_, h1, h2⟩
      have hp : t.chip.phase = .reading rest := h4
      change t.chip = { t.chip with phase := .reading rest, out := t.chip.out }
      rw [← hp]
    | cons b bs ih =>
      intro k acc rest t h1 h2 h3 h4
      obtain ⟨e1, e2, e3, e4, e5⟩ := receiveBit_reading k acc b (bs ++ rest) t h1 h2 h3 h4
      obtain ⟨i1, i2, i3, i4⟩ :=
        ih (k + 1) (receiveBit k (acc, t)).1 rest (receiveBit k (acc, t)).2 e3 e4 e5 (by rw [e2])
      refine ⟨?_, ?_, i3, i4⟩
      · exact i1.trans (by rw [e1]; rfl)
      · refine i2.trans ?_
        rw [e2]
        cases bs <;> rfl
  have r : ∀ t : State, (emit .releaseDio t) = { t with
      log := .releaseDio :: t.log, pc := t.pc + 1, dio := .released } := fun _ => rfl
  obtain ⟨i1, i2, i3, i4⟩ := step (byteBits v) 0 0#8 rest (emit .releaseDio s) hbus hclk rfl hph
  exact ⟨i1.trans (packBits_byteBits v), i2, i3, i4⟩

/-- The chip once STB has fallen and 0x42 has come (R71, R73). -/
theorem acceptByte_dataRead (c : Chip) :
    c.strobeFall.acceptByte dataReadByte =
      { c.drawKeys with mode := .read, phase := .reading c.nextRead.scanBits, bits := [], out := true } := by
  have hc : classify dataReadByte = some (.dataRead false) := by decide
  have hn : c.strobeFall.nextRead = c.nextRead := rfl
  have hk : c.strobeFall.drawKeys = { c.drawKeys with phase := .command, bits := [], out := true } := rfl
  simp only [Chip.acceptByte, Chip.strobeFall]
  rw [← Chip.strobeFall.eq_1, Chip.acceptCommand, hc]
  simp only [Chip.dataRead, Bool.false_eq_true, if_false, hn, hk]

/-- The read transaction of an attached chip: SCANDATA[0..3] in order, and the chip after it (R71, R73). -/
theorem receiveFrame_read (s : State) (hbus : s.bus = .attached) (hstb : s.stb = true) (hclk : s.clk = true) :
    (receiveFrame [dataReadByte] 4 s).1 = s.chip.nextRead.scanData.toList ∧
      (receiveFrame [dataReadByte] 4 s).2.chip = s.chip.afterRead := by
  have o : (openFrame s).chip = s.chip.strobeFall ∧ (openFrame s).bus = .attached ∧
      (openFrame s).clk = true ∧ (openFrame s).stb = false := by
    simp [openFrame, emit, applyEvent, driveStbLine, State.onChip, hbus, hstb, hclk]
  obtain ⟨o1, o2, o3, o4⟩ := o
  have b := sendBytes_chip [dataReadByte] (openFrame s) o2 o3 (by rw [o1]; rfl) (by rw [o1]; rfl)
  have w : WireOnly (openFrame s) (sendBytes [dataReadByte] (openFrame s)) := by
    rw [sendBytes_emitAll]; exact emitAll_wireOnly _ _
  have hst : (sendBytes [dataReadByte] (openFrame s)).stb = false := by
    rw [sendBytes_emitAll, emitAll_stb]; simp [o4]
  have hcl : (sendBytes [dataReadByte] (openFrame s)).clk = true := by
    rw [sendBytes_emitAll, emitAll_clk]; exact clkAfter_sends _ o3
  rw [List.foldl_cons, List.foldl_nil, o1, acceptByte_dataRead] at b
  generalize hu : emit (.wait .tRdwait) (sendBytes [dataReadByte] (openFrame s)) = u
  have u1 : u.bus = .attached := by rw [← hu]; exact ((emit_wireOnly _ _).bus.trans w.bus).trans o2
  have u2 : u.clk = true := by rw [← hu]; exact hcl
  have u3 : u.stb = false := by rw [← hu]; exact hst
  have u4 : u.chip = { s.chip.drawKeys with
      mode := .read, phase := .reading s.chip.nextRead.scanBits, bits := [], out := true } := by
    rw [← hu]; exact b
  have hbits : u.chip.phase = .reading (byteBits s.chip.nextRead.scanData[0] ++
      (byteBits s.chip.nextRead.scanData[1] ++ (byteBits s.chip.nextRead.scanData[2] ++
      (byteBits s.chip.nextRead.scanData[3] ++ [])))) := by
    rw [u4]; simp [KeyRead.scanBits]
  obtain ⟨a1, a2, a3, a4⟩ := receiveByte_reading _ _ u u1 u2 hbits
  obtain ⟨b1, b2, b3, b4⟩ := receiveByte_reading _ _ (receiveByte u).2 a3 a4 (by rw [a2])
  obtain ⟨c1, c2, c3, c4⟩ := receiveByte_reading _ _ (receiveByte (receiveByte u).2).2 b3 b4 (by rw [b2])
  obtain ⟨d1, d2, d3, d4⟩ :=
    receiveByte_reading _ _ (receiveByte (receiveByte (receiveByte u).2).2).2 c3 c4 (by rw [c2])
  have st : (receiveBytes 4 u).2.stb = false := by
    rw [receiveBytes_emitAll, emitAll_stb]; exact (stbAfter_receives _ _).trans u3
  have bu : (receiveBytes 4 u).2.bus = .attached := d3
  have hch : (receiveBytes 4 u).2.chip = { s.chip.drawKeys with
      mode := .read, phase := .reading [], bits := [],
      out := s.chip.nextRead.scanData[3].getLsbD 7 } := by
    have : (receiveBytes 4 u).2.chip = (receiveByte (receiveByte (receiveByte (receiveByte u).2).2).2).2.chip := rfl
    rw [this, d2, c2, b2, a2, u4]
  have hl : (receiveBytes 4 u).1 = s.chip.nextRead.scanData.toList := by
    have hq : ∀ q : Quad, [q[0], q[1], q[2], q[3]] = q.toList := by
      intro q
      apply List.ext_getElem
      · simp
      · intro i h1 h2
        simp only [List.length_cons, List.length_nil] at h1
        match i, h1 with
        | 0, _ => rfl
        | 1, _ => rfl
        | 2, _ => rfl
        | 3, _ => rfl
    rw [← hq]
    simp only [receiveBytes, a1, b1, c1, d1]
  simp only [receiveFrame, hu]
  refine ⟨hl, ?_⟩
  have cl : ∀ t : State, t.bus = .attached → t.stb = false → (closeFrame t).chip = t.chip.strobeRise := by
    intro t h1 h2
    simp [closeFrame, emit, applyEvent, driveStbLine, State.onChip, h1, h2]
  rw [cl _ bu st, hch]
  rfl

end Sys2Proof.Machine
end

