-- ==== Sys2Proof/Laws/Exec.lean ====
section
/-! SUPPORT. What an instruction does on the wire, said once for all of them: its trace, and that the lines and the
chip are where that trace takes them. -/

namespace Sys2Proof.Machine

/-- The wire trace of an instruction from a state (R14, R118): it depends on the operands and on FONT only. -/
def opTrace (i : Instr) (s : State) : List Event :=
  match i with
  | .displayControl d ppp => sendFrameTrace [displayControlByte d ppp]
  | .dataWrite fixed => sendFrameTrace [dataWriteByte (!fixed)]
  | .dataRead => readTrace
  | .setAddress aaaa payload => sendFrameTrace (setAddressByte (aaaa.setWidth 8) :: payload)
  | .configureDisplay en pw => sendFrameTrace [displayControlByte en pw]
  | .initWriteData auto => sendFrameTrace [dataWriteByte auto]
  | .writeData address payload =>
    sendFrameTrace (setAddressByte ((maskAddress address).setWidth 8) :: payload)
  | .readScan => readTrace
  | .writeDigits d => linesTrace (scrambleDigits d)
  | .writeString text =>
    match buildDigits s.params.font text with
    | .done b _ => linesTrace (scrambleDigits (padToDigits b))
    | .unknown _ _ => []
  | .readButtons => readTrace
  | .buildDigits _ => []
  | .scramble _ => []
  | .unscramble _ => []
  | .decodeScan _ => []

/-- What a state shares with the end of a trace: the trace, the lines, the chip, and what no operation writes. -/
structure EndsAs (es : List Event) (s t : State) : Prop where
  log : t.log = es.reverse
  stb : t.stb = (emitAll es (acceptOperation s)).stb
  clk : t.clk = (emitAll es (acceptOperation s)).clk
  dio : t.dio = (emitAll es (acceptOperation s)).dio
  chip : t.chip = (emitAll es (acceptOperation s)).chip
  busy : t.busy = false
  pc : t.pc = 0
  params : t.params = s.params
  bus : t.bus = s.bus
  hostIn : t.hostIn = s.hostIn
  resetAt : t.resetAt = s.resetAt
  rawIn : t.rawIn = s.rawIn

/-- A state that differs from the end of a trace in what the wire does not touch. -/
theorem EndsAs.of_eq {es : List Event} {s t u : State} (hu : u = emitAll es (acceptOperation s))
    (h : t = { u with busy := t.busy, pc := t.pc, cause := t.cause, errIndex := t.errIndex, errChar := t.errChar,
                      scanbuf := t.scanbuf, frame := t.frame, digits := t.digits, btn := t.btn, build := t.build,
                      prev := t.prev, response := t.response, rawOut := t.rawOut })
    (hb : t.busy = false) (hp : t.pc = 0) : EndsAs es s t := by
  have w := emitAll_wireOnly es (acceptOperation s)
  refine ⟨?_, ?_, ?_, ?_, ?_, hb, hp, ?_, ?_, ?_, ?_, ?_⟩
  · rw [h, hu, emitAll_log]; simp
  · rw [h, hu]
  · rw [h, hu]
  · rw [h, hu]
  · rw [h, hu]
  · rw [h, hu, w.params]; rfl
  · rw [h, hu, w.bus]; rfl
  · rw [h, hu, w.hostIn]; rfl
  · rw [h, hu, w.resetAt]; rfl
  · rw [h, hu, w.rawIn]; rfl

/-- Updating buffers before the wire events is updating them after. -/
theorem emitAll_setBuffers (es : List Event) (s : State) (digits frame : Octet) (build : List Byte)
    (prev : Option Nat) :
    emitAll es { s with digits := digits, frame := frame, build := build, prev := prev } =
      { emitAll es s with digits := digits, frame := frame, build := build, prev := prev } := by
  have bus : ∀ (t : State) (f : Chip → Chip),
      State.onChip { t with digits := digits, frame := frame, build := build, prev := prev } f =
        { t.onChip f with digits := digits, frame := frame, build := build, prev := prev } := by
    intro t f
    cases h : t.bus <;> simp [State.onChip, h]
  have one : ∀ (e : Event) (t : State),
      emit e { t with digits := digits, frame := frame, build := build, prev := prev } =
        { emit e t with digits := digits, frame := frame, build := build, prev := prev } := by
    intro e t
    obtain ⟨stb, clk, dio, pc, busy, cause, ei, ec, sb, fr, dg, bt, bd, pv, log, resp, par, chip, bus, hi, ra,
      ri, ro⟩ := t
    cases e with
    | driveStb v => cases stb <;> cases v <;> cases bus <;> rfl
    | driveClk v => cases clk <;> cases v <;> cases bus <;> rfl
    | driveDio v => rfl
    | releaseDio => rfl
    | sample => cases bus <;> rfl
    | wait d => rfl
  induction es generalizing s with
  | nil => rfl
  | cons e es ih => rw [emitAll_cons, one, ih, emitAll_cons]

theorem endsAs_runTransaction (sent : List Byte) (n : Nat) (s : State) (es : List Event)
    (h : (transaction sent n (acceptOperation s)).2 = emitAll es (acceptOperation s)) :
    EndsAs es s (runTransaction sent n s) := by
  refine EndsAs.of_eq h ?_ rfl rfl
  unfold runTransaction
  generalize transaction sent n (acceptOperation s) = p
  rfl

theorem endsAs_finishOk (p : List Byte) (s u : State) (es : List Event)
    (h : u = emitAll es (acceptOperation s)) : EndsAs es s (finishOk p u) :=
  EndsAs.of_eq h rfl rfl rfl

/-- WRITE_DIGITS from its SCRAMBLE body on: the trace first, then the buffers (R194). -/
theorem writeDigitsBody_eq (d : Octet) (b : List Byte) (prev : Option Nat) (s : State) :
    writeDigitsBody (loadDigits d (storeBuild b prev s)) =
      { emitAll (linesTrace (scrambleDigits d)) s with
        digits := d, frame := scrambleDigits d, build := b, prev := prev } := by
  have e : scrambleBody (loadDigits d (storeBuild b prev s)) =
      { s with digits := d, frame := scrambleDigits d, build := b, prev := prev } := rfl
  rw [writeDigitsBody, writeLines_emitAll, e, emitAll_setBuffers]

theorem endsAs_writeDigits (p : List Byte) (d : Octet) (b : List Byte) (prev : Option Nat) (s : State) :
    EndsAs (linesTrace (scrambleDigits d)) s
      (finishOk p (writeDigitsBody (loadDigits d (storeBuild b prev (acceptOperation s))))) := by
  rw [writeDigitsBody_eq]
  refine EndsAs.of_eq rfl ?_ rfl rfl
  generalize emitAll (linesTrace (scrambleDigits d)) (acceptOperation s) = u
  rfl

theorem endsAs_readScanBody (p : List Byte) (s : State) (w : Buttons) :
    EndsAs readTrace s (finishOk p (readScanBody (acceptOperation s))) ∧
      EndsAs readTrace s (finishOk p { readScanBody (acceptOperation s) with btn := w }) := by
  unfold readScanBody
  have h := receiveFrame_emitAll [dataReadByte] 4 (acceptOperation s)
  generalize receiveFrame [dataReadByte] 4 (acceptOperation s) = q at h
  exact ⟨EndsAs.of_eq h rfl rfl rfl, EndsAs.of_eq h rfl rfl rfl⟩

/-- An operation without wire events. -/
theorem endsAs_pure {s t : State} (h : t = { acceptOperation s with
      busy := t.busy, pc := t.pc, cause := t.cause, errIndex := t.errIndex, errChar := t.errChar,
      scanbuf := t.scanbuf, frame := t.frame, digits := t.digits, btn := t.btn, build := t.build,
      prev := t.prev, response := t.response, rawOut := t.rawOut })
    (hb : t.busy = false) (hp : t.pc = 0) : EndsAs [] s t :=
  EndsAs.of_eq rfl h hb hp

/-- Every instruction answers a next state, and ends as its trace does (R14, R24, R90). -/
theorem exec_endsAs (i : Instr) (s : State) : ∃ t, exec i s = .next t ∧ EndsAs (opTrace i s) s t := by
  cases i with
  | displayControl d ppp => exact ⟨_, rfl, endsAs_runTransaction _ 0 _ _ (transaction_emitAll _ 0 _)⟩
  | dataWrite fixed => exact ⟨_, rfl, endsAs_runTransaction _ 0 _ _ (transaction_emitAll _ 0 _)⟩
  | dataRead => exact ⟨_, rfl, endsAs_runTransaction _ 4 _ _ (transaction_emitAll _ 4 _)⟩
  | setAddress aaaa payload => exact ⟨_, rfl, endsAs_runTransaction _ 0 _ _ (transaction_emitAll _ 0 _)⟩
  | configureDisplay en pw => exact ⟨_, rfl, endsAs_finishOk _ _ _ _ (sendFrame_emitAll _ _)⟩
  | initWriteData auto => exact ⟨_, rfl, endsAs_finishOk _ _ _ _ (sendFrame_emitAll _ _)⟩
  | writeData a payload => exact ⟨_, rfl, endsAs_finishOk _ _ _ _ (sendFrame_emitAll _ _)⟩
  | readScan => exact ⟨_, rfl, (endsAs_readScanBody _ _ 0#16).1⟩
  | writeDigits d => exact ⟨_, rfl, endsAs_writeDigits [] d s.build s.prev s⟩
  | writeString text =>
    simp only [exec, execWriteString, opTrace]
    cases buildDigits s.params.font text with
    | done b prev => exact ⟨_, rfl, endsAs_writeDigits [] _ b prev s⟩
    | unknown j ch => exact ⟨_, rfl, endsAs_pure rfl rfl rfl⟩
  | readButtons => exact ⟨_, rfl, (endsAs_readScanBody _ _ _).2⟩
  | buildDigits text =>
    simp only [exec, execBuildDigits]
    cases buildDigits s.params.font text with
    | done b prev => exact ⟨_, rfl, endsAs_pure rfl rfl rfl⟩
    | unknown j ch => exact ⟨_, rfl, endsAs_pure rfl rfl rfl⟩
  | scramble d => exact ⟨_, rfl, endsAs_pure rfl rfl rfl⟩
  | unscramble f => exact ⟨_, rfl, endsAs_pure rfl rfl rfl⟩
  | decodeScan q => exact ⟨_, rfl, endsAs_pure rfl rfl rfl⟩

/-- The same of a given next state. -/
theorem EndsAs.of_exec {i : Instr} {s t : State} (h : exec i s = .next t) : EndsAs (opTrace i s) s t := by
  obtain ⟨u, hu, e⟩ := exec_endsAs i s
  rw [h] at hu
  cases hu
  exact e

/-! ## The chip at the end of a trace -/

/-- Without an attached chip events reach nothing of it but the count of draws (R75, R266). -/
theorem emitAll_chip_absent (es : List Event) (s : State) (h : s.bus ≠ .attached) :
    ∃ n, (emitAll es s).chip = { s.chip with draws := n } := by
  have one : ∀ (e : Event) (t : State), t.bus ≠ .attached → ∃ n, (emit e t).chip = { t.chip with draws := n } := by
    intro e t ht
    have same : ∀ (f : Chip → Chip) (u : State), u.bus = t.bus → u.chip = t.chip →
        ∃ n, (u.onChip f).chip = { t.chip with draws := n } :=
      fun f u hu hc => ⟨t.chip.draws, by rw [onChip_detached f (by rw [hu]; exact ht), hc]⟩
    unfold emit applyEvent
    split
    · unfold driveStbLine
      split
      · exact same _ _ rfl rfl
      · exact same _ _ rfl rfl
      · exact ⟨t.chip.draws, rfl⟩
    · unfold driveClkLine
      split
      · exact same _ _ rfl rfl
      · exact ⟨t.chip.draws, rfl⟩
    · exact ⟨t.chip.draws, rfl⟩
    · exact ⟨t.chip.draws, rfl⟩
    · unfold countSample
      split
      · exact ⟨t.chip.draws + 1, rfl⟩
      · exact ⟨t.chip.draws, rfl⟩
    · exact ⟨t.chip.draws, rfl⟩
  induction es generalizing s with
  | nil => exact ⟨s.chip.draws, rfl⟩
  | cons e es ih =>
    obtain ⟨n, hn⟩ := one e s h
    obtain ⟨m, hm⟩ := ih (emit e s) (by rw [(emit_wireOnly e s).bus]; exact h)
    exact ⟨m, by rw [emitAll_cons, hm, hn]⟩

/-- The chip sees no transaction. -/
structure Chip.Quiet (c : Chip) : Prop where
  phase : c.phase = .idle
  bits : c.bits = []
  out : c.out = true

theorem strobeRise_quiet (c : Chip) : c.strobeRise.Quiet := by
  unfold Chip.strobeRise
  split <;> exact ⟨rfl, rfl, rfl⟩

/-- A FRAME whose body leaves STB alone leaves the chip quiet (R67, R146). -/
theorem frame_quiet (body : List Event) (s : State) (hb : ∀ b, stbAfter b body = b) (hs : s.chip.Quiet) :
    (emitAll (frameTrace body) s).chip.Quiet := by
  by_cases hbus : s.bus = .attached
  · rw [frameTrace, emitAll_append]
    generalize hu : emitAll ([.driveStb false, .wait .tStb] ++ body) s = u
    have h1 : u.stb = false := by
      rw [← hu, emitAll_stb, stbAfter_append, hb]
      rfl
    have h2 : u.bus = .attached := by rw [← hu, (emitAll_wireOnly _ s).bus, hbus]
    have h3 : (emitAll [.driveStb true, .wait .tStb] u).chip = u.chip.strobeRise := by
      simp [emit, applyEvent, driveStbLine, State.onChip, h1, h2]
    rw [h3]
    exact strobeRise_quiet _
  · obtain ⟨n, hn⟩ := emitAll_chip_absent (frameTrace body) s hbus
    rw [hn]
    exact ⟨hs.phase, hs.bits, hs.out⟩

theorem sendFrameTrace_quiet (bs : List Byte) (s : State) (hs : s.chip.Quiet) :
    (emitAll (sendFrameTrace bs) s).chip.Quiet :=
  frame_quiet _ _ (fun b => stbAfter_sends b bs) hs

theorem readTrace_quiet (s : State) (hs : s.chip.Quiet) : (emitAll readTrace s).chip.Quiet :=
  frame_quiet ([dataReadByte].flatMap sendTrace ++ .wait .tRdwait :: (List.replicate 4 receiveTrace).flatten) s
    (fun _ => rfl) hs

theorem linesTrace_quiet (f : Octet) (s : State) (hs : s.chip.Quiet) :
    (emitAll (linesTrace f) s).chip.Quiet := by
  have h : ∀ (bs : List (Fin 8)) (t : State), t.chip.Quiet → (emitAll
      (bs.flatMap fun b => sendFrameTrace [setAddressByte (lineAddress b.val), f[b]]) t).chip.Quiet := by
    intro bs
    induction bs with
    | nil => intro t ht; exact ht
    | cons b bs ih =>
      intro t ht
      rw [List.flatMap_cons, emitAll_append]
      exact ih _ (sendFrameTrace_quiet _ _ ht)
  rw [linesTrace]
  exact h (List.finRange 8) s hs

/-- Every operation leaves the chip quiet (R149). -/
theorem opTrace_quiet (i : Instr) (s t : State) (ht : t.chip.Quiet) :
    (emitAll (opTrace i s) t).chip.Quiet := by
  cases i with
  | displayControl _ _ => exact sendFrameTrace_quiet _ _ ht
  | dataWrite _ => exact sendFrameTrace_quiet _ _ ht
  | dataRead => exact readTrace_quiet _ ht
  | setAddress _ _ => exact sendFrameTrace_quiet _ _ ht
  | configureDisplay _ _ => exact sendFrameTrace_quiet _ _ ht
  | initWriteData _ => exact sendFrameTrace_quiet _ _ ht
  | writeData _ _ => exact sendFrameTrace_quiet _ _ ht
  | readScan => exact readTrace_quiet _ ht
  | writeDigits d => exact linesTrace_quiet (scrambleDigits d) _ ht
  | writeString text =>
    rw [opTrace]
    split
    · exact linesTrace_quiet _ _ ht
    · exact ht
  | readButtons => exact readTrace_quiet _ ht
  | buildDigits _ => exact ht
  | scramble _ => exact ht
  | unscramble _ => exact ht
  | decodeScan _ => exact ht

/-- The read transaction leaves STB and CLK high (R149). -/
theorem linesAfter_read (stb : Bool) {clk : Bool} (hc : clk = true) :
    stbAfter stb readTrace = true ∧ clkAfter clk readTrace = true := by
  rw [readTrace]
  exact ⟨stbAfter_frame _ _, clkAfter_receiveFrame _ _ hc⟩

/-- A sending transaction leaves STB and CLK high (R149). -/
theorem linesAfter_send (bs : List Byte) (stb : Bool) {clk : Bool} (hc : clk = true) :
    stbAfter stb (sendFrameTrace bs) = true ∧ clkAfter clk (sendFrameTrace bs) = true :=
  ⟨stbAfter_frame _ _, clkAfter_sendFrame _ hc⟩

/-- Every operation leaves STB and CLK high (R149). -/
theorem opTrace_lines (i : Instr) (s : State) {stb clk : Bool} (hs : stb = true) (hc : clk = true) :
    stbAfter stb (opTrace i s) = true ∧ clkAfter clk (opTrace i s) = true := by
  cases i with
  | displayControl _ _ => exact linesAfter_send _ _ hc
  | dataWrite _ => exact linesAfter_send _ _ hc
  | dataRead => exact linesAfter_read _ hc
  | setAddress _ _ => exact linesAfter_send _ _ hc
  | configureDisplay _ _ => exact linesAfter_send _ _ hc
  | initWriteData _ => exact linesAfter_send _ _ hc
  | writeData _ _ => exact linesAfter_send _ _ hc
  | readScan => exact linesAfter_read _ hc
  | writeDigits d => exact linesAfter_lines (scrambleDigits d) hs hc
  | writeString text =>
    rw [opTrace]
    split
    · exact linesAfter_lines _ hs hc
    · exact ⟨hs, hc⟩
  | readButtons => exact linesAfter_read _ hc
  | buildDigits _ => exact ⟨hs, hc⟩
  | scramble _ => exact ⟨hs, hc⟩
  | unscramble _ => exact ⟨hs, hc⟩
  | decodeScan _ => exact ⟨hs, hc⟩

/-! ## Whole transactions from idle lines -/

/-- Without an attached chip a trace that samples nothing leaves the chip as it was (R75). -/
theorem emitAll_chip_unsampled (es : List Event) (s : State) (h : s.bus ≠ .attached) (hes : .sample ∉ es) :
    (emitAll es s).chip = s.chip := by
  have one : ∀ (e : Event) (t : State), t.bus ≠ .attached → e ≠ .sample → (emit e t).chip = t.chip := by
    intro e t ht he
    have same : ∀ (f : Chip → Chip) (u : State), u.bus = t.bus → u.chip = t.chip →
        (u.onChip f).chip = t.chip :=
      fun f u hu hc => by rw [onChip_detached f (by rw [hu]; exact ht), hc]
    unfold emit applyEvent
    split
    · unfold driveStbLine
      split
      · exact same _ _ rfl rfl
      · exact same _ _ rfl rfl
      · rfl
    · unfold driveClkLine
      split
      · exact same _ _ rfl rfl
      · rfl
    · rfl
    · rfl
    · exact absurd rfl he
    · rfl
  induction es generalizing s with
  | nil => rfl
  | cons e es ih =>
    rw [List.mem_cons, not_or] at hes
    rw [emitAll_cons, ih _ (by rw [(emit_wireOnly e s).bus]; exact h) hes.2, one e s h (Ne.symm hes.1)]

/-- A sending transaction samples nothing. -/
theorem sample_notMem_sendFrameTrace (bs : List Byte) : .sample ∉ sendFrameTrace bs := by
  have h : ∀ (v : Byte), Event.sample ∉ sendTrace v := by
    intro v hm
    obtain ⟨b, -, hb⟩ := List.mem_flatMap.mp hm
    cases b <;> simp [sendBitEvents] at hb
  intro hm
  simp only [sendFrameTrace, frameTrace, List.mem_append, List.mem_cons, List.mem_flatMap] at hm
  obtain ((h1 | h1 | h1) | ⟨v, -, hv⟩) | h1 | h1 | h1 := hm
  · cases h1
  · cases h1
  · cases h1
  · exact h v hv
  · cases h1
  · cases h1
  · cases h1

/-- One sending transaction from idle lines (R146, R67): the whole state after it. -/
theorem sendFrame_idle (bs : List Byte) (s : State) (hstb : s.stb = true) (hclk : s.clk = true) :
    sendFrame bs s =
      { s with
        dio := dioAfterBytes s.dio bs
        pc := s.pc + (sendFrameTrace bs).length
        log := (sendFrameTrace bs).reverse ++ s.log
        chip := s.chipAfter fun c => c.afterSent bs } := by
  have hchip : (sendFrame bs s).chip = s.chipAfter fun c => c.afterSent bs := by
    unfold State.chipAfter
    split
    · rename_i hb
      exact sendFrame_chip bs s hb hstb hclk
    · rename_i hb
      rw [sendFrame_emitAll, emitAll_chip_unsampled _ _ (fun h => hb h) (sample_notMem_sendFrameTrace bs)]
  rw [sendFrame_emitAll] at hchip ⊢
  have w := emitAll_wireOnly (sendFrameTrace bs) s
  have hl := emitAll_log (sendFrameTrace bs) s
  have hp := emitAll_pc (sendFrameTrace bs) s
  have h1 := emitAll_stb (sendFrameTrace bs) s
  have h2 := emitAll_clk (sendFrameTrace bs) s
  have h3 := emitAll_dio (sendFrameTrace bs) s
  rw [(linesAfter_send bs s.stb hclk).1, ← hstb] at h1
  rw [(linesAfter_send bs s.stb hclk).2, ← hclk] at h2
  have h3' : dioAfter s.dio (sendFrameTrace bs) = dioAfterBytes s.dio bs := by
    rw [sendFrameTrace, frameTrace, dioAfter_append, dioAfter_append, dioAfter_sends]
    rfl
  rw [h3'] at h3
  generalize emitAll (sendFrameTrace bs) s = u at *
  rw [WireOnly] at w
  rw [w, h1, h2, h3, hp, hl, hchip]

/-- The read transaction from any state (R146, R147, R167): the whole state after it but for the chip, which is
the one the trace leaves. -/
theorem readFrame_state (s : State) :
    (receiveFrame [dataReadByte] 4 s).2 =
      { s with
        stb := true
        clk := true
        dio := .released
        pc := s.pc + 217
        log := readTrace.reverse ++ s.log
        chip := (receiveFrame [dataReadByte] 4 s).2.chip } := by
  have he := receiveFrame_emitAll [dataReadByte] 4 s
  rw [← readTrace] at he
  have w := emitAll_wireOnly readTrace s
  have hl := emitAll_log readTrace s
  have hp := emitAll_pc readTrace s
  have h1 := emitAll_stb readTrace s
  have h2 := emitAll_clk readTrace s
  have h3 := emitAll_dio readTrace s
  have hr := fun d => dioAfter_receives d 3
  have hc := clkAfter_receives (b := true) 4 rfl
  have e1 : stbAfter s.stb readTrace = true := stbAfter_frame _ _
  have e2 : clkAfter s.clk readTrace = true := by
    rw [readTrace, receiveFrameTrace, frameTrace, clkAfter_append, clkAfter_append, clkAfter_append,
      List.flatMap_cons, List.flatMap_nil, List.append_nil, clkAfter_sendTrace]
    generalize (List.replicate 4 receiveTrace).flatten = es at *
    rw [show ∀ b, clkAfter b (.wait .tRdwait :: es) = clkAfter b es from fun _ => rfl, hc]
    rfl
  have e3 : dioAfter s.dio readTrace = .released := by
    rw [readTrace, receiveFrameTrace, frameTrace, dioAfter_append, dioAfter_append, dioAfter_append]
    generalize (List.replicate (3 + 1) receiveTrace).flatten = es at *
    rw [show ∀ b, dioAfter b (.wait .tRdwait :: es) = dioAfter b es from fun _ => rfl, hr]
    rfl
  have e4 : readTrace.length = 217 := by decide +kernel
  rw [e1] at h1
  rw [e2] at h2
  rw [e3] at h3
  rw [e4] at hp
  rw [he]
  generalize emitAll readTrace s = u at *
  rw [WireOnly] at w
  rw [w, h1, h2, h3, hp, hl]

/-- The wire part of WRITE_DIGITS from idle lines (R194): the whole state after it. -/
theorem writeLines_idle (s : State) (hstb : s.stb = true) (hclk : s.clk = true) :
    writeLines s =
      { s with
        dio := dioAfterByte s.frame[7]
        pc := s.pc + (linesTrace s.frame).length
        log := (linesTrace s.frame).reverse ++ s.log
        chip := s.chipAfter fun c => c.afterLines s.frame } := by
  have key : ∀ (bs : List (Fin 8)) (t : State), t.stb = true → t.clk = true → t.frame = s.frame →
      t.bus = s.bus →
      (bs.foldl (fun t b => sendFrame [setAddressByte (lineAddress b.val), t.frame[b]] t) t).chip =
        t.chipAfter fun c =>
          bs.foldl (fun d b => d.afterSent [setAddressByte (lineAddress b.val), s.frame[b]]) c := by
    intro bs
    induction bs with
    | nil =>
      intro t _ _ _ _
      unfold State.chipAfter
      split <;> rfl
    | cons b bs ih =>
      intro t h1 h2 h3 h4
      rw [List.foldl_cons, h3, sendFrame_idle _ t h1 h2]
      refine (ih _ ?_ ?_ ?_ ?_).trans ?_
      · exact h1
      · exact h2
      · exact h3
      · exact h4
      · unfold State.chipAfter
        cases hb : t.bus <;> rfl
  have hchip : (writeLines s).chip = s.chipAfter fun c => c.afterLines s.frame :=
    key (List.finRange 8) s hstb hclk rfl rfl
  rw [writeLines_emitAll] at hchip ⊢
  generalize hf : s.frame = f at *
  have w := emitAll_wireOnly (linesTrace f) s
  have hl := emitAll_log (linesTrace f) s
  have hp := emitAll_pc (linesTrace f) s
  have h1 := emitAll_stb (linesTrace f) s
  have h2 := emitAll_clk (linesTrace f) s
  have h3 := emitAll_dio (linesTrace f) s
  rw [(linesAfter_lines f hstb hclk).1, ← hstb] at h1
  rw [(linesAfter_lines f hstb hclk).2, ← hclk] at h2
  have h3' : ∀ d, dioAfter d (linesTrace f) = dioAfterByte f[7] := by
    intro d
    obtain ⟨front, hfront⟩ : ∃ front : List (Fin 8), List.finRange 8 = front ++ [7] :=
      ⟨[0, 1, 2, 3, 4, 5, 6], by decide⟩
    rw [linesTrace, hfront, List.flatMap_append, List.flatMap_cons, List.flatMap_nil, List.append_nil,
      dioAfter_append, sendFrameTrace, frameTrace, dioAfter_append, dioAfter_append, dioAfter_sends]
    rfl
  rw [h3'] at h3
  generalize emitAll (linesTrace f) s = u at *
  rw [WireOnly] at w
  rw [w, h1, h2, h3, hp, hl, hchip, hf]

end Sys2Proof.Machine
end

