-- ==== Sys2Proof/Laws/Step.lean ====
section
/-! SUPPORT. What a step can do, said once: what each answer of fetch means, and the cases of a step. -/

namespace Sys2Proof.Machine

/-- A request is refused only if it stands whole at the front of the host's bytes and decodes to no instruction
(R262). -/
theorem fetch_reject {s t : State} (h : fetch s = .reject t) :
    s.busy = false ∧ s.rawIn = [] ∧
      ∃ why rest, decode (.request s.hostIn) = .rejected why rest ∧ t = { s with hostIn := rest } := by
  unfold fetch at h
  split at h
  · cases h
  · rename_i hb
    split at h
    · unfold fetchTransaction at h
      split at h <;> cases h
    · rename_i hr
      unfold fetchRequest at h
      split at h
      · cases h
      · rename_i hd
        cases h
        exact ⟨hb, hr, _, _, hd, rfl⟩
      · cases h

/-- A transaction of none of the described forms comes from `rawIn`. -/
theorem fetch_undescribed {s t : State} {sent : List Byte} {n : Nat} (h : fetch s = .undescribed sent n t) :
    s.busy = false ∧ ∃ later, s.rawIn = (sent, n) :: later ∧ t = { s with rawIn := later } := by
  unfold fetch at h
  split at h
  · cases h
  · rename_i hb
    split at h
    · rename_i hr
      unfold fetchTransaction at h
      split at h
      · cases h
      · cases h
        exact ⟨hb, _, hr, rfl⟩
    · unfold fetchRequest at h
      split at h <;> cases h

/-- An instruction comes from the host's bytes or, before them, from `rawIn`. -/
theorem fetch_run {s t : State} {i : Instr} (h : fetch s = .run i t) :
    s.busy = false ∧
      ((s.rawIn = [] ∧ ∃ rest, decode (.request s.hostIn) = .instr i rest ∧ t = { s with hostIn := rest }) ∨
        ∃ sent n later rest, s.rawIn = (sent, n) :: later ∧ decode (.transaction sent n) = .instr i rest ∧
          t = { s with rawIn := later }) := by
  unfold fetch at h
  split at h
  · cases h
  · rename_i hb
    split at h
    · rename_i hr
      unfold fetchTransaction at h
      split at h
      · rename_i hd
        cases h
        exact ⟨hb, .inr ⟨_, _, _, _, hr, hd, rfl⟩⟩
      · cases h
    · rename_i hr
      unfold fetchRequest at h
      split at h
      · cases h
      · cases h
      · rename_i hd
        cases h
        exact ⟨hb, .inl ⟨hr, _, hd, rfl⟩⟩

/-- The cases of a step: nothing to run, a refused request, a transaction of no described form, or an instruction;
then the reset input. -/
theorem step_cases (s : State) :
    (fetch s = .hold ∧ step s = .next (settleIdle s)) ∨
    (∃ t, fetch s = .reject t ∧ step s = .next (settleReset t (rejectRequest t))) ∨
    (∃ sent n t, fetch s = .undescribed sent n t ∧ step s = .next (settleReset t (runTransaction sent n t))) ∨
    (∃ i t u, fetch s = .run i t ∧ exec i t = .next u ∧ step s = .next (settleReset t u)) := by
  rw [step]
  cases fetch s with
  | hold => exact .inl ⟨rfl, rfl⟩
  | reject t => exact .inr (.inl ⟨t, rfl, rfl⟩)
  | undescribed sent n t => exact .inr (.inr (.inl ⟨sent, n, t, rfl, rfl⟩))
  | run i t =>
    obtain ⟨u, hu, -⟩ := exec_endsAs i t
    exact .inr (.inr (.inr ⟨i, t, u, rfl, hu, by simp only [hu]⟩))

/-! ## Reset -/

/-- With no reset input the step is the operation. -/
theorem settleReset_none {s t : State} (h : s.resetAt = none) : settleReset s t = t := by
  simp only [settleReset, h]

/-- Reset reaches the chip only through an edge of STB (R290, R291). -/
theorem resetBlock_chip (s : State) (h : s.stb = true) : (resetBlock s).chip = s.chip := by
  show (driveStbLine true s).chip = s.chip
  simp [driveStbLine, h]

/-- A property of the chip that no edge ends survives reset in the middle of an operation. -/
theorem abandonOperation_chip {P : Chip → Prop} (hP : ChipClosed P) (es : List Event) (s : State)
    (h : P s.chip) : P (abandonOperation es s).chip := by
  unfold abandonOperation
  have h1 : P (emitAll es (acceptOperation s)).chip := emitAll_chip hP es _ h
  generalize emitAll es (acceptOperation s) = u at *
  have h2 : P (resetBlock u).chip := by
    show P (driveStbLine true u).chip
    unfold driveStbLine State.onChip
    cases u.stb <;> cases u.bus <;> first | exact hP.strobeRise _ h1 | exact h1
  generalize resetBlock u = v at *
  unfold State.onChip
  split
  · exact hP.abandoned _ h2
  · exact h2

/-- A power-on of the chip between two steps keeps the machine invariant, and HAZARD (R63, R79). -/
theorem powerCycleChip_inv {s : State} (h : s.Inv) :
    (powerCycleChip s).Inv ∧ (powerCycleChip s).chip.hazard = s.chip.hazard := by
  obtain ⟨⟨h1, h2, h3, h4, _, _, _⟩, hc, _, _, hb⟩ := h
  exact ⟨⟨⟨h1, h2, h3, h4, rfl, rfl, rfl⟩, hc, rfl, (fun _ h => by cases h), hb⟩, rfl⟩

end Sys2Proof.Machine
end

