-- ==== Sys2Proof/Laws/Hazard.lean ====
section
/-! SUPPORT. HAZARD cases c, d and e (R79): what havocs all chip state, that fresh draws stay what they are to the end
of the transaction, and which transactions come to that. -/

namespace Sys2Proof.Machine

/-! ## Draws are never taken back -/

/-- Accepting a byte takes draws and gives none back. -/
theorem acceptByte_draws (c : Chip) (v : Byte) : c.draws ≤ (c.acceptByte v).draws := by
  unfold Chip.acceptByte
  split
  · exact le_rfl
  · unfold Chip.acceptCommand
    split
    · exact le_rfl
    · exact le_rfl
    · unfold Chip.dataRead Chip.drawKeys
      split
      · exact le_rfl
      · simp only
        split <;> omega
    · exact le_rfl
    · exact Nat.le_add_right _ _
  · exact Nat.le_add_right _ _
  · unfold Chip.storeByte
    split
    · split
      · exact le_rfl
      · exact Nat.le_add_right _ _
    · exact Nat.le_add_right _ _
  · exact Nat.le_add_right _ _
  · exact le_rfl

/-- Presenting a bit takes draws and gives none back. -/
theorem presentBit_draws (c : Chip) : c.draws ≤ c.presentBit.draws := by
  unfold Chip.presentBit
  split
  · exact le_rfl
  · exact Nat.le_add_right _ 24

/-- Latching a bit takes draws and gives none back. -/
theorem latchBit_draws (c : Chip) (b : Bool) : c.draws ≤ (c.latchBit b).draws := by
  unfold Chip.latchBit
  split
  · exact le_rfl
  · split
    · exact acceptByte_draws { c with bits := [] } _
    · exact le_rfl

/-- No edge gives a draw back. -/
theorem draws_closed (k : Nat) : ChipClosed (fun c => k ≤ c.draws) where
  strobeFall _ h := h
  strobeRise c h := by
    unfold Chip.strobeRise
    split
    · exact h.trans (Nat.le_add_right _ 23)
    · exact h
  clockFall c r l h := by
    unfold Chip.clockFall
    split
    · exact h
    · split
      · exact h.trans (presentBit_draws c)
      · exact h.trans (latchBit_draws c l)
  draw _ h := h.trans (Nat.le_add_right _ 1)
  abandoned _ h := h.trans (Nat.le_add_right _ 23)

/-! ## What havocs all chip state -/

/-- A havoc of all chip state leaves it at the draws from the next one on (R79). -/
theorem havocAll_allDrawn (c : Chip) : c.havocAll.AllDrawn c.draws :=
  ⟨rfl, fun _ => rfl, rfl, rfl, rfl, rfl, rfl, rfl⟩

/-- So does a transaction cut short, HAZARD case e (R79). -/
theorem abandoned_allDrawn (c : Chip) : c.abandoned.AllDrawn c.draws :=
  ⟨rfl, fun _ => rfl, rfl, rfl, rfl, rfl, rfl, rfl⟩

/-- HAZARD case c: a command byte that is none of the four kinds (R79, R106). -/
theorem acceptCommand_reserved (c : Chip) {v : Byte} (h : classify v = none) : c.acceptCommand v = c.havocAll := by
  rw [Chip.acceptCommand, h]

/-- The chip after HAZARD case c or d, inside the transaction: all its state at fresh draws from k on, and nothing
more interpreted. -/
structure Chip.Havocked (k : Nat) (c : Chip) : Prop where
  phase : c.phase = .ended
  bits : c.bits = []
  draws : k ≤ c.draws
  drawn : ∃ n, k ≤ n ∧ c.AllDrawn n

theorem havocAll_havocked {k : Nat} {c : Chip} (h : k ≤ c.draws) : c.havocAll.Havocked k :=
  ⟨rfl, rfl, h.trans (Nat.le_add_right _ 23), _, h, havocAll_allDrawn c⟩

/-- No byte is interpreted any more. -/
theorem Chip.Havocked.acceptByte {k : Nat} {c : Chip} (h : c.Havocked k) (v : Byte) : c.acceptByte v = c := by
  rw [Chip.acceptByte, h.phase]

theorem Chip.Havocked.acceptBytes {k : Nat} {c : Chip} (h : c.Havocked k) (bs : List Byte) :
    bs.foldl Chip.acceptByte c = c := by
  induction bs with
  | nil => rfl
  | cons v bs ih => rw [List.foldl_cons, h.acceptByte, ih]

/-- HAZARD case d: a receive where the chip has nothing to present (R79). -/
theorem presentBit_havocked {k : Nat} {c : Chip} (hk : k ≤ c.draws) (h : ∀ b bs, c.phase ≠ .reading (b :: bs)) :
    c.presentBit.Havocked k := by
  unfold Chip.presentBit
  split
  · rename_i b bs hp
    exact absurd hp (h b bs)
  · exact ⟨rfl, rfl, hk.trans (Nat.le_add_right _ 24), _, hk, havocAll_allDrawn c⟩

/-- A falling CLK edge leaves a havocked chip havocked. -/
theorem Chip.Havocked.clockFall {k : Nat} {c : Chip} (h : c.Havocked k) (r l : Bool) :
    (c.clockFall r l).Havocked k := by
  unfold Chip.clockFall
  split
  · exact h
  · split
    · exact presentBit_havocked h.draws (fun b bs hp => by rw [h.phase] at hp; cases hp)
    · rw [Chip.latchBit, h.phase]
      exact h

/-- The end of the transaction leaves the draws as they are. -/
theorem Chip.Havocked.strobeRise {k : Nat} {c : Chip} (h : c.Havocked k) :
    ∃ n, k ≤ n ∧ c.strobeRise.AllDrawn n := by
  obtain ⟨n, hn, hd⟩ := h.drawn
  refine ⟨n, hn, ?_⟩
  have : c.cutShort = false := by rw [Chip.cutShort, h.phase, h.bits]; rfl
  rw [Chip.strobeRise, this]
  exact hd

/-- No event but an edge of STB ends the havoc. -/
theorem Chip.Havocked.emitAll {k : Nat} (es : List Event) (hes : ∀ v, .driveStb v ∉ es) (s : State)
    (hbus : s.bus = .attached) (h : s.chip.Havocked k) : (emitAll es s).chip.Havocked k := by
  induction es generalizing s with
  | nil => exact h
  | cons e es ih =>
    refine ih (fun v hv => hes v (List.mem_cons_of_mem _ hv)) _ ((emit_wireOnly e s).bus.trans hbus) ?_
    cases e with
    | driveStb v => exact absurd List.mem_cons_self (hes v)
    | driveClk v =>
      simp only [emit, applyEvent, driveClkLine]
      split
      · simp only [State.onChip, hbus]
        exact h.clockFall _ _
      · exact h
    | driveDio v => exact h
    | releaseDio => exact h
    | sample => simpa [emit, applyEvent, countSample, hbus] using h
    | wait d => exact h

/-! ## Transactions -/

/-- Receiving leaves STB alone. -/
theorem driveStb_not_mem_receives (n : Nat) (v : Bool) : .driveStb v ∉ (List.replicate n receiveTrace).flatten := by
  intro h
  obtain ⟨es, hes, he⟩ := List.mem_flatten.mp h
  obtain rfl := (List.mem_replicate.mp hes).2
  have : ∀ v, Event.driveStb v ∉ receiveTrace := by decide
  exact this v he

/-- HAZARD case d: bytes received where the chip has nothing to present (R79). -/
theorem receives_havocked {k : Nat} (n : Nat) (s : State) (hbus : s.bus = .attached) (hclk : s.clk = true)
    (hk : k ≤ s.chip.draws) (hi : s.chip.phase ≠ .idle) (hr : ∀ b bs, s.chip.phase ≠ .reading (b :: bs)) :
    (receiveBytes (n + 1) s).2.chip.Havocked k := by
  rw [receiveBytes_emitAll]
  have split : (List.replicate (n + 1) receiveTrace).flatten =
      [.releaseDio, .driveClk false] ++ ((List.replicate (n + 1) receiveTrace).flatten.drop 2) := rfl
  rw [split, emitAll_append]
  have first : (emitAll [.releaseDio, .driveClk false] s).chip = s.chip.presentBit := by
    simp only [emitAll_cons, emitAll_nil, emit, applyEvent, driveClkLine, hclk]
    simp only [State.onChip, hbus]
    show s.chip.clockFall true _ = _
    unfold Chip.clockFall
    split
    · rename_i h; exact absurd h hi
    · rfl
  refine Chip.Havocked.emitAll _ (fun v hv => ?_) _ (((emitAll_wireOnly _ s).bus).trans hbus) ?_
  · exact driveStb_not_mem_receives (n + 1) v (List.mem_of_mem_drop hv)
  · rw [first]
    exact presentBit_havocked hk hr

/-- Inside a transaction, past its command byte, and with nothing to present. -/
def Chip.Mute (c : Chip) : Prop :=
  c.phase ≠ .idle ∧ c.phase ≠ .command ∧ ∀ b bs, c.phase ≠ .reading (b :: bs)

theorem mute_ended {c : Chip} (h : c.phase = .ended) : c.Mute := by
  simp [Chip.Mute, h]

/-- A byte sent never gives the chip something to present, past the command byte. -/
theorem Chip.Mute.acceptByte {c : Chip} (h : c.Mute) (v : Byte) : (c.acceptByte v).Mute := by
  obtain ⟨h1, h2, h3⟩ := h
  unfold Chip.acceptByte
  split
  · rename_i hp; exact absurd hp h1
  · rename_i hp; exact absurd hp h2
  · exact mute_ended rfl
  · rename_i hp
    unfold Chip.storeByte
    split
    · split
      · exact ⟨h1, h2, h3⟩
      · exact mute_ended rfl
    · exact mute_ended rfl
  · exact mute_ended rfl
  · exact ⟨h1, h2, h3⟩

theorem Chip.Mute.acceptBytes {c : Chip} (h : c.Mute) (bs : List Byte) : (bs.foldl Chip.acceptByte c).Mute := by
  induction bs generalizing c with
  | nil => exact h
  | cons v bs ih => exact ih (h.acceptByte v)

/-- Of the command bytes 0x42 alone is a read with auto-increment (R102, R106). -/
theorem classify_eq_dataRead : ∀ v : Byte, classify v = some (.dataRead false) → v = 0x42#8 := by decide +kernel

/-- The chip once STB has fallen and bytes have been sent has nothing to present, unless the one byte is 0x42. -/
theorem sent_presents_nothing (c : Chip) (sent : List Byte) (h : sent ≠ [0x42#8]) :
    (sent.foldl Chip.acceptByte c.strobeFall).phase ≠ .idle ∧
      ∀ b bs, (sent.foldl Chip.acceptByte c.strobeFall).phase ≠ .reading (b :: bs) := by
  cases sent with
  | nil => simp [Chip.strobeFall]
  | cons v payload =>
    rw [List.foldl_cons, show c.strobeFall.acceptByte v = c.strobeFall.acceptCommand v from rfl]
    have key : (payload.foldl Chip.acceptByte (c.strobeFall.acceptCommand v)).Mute := by
      cases hc : classify v with
      | none =>
        rw [acceptCommand_reserved _ hc]
        exact (mute_ended rfl).acceptBytes _
      | some cmd =>
        cases cmd with
        | displayControl d ppp =>
          refine Chip.Mute.acceptBytes ?_ _
          simp [Chip.acceptCommand, hc, Chip.displayControl, Chip.Mute]
        | dataWrite fixed =>
          refine Chip.Mute.acceptBytes ?_ _
          simp [Chip.acceptCommand, hc, Chip.dataWrite, Chip.Mute]
        | setAddress a =>
          refine Chip.Mute.acceptBytes ?_ _
          simp [Chip.acceptCommand, hc, Chip.setAddress, Chip.Mute]
        | dataRead fixed =>
          cases fixed with
          | true =>
            refine Chip.Mute.acceptBytes ?_ _
            simp [Chip.acceptCommand, hc, Chip.dataRead, Chip.Mute]
          | false =>
            obtain rfl := classify_eq_dataRead v hc
            cases payload with
            | nil => exact absurd rfl h
            | cons w payload =>
              refine Chip.Mute.acceptBytes (c := (c.strobeFall.acceptCommand 0x42#8).acceptByte w) ?_ payload
              simp [Chip.acceptCommand, hc, Chip.dataRead, Chip.acceptByte, Chip.Mute]
    exact ⟨key.1, key.2.2⟩

/-- A transaction's chip effect, phase by phase: STB falls, the bytes sent, the bytes received, STB rises. -/
theorem transaction_chip (sent : List Byte) (n : Nat) (s : State) (hbus : s.bus = .attached) (hstb : s.stb = true)
    (hclk : s.clk = true) :
    ∃ u : State, u.bus = .attached ∧ u.clk = true ∧ u.chip = sent.foldl Chip.acceptByte s.chip.strobeFall ∧
      (transaction sent n s).2.chip = (receiveBytes n u).2.chip.strobeRise := by
  have o : (openFrame s).chip = s.chip.strobeFall ∧ (openFrame s).bus = .attached ∧
      (openFrame s).clk = true ∧ (openFrame s).stb = false := by
    simp [openFrame, emit, applyEvent, driveStbLine, State.onChip, hbus, hstb, hclk]
  obtain ⟨o1, o2, o3, o4⟩ := o
  have b := sendBytes_chip sent (openFrame s) o2 o3 (by rw [o1]; rfl) (by rw [o1]; rfl)
  rw [o1] at b
  cases n with
  | zero =>
    refine ⟨sendBytes sent (openFrame s), ?_, ?_, b, ?_⟩
    · rw [sendBytes_emitAll, (emitAll_wireOnly _ _).bus, o2]
    · rw [sendBytes_emitAll, emitAll_clk]; exact clkAfter_sends _ o3
    · show (sendFrame sent s).chip = (sendBytes sent (openFrame s)).chip.strobeRise
      rw [sendFrame_chip _ s hbus hstb hclk, b]; rfl
  | succ n =>
    refine ⟨emit (.wait .tRdwait) (sendBytes sent (openFrame s)), ?_, ?_, b, ?_⟩
    · rw [(emit_wireOnly _ _).bus, sendBytes_emitAll, (emitAll_wireOnly _ _).bus, o2]
    · show (sendBytes sent (openFrame s)).clk = true
      rw [sendBytes_emitAll, emitAll_clk]; exact clkAfter_sends _ o3
    · have cl : ∀ t : State, t.bus = .attached → t.stb = false → (closeFrame t).chip = t.chip.strobeRise := by
        intro t h1 h2
        simp [closeFrame, emit, applyEvent, driveStbLine, State.onChip, h1, h2]
      refine cl _ ?_ ?_
      · rw [receiveBytes_emitAll, (emitAll_wireOnly _ _).bus, (emit_wireOnly _ _).bus, sendBytes_emitAll,
          (emitAll_wireOnly _ _).bus, o2]
      · rw [receiveBytes_emitAll, emitAll_stb]
        simp only [stbAfter_receives]
        show (sendBytes sent (openFrame s)).stb = false
        rw [sendBytes_emitAll, emitAll_stb]
        simp [o4]

end Sys2Proof.Machine
end

