-- ==== Sys2Proof/Laws/PerInstr.lean ====
section
/-! SUPPORT. For each instruction: the first word of its encoding lies in its row of the opcode table. -/

namespace Sys2Proof.Laws.Encoding

/-- The row of spec/opcode_table.json: its match and its mask. -/
def tableRow : Instr → Byte × Byte
  | .displayControl _ _ => (0x80#8, 0xF0#8)
  | .dataWrite _ => (0x40#8, 0xF7#8)
  | .dataRead => (0x42#8, 0xFF#8)
  | .setAddress _ _ => (0xC0#8, 0xF0#8)
  | .configureDisplay _ _ => (0x10#8, 0xF0#8)
  | .initWriteData _ => (0x20#8, 0xFE#8)
  | .writeData _ _ => (0x30#8, 0xFF#8)
  | .readScan => (0x40#8, 0xFF#8)
  | .writeDigits _ => (0x50#8, 0xFF#8)
  | .writeString _ => (0x60#8, 0xFF#8)
  | .readButtons => (0x70#8, 0xFF#8)
  | .buildDigits _ => (0x80#8, 0xFF#8)
  | .scramble _ => (0x90#8, 0xFF#8)
  | .unscramble _ => (0xA0#8, 0xFF#8)
  | .decodeScan _ => (0xB0#8, 0xFF#8)

/-- The bytes of an encoding that the block is given or sends. -/
def sourceBytes : Source → List Byte
  | .request bytes => bytes
  | .transaction sent _ => sent

/-- The first byte of the encoding has the fixed bits of the instruction's row. -/
def Statement (i : Instr) : Prop :=
  (sourceBytes (encode i)).head?.map (fun b => b &&& (tableRow i).2) = some (tableRow i).1

theorem displayControl (d : Bool) (ppp : BitVec 3) : Statement (.displayControl d ppp) := by
  unfold Statement
  revert d ppp
  decide

theorem dataWrite (fixed : Bool) : Statement (.dataWrite fixed) := by
  unfold Statement
  revert fixed
  decide

theorem dataRead : Statement .dataRead := by
  unfold Statement
  decide

theorem setAddress (aaaa : BitVec 4) (payload : List Byte) : Statement (.setAddress aaaa payload) := by
  have h : ∀ a : BitVec 4, setAddressByte (a.setWidth 8) &&& 0xF0#8 = 0xC0#8 := by decide
  exact congrArg some (h aaaa)

theorem configureDisplay (en : Bool) (pw : BitVec 3) : Statement (.configureDisplay en pw) := by
  unfold Statement
  revert en pw
  decide

theorem initWriteData (auto : Bool) : Statement (.initWriteData auto) := by
  unfold Statement
  revert auto
  decide

theorem writeData (address : Byte) (payload : List Byte) : Statement (.writeData address payload) :=
  congrArg some (by decide : headerByte 0x3#4 0#4 &&& 0xFF#8 = 0x30#8)

theorem readScan : Statement .readScan :=
  congrArg some (by decide : headerByte 0x4#4 0#4 &&& 0xFF#8 = 0x40#8)

theorem writeDigits (d : Octet) : Statement (.writeDigits d) :=
  congrArg some (by decide : headerByte 0x5#4 0#4 &&& 0xFF#8 = 0x50#8)

theorem writeString (text : List Byte) : Statement (.writeString text) :=
  congrArg some (by decide : headerByte 0x6#4 0#4 &&& 0xFF#8 = 0x60#8)

theorem readButtons : Statement .readButtons :=
  congrArg some (by decide : headerByte 0x7#4 0#4 &&& 0xFF#8 = 0x70#8)

theorem buildDigits (text : List Byte) : Statement (.buildDigits text) :=
  congrArg some (by decide : headerByte 0x8#4 0#4 &&& 0xFF#8 = 0x80#8)

theorem scramble (d : Octet) : Statement (.scramble d) :=
  congrArg some (by decide : headerByte 0x9#4 0#4 &&& 0xFF#8 = 0x90#8)

theorem unscramble (f : Octet) : Statement (.unscramble f) :=
  congrArg some (by decide : headerByte 0xA#4 0#4 &&& 0xFF#8 = 0xA0#8)

theorem decodeScan (s : Quad) : Statement (.decodeScan s) :=
  congrArg some (by decide : headerByte 0xB#4 0#4 &&& 0xFF#8 = 0xB0#8)

end Sys2Proof.Laws.Encoding
end

