-- ==== Sys2Proof/Machine/Assembly.lean ====
section
/-! DEFINITION. The textual syntax of host programs (R115) and its pseudo-instructions (R116): a source text
becomes operations, and these the request bytes a host presents. What a blank is, and that a line which does not fit
the table is refused, is the model's choice (notes/assumptions/12.md). -/

namespace Sys2Proof.Machine

/-! ## Tokens -/

/-- A token of a source line. -/
inductive Token where
  | word (chars : List Char)
  | number (value : Nat)
  | text (codes : List Byte)
  | comma
  deriving DecidableEq, Repr

/-- The value of a digit in a base. -/
def digitOf (base : Nat) (c : Char) : Option Nat :=
  let k := c.toNat
  let v :=
    if 48 ≤ k ∧ k ≤ 57 then k - 48
    else if 97 ≤ k ∧ k ≤ 102 then k - 87
    else if 65 ≤ k ∧ k ≤ 70 then k - 55
    else 16
  if v < base then some v else none

/-- Digits in a base, most significant first, after those already read. -/
def digitsFrom (base acc : Nat) : List Char → Option Nat
  | [] => some acc
  | c :: cs =>
    match digitOf base c with
    | some d => digitsFrom base (acc * base + d) cs
    | none => none

/-- A number: decimal, `0x..` or `0b..` (R115). -/
def numberOf : List Char → Option Nat
  | [] => none
  | '0' :: 'x' :: c :: cs => digitsFrom 16 0 (c :: cs)
  | '0' :: 'b' :: c :: cs => digitsFrom 2 0 (c :: cs)
  | c :: cs => digitsFrom 10 0 (c :: cs)

/-- A run of characters as a token: a number if it reads as one, else a word. -/
def runToken (chars : List Char) : Token :=
  match numberOf chars with
  | some n => .number n
  | none => .word chars

/-- Where the reader stands in a line. The characters and codes read so far stand last first. -/
inductive LexState where
  | between
  | inRun (chars : List Char)
  | inText (codes : List Byte)
  | escaped (codes : List Byte)
  | hexHigh (codes : List Byte)
  | hexLow (codes : List Byte) (high : Nat)
  deriving DecidableEq, Repr

/-- Codes with a meaning between tokens: blank, tab, carriage return; comma; semicolon; quotation mark. -/
def isBlank (c : Char) : Bool :=
  c.toNat == 32 || c.toNat == 9 || c.toNat == 13

def isComma (c : Char) : Bool := c.toNat == 44

def isSemicolon (c : Char) : Bool := c.toNat == 59

def isQuote (c : Char) : Bool := c.toNat == 34

def isBackslash (c : Char) : Bool := c.toNat == 92

/-- The tokens of a line; `;` starts a comment, and a text must be closed (R115). The code of a character written
unescaped in a text is its Unicode code point, and one above U+00FF is refused: R115 is silent beyond 8-bit codes, and
this is the model's choice (notes/assumptions/12.md). -/
def lexFrom : LexState → List Char → Option (List Token)
  | .between, [] => some []
  | .between, c :: cs =>
    if isSemicolon c then some []
    else if isBlank c then lexFrom .between cs
    else if isComma c then (lexFrom .between cs).map (.comma :: ·)
    else if isQuote c then lexFrom (.inText []) cs
    else lexFrom (.inRun [c]) cs
  | .inRun r, [] => some [runToken r.reverse]
  | .inRun r, c :: cs =>
    if isSemicolon c then some [runToken r.reverse]
    else if isBlank c then (lexFrom .between cs).map (runToken r.reverse :: ·)
    else if isComma c then (lexFrom .between cs).map (runToken r.reverse :: .comma :: ·)
    else if isQuote c then none
    else lexFrom (.inRun (c :: r)) cs
  | .inText _, [] => none
  | .inText t, c :: cs =>
    if isQuote c then (lexFrom .between cs).map (.text t.reverse :: ·)
    else if isBackslash c then lexFrom (.escaped t) cs
    else if c.toNat < 256 then lexFrom (.inText (BitVec.ofNat 8 c.toNat :: t)) cs
    else none
  | .escaped _, [] => none
  | .escaped t, c :: cs =>
    if isQuote c then lexFrom (.inText (0x22#8 :: t)) cs
    else if c.toNat = 120 then lexFrom (.hexHigh t) cs
    else none
  | .hexHigh _, [] => none
  | .hexHigh t, c :: cs =>
    match digitOf 16 c with
    | some h => lexFrom (.hexLow t h) cs
    | none => none
  | .hexLow _ _, [] => none
  | .hexLow t h, c :: cs =>
    match digitOf 16 c with
    | some l => lexFrom (.inText (BitVec.ofNat 8 (16 * h + l) :: t)) cs
    | none => none

/-! ## Operands -/

/-- The operands between commas. -/
def operandList : List Token → Option (List Token)
  | [] => some []
  | .comma :: _ => none
  | [t] => some [t]
  | t :: .comma :: rest =>
    match rest with
    | [] => none
    | _ :: _ => (operandList rest).map (t :: ·)
  | _ :: _ => none

/-- A byte operand, 0 to 255 (R115). -/
def byteOperand : Token → Option Byte
  | .number n => if n ≤ 255 then some (BitVec.ofNat 8 n) else none
  | _ => none

/-- Byte operands. -/
def byteOperands : List Token → Option (List Byte)
  | [] => some []
  | t :: ts =>
    match byteOperand t, byteOperands ts with
    | some b, some bs => some (b :: bs)
    | _, _ => none

/-- EN and PW: 0 or 1, and 0 to 7 (R115). -/
def displayOperands : List Token → Option (Bool × BitVec 3)
  | [.number en, .number pw] => if en ≤ 1 ∧ pw ≤ 7 then some (en == 1, BitVec.ofNat 3 pw) else none
  | _ => none

/-- Eight byte operands. -/
def octetOperands (ts : List Token) : Option Octet :=
  match byteOperands ts with
  | some bs => if bs.length = 8 then some (octetOf bs) else none
  | none => none

/-- Four byte operands. -/
def quadOperands (ts : List Token) : Option Quad :=
  match byteOperands ts with
  | some bs => if bs.length = 4 then some (quadOf bs) else none
  | none => none

/-- A text operand of at most MAX_TEXT characters (R9). -/
def textOperand : List Token → Option (List Byte)
  | [.text codes] => if codes.length ≤ 255 then some codes else none
  | _ => none

/-- An address and a payload of at most MAX_PAYLOAD bytes (R9). -/
def writeOperands (ts : List Token) : Option Instr :=
  match byteOperands ts with
  | some (a :: payload) => if payload.length ≤ 255 then some (.writeData a payload) else none
  | _ => none

/-! ## Lines -/

/-- The operation of a mnemonic and its operands: the table of R115, then the expansions of R116. -/
def operationOf (name : List Char) (ops : List Token) : Option Instr :=
  match name with
  | ['c', 'f', 'g'] => (displayOperands ops).map fun p => .configureDisplay p.1 p.2
  | ['i', 'n', 'i', 't', 'w'] =>
    match ops with
    | [.word ['a', 'u', 't', 'o']] => some (.initWriteData true)
    | [.word ['f', 'i', 'x', 'e', 'd']] => some (.initWriteData false)
    | _ => none
  | ['w', 'r'] => writeOperands ops
  | ['r', 'd', 's', 'c', 'a', 'n'] => if ops = [] then some .readScan else none
  | ['w', 'r', 'd', 'i', 'g'] => (octetOperands ops).map .writeDigits
  | ['w', 'r', 's', 't', 'r'] => (textOperand ops).map .writeString
  | ['r', 'd', 'b', 't', 'n'] => if ops = [] then some .readButtons else none
  | ['b', 'u', 'i', 'l', 'd'] => (textOperand ops).map .buildDigits
  | ['s', 'c', 'r'] => (octetOperands ops).map .scramble
  | ['u', 'n', 's', 'c', 'r'] => (octetOperands ops).map .unscramble
  | ['d', 'e', 'c'] => (quadOperands ops).map .decodeScan
  | ['i', 'n', 'i', 't'] => if ops = [] then some (.initWriteData true) else none
  | ['b', 'r', 'i', 'g', 'h', 't'] => (displayOperands (.number 1 :: ops)).map fun p => .configureDisplay p.1 p.2
  | ['d', 'i', 's', 'p', 'o', 'f', 'f'] => if ops = [] then some (.configureDisplay false 0#3) else none
  | ['c', 'l', 'e', 'a', 'r'] => if ops = [] then some (.writeDigits (Vector.replicate 8 0#8)) else none
  | ['s', 'e', 't', 'a', 'd', 'd', 'r'] =>
    match byteOperands ops with
    | some [a] => some (.writeData a [])
    | _ => none
  | _ => none

/-- One line: no operation, or one (R115); none if it does not fit the table. -/
def assembleLine (line : List Char) : Option (List Instr) :=
  match lexFrom .between line with
  | some [] => some []
  | some (.word name :: rest) =>
    match operandList rest with
    | some ops => (operationOf name ops).map fun i => [i]
    | none => none
  | _ => none

/-- The lines of a source text. -/
def sourceLines : List Char → List (List Char)
  | [] => [[]]
  | c :: cs =>
    if c.toNat = 10 then [] :: sourceLines cs
    else
      match sourceLines cs with
      | l :: ls => (c :: l) :: ls
      | [] => [[c]]

/-- The operations of lines, in order. -/
def assembleLines : List (List Char) → Option (List Instr)
  | [] => some []
  | l :: ls =>
    match assembleLine l, assembleLines ls with
    | some is, some js => some (is ++ js)
    | _, _ => none

/-- The operations of a source text (R115). -/
def assemble (source : String) : Option (List Instr) :=
  assembleLines (sourceLines source.toList)

/-- The request bytes of a program, in order (R108, R115). -/
def requestBytes (program : List Instr) : List Byte :=
  program.flatMap fun i =>
    match encode i with
    | .request bytes => bytes
    | .transaction _ _ => []

end Sys2Proof.Machine
end

