-- ==== Sys2Proof/Tests/Slice0.lean ====
section
/-! SUPPORT. Tests: expected values are those of spec/95_test_vectors.md, named in each comment, or written out from
the encodings of spec/30_encoding.md. Then one witness for the hypotheses of each statement. -/

namespace Sys2Proof.Tests

open Sys2Proof.Machine

/-! ## Small states -/

/-- The state an outcome leaves. -/
def stateAfter (o : Host.Outcome State Fault Refusal) : State :=
  match o with
  | .next s => s
  | _ => State.reset

/-- A reset block with REF_FONT, this chip, and these bytes presented. -/
def presenting (c : Chip) (bytes : List Byte) : State :=
  { State.reset with chip := c, hostIn := bytes, params := { Config.params with font := Config.refFont } }

/-- The state after the next step. -/
def after (c : Chip) (bytes : List Byte) : State :=
  stateAfter (step (presenting c bytes))

/-- A chip in write mode. -/
def writeChip (ainc : AddressMode) : Chip :=
  { Chip.powerOn with mode := .write, ainc := ainc }

/-- A chip whose next read sees these keys and these unmapped bits. -/
def keyChip (keys : Buttons) (others : Byte) : Chip :=
  { Chip.powerOn with keypad := [⟨keys, Vector.replicate 4 others⟩] }

/-- A reset block with this chip. -/
def withChip (c : Chip) : State :=
  { State.reset with chip := c }

/-- A block with nothing at the other end of the wire (R76). -/
def silent : State :=
  { State.reset with bus := .silent }

/-! ## WellFormed: an ill-formed term for each check (R9, R110) -/

theorem test_wf_payload_of_256 : (Instr.writeData 0#8 (List.replicate 256 0#8)).wellFormed = false := by decide +kernel
theorem test_wf_text_of_256 : (Instr.writeString (List.replicate 256 0#8)).wellFormed = false := by decide +kernel
theorem test_wf_build_of_256 : (Instr.buildDigits (List.replicate 256 0#8)).wellFormed = false := by decide +kernel
theorem test_wf_text_of_255 : (Instr.writeString (List.replicate 255 0#8)).wellFormed = true := by decide +kernel

/-! ## Decoding, each constructor from a word written out from the spec -/

/-- `10 00 D PPP` with D = 0, PPP = 3 (R101). -/
theorem test_decode_displayControl :
    decode (.transaction [0b10000011#8] 0) = .instr (.displayControl false 3#3) [] := by decide
/-- `01 00 I t MM` with I = 0, MM = 00 (R102). -/
theorem test_decode_dataWrite : decode (.transaction [0b01000000#8] 0) = .instr (.dataWrite false) [] := by decide
/-- `01 00 0 010` and four received bytes (R102, R107). -/
theorem test_decode_dataRead : decode (.transaction [0b01000010#8] 4) = .instr .dataRead [] := by decide
/-- `11 00 AAAA` with AAAA = 0xA and two payload bytes (R103, R107). -/
theorem test_decode_setAddress :
    decode (.transaction [0b11001010#8, 1#8, 2#8] 0) = .instr (.setAddress 0xA#4 [1#8, 2#8]) [] := by decide
/-- OP 0x1, ARG = 0b1101 (R109). -/
theorem test_decode_configureDisplay :
    decode (.request [0b00011101#8]) = .instr (.configureDisplay true 5#3) [] := by decide
/-- OP 0x2, ARG = 0 (R109). -/
theorem test_decode_initWriteData :
    decode (.request [0b00100000#8]) = .instr (.initWriteData false) [] := by decide
/-- OP 0x3, ADDR, N, payload (R110); the next header stays. -/
theorem test_decode_writeData :
    decode (.request [0x30#8, 0xFF#8, 0x01#8, 0x12#8, 0x40#8]) =
      .instr (.writeData 0xFF#8 [0x12#8]) [0x40#8] := by decide
/-- OP 0x4 (R109). -/
theorem test_decode_readScan : decode (.request [0x40#8, 0x70#8]) = .instr .readScan [0x70#8] := by decide
/-- OP 0x5 and eight bytes, digit index 0 first (R110). -/
theorem test_decode_writeDigits :
    decode (.request [0x50#8, 1#8, 2#8, 3#8, 4#8, 5#8, 6#8, 7#8, 8#8]) =
      .instr (.writeDigits #v[1#8, 2#8, 3#8, 4#8, 5#8, 6#8, 7#8, 8#8]) [] := by decide
/-- OP 0x6, L, characters (R110). -/
theorem test_decode_writeString :
    decode (.request [0x60#8, 0x02#8, 0x31#8, 0x2E#8]) = .instr (.writeString [0x31#8, 0x2E#8]) [] := by decide
/-- OP 0x7 (R109). -/
theorem test_decode_readButtons : decode (.request [0x70#8]) = .instr .readButtons [] := by decide
/-- OP 0x8, L = 0 (R110). -/
theorem test_decode_buildDigits : decode (.request [0x80#8, 0x00#8]) = .instr (.buildDigits []) [] := by decide
/-- OP 0x9 and eight bytes (R110). -/
theorem test_decode_scramble :
    decode (.request [0x90#8, 9#8, 2#8, 3#8, 4#8, 5#8, 6#8, 7#8, 8#8]) =
      .instr (.scramble #v[9#8, 2#8, 3#8, 4#8, 5#8, 6#8, 7#8, 8#8]) [] := by decide
/-- OP 0xA and eight bytes (R110). -/
theorem test_decode_unscramble :
    decode (.request [0xA0#8, 1#8, 2#8, 3#8, 4#8, 5#8, 6#8, 7#8, 9#8]) =
      .instr (.unscramble #v[1#8, 2#8, 3#8, 4#8, 5#8, 6#8, 7#8, 9#8]) [] := by decide
/-- OP 0xB and four bytes (R110). -/
theorem test_decode_decodeScan :
    decode (.request [0xB0#8, 1#8, 2#8, 3#8, 4#8]) = .instr (.decodeScan #v[1#8, 2#8, 3#8, 4#8]) [] := by decide

/-- L2-E1, L2-E2, L2-E3: reserved OP, one byte consumed. -/
theorem test_decode_reserved_op :
    decode (.request [0x00#8, 7#8]) = .rejected .reservedOp [7#8] ∧
    decode (.request [0xC0#8]) = .rejected .reservedOp [] ∧
    decode (.request [0xF5#8]) = .rejected .reservedOp [] := by decide
/-- L2-C7, L2-C14, L2-E5: a reserved ARG bit, the full request consumed. -/
theorem test_decode_reserved_arg :
    decode (.request [0x23#8]) = .rejected .reservedArg [] ∧
    decode (.request [0x31#8, 0#8, 0#8, 9#8]) = .rejected .reservedArg [9#8] ∧
    decode (.request [0x61#8, 0x01#8, 0x5A#8]) = .rejected .reservedArg [] := by decide
/-- Bytes still to come (R108). -/
theorem test_decode_incomplete :
    decode (.request []) = .incomplete ∧ decode (.request [0x30#8, 1#8]) = .incomplete ∧
    decode (.request [0x60#8, 2#8, 0x31#8]) = .incomplete := by decide
/-- Reserved command bytes and transactions of none of the forms R69 to R72 (R105). -/
theorem test_decode_undescribed :
    (∀ c ∈ [0x00#8, 0x3F#8, 0x44#8, 0x41#8, 0x43#8, 0x90#8, 0x50#8, 0xE0#8],
      decode (.transaction [c] 0) = .rejected .undescribedTransaction []) ∧
    decode (.transaction [0x80#8, 1#8] 0) = .rejected .undescribedTransaction [] ∧
    decode (.transaction [0x42#8] 5) = .rejected .undescribedTransaction [] ∧
    decode (.transaction [] 0) = .rejected .undescribedTransaction [] := by decide
/-- R104, L1-12: the bytes the encoder builds. -/
theorem test_encode_words :
    encode (.displayControl true 7#3) = .transaction [0x8F#8] 0 ∧
    encode (.dataWrite true) = .transaction [0x48#8] 0 ∧
    encode .dataRead = .transaction [0x42#8] 4 ∧
    encode (.configureDisplay false 0#3) = .request [0x10#8] ∧
    encode (.initWriteData true) = .request [0x21#8] ∧
    encode (.writeData 0x11#8 [0xAA#8]) = .request [0x30#8, 0x11#8, 0x01#8, 0xAA#8] := by decide

/-! ## One step of each instruction -/

/-- L2-C1. -/
theorem test_configureDisplay :
    let t := after Chip.powerOn [0x1F#8]
    (t.response, t.chip.dispEn, t.chip.pw, t.log.length) = ([0x00#8], true, 7#3, 52) := by decide +kernel
/-- L2-C4: off, PW stored. -/
theorem test_configureDisplay_off :
    let t := after Chip.powerOn [0x13#8]
    (t.chip.dispEn, t.chip.pw, t.chip.hazard) = (false, 3#3, false) := by decide +kernel
/-- L2-C5. -/
theorem test_initWriteData_auto :
    let t := after Chip.powerOn [0x21#8]
    (t.response, t.chip.mode, t.chip.ainc) = ([0x00#8], .write, .auto) := by decide +kernel
/-- L2-C6. -/
theorem test_initWriteData_fixed :
    let t := after Chip.powerOn [0x20#8]
    (t.chip.mode, t.chip.ainc) = (.write, .fixed) := by decide +kernel
/-- L2-C8. -/
theorem test_writeData_auto :
    let t := after (writeChip .auto) [0x30#8, 0x11#8, 0x02#8, 0xAA#8, 0x55#8]
    (t.response, t.chip.dram, t.chip.ptr) = ([0x00#8], [(1, 0xAA#8), (2, 0x55#8)], some 3#4) := by decide +kernel
/-- L2-C12: HAZARD case b. -/
theorem test_writeData_overflow :
    let t := after (writeChip .auto) [0x30#8, 0x0E#8, 0x03#8, 0x01#8, 0x02#8, 0x03#8]
    (t.response, t.chip.dram, t.chip.hazard) = ([0x00#8], [], true) := by decide +kernel
/-- L2-C15. -/
theorem test_readScan :
    let t := after (keyChip 0x0001#16 0x00#8) [0x40#8]
    (t.response, t.chip.mode, t.log.length) = ([0x00#8, 0x20#8, 0x00#8, 0x00#8, 0x00#8], .read, 217) := by
  decide +kernel
/-- L2-C18: only drawn bits set. -/
theorem test_readScan_drawn_bits :
    (after (keyChip 0x0000#16 0xFF#8) [0x40#8]).response = [0x00#8, 0x99#8, 0x99#8, 0x99#8, 0x99#8] := by
  decide +kernel
/-- L2-S13, L2-S16: address mode fixed. -/
theorem test_writeDigits :
    let t := after (writeChip .fixed) [0x50#8, 0x06#8, 0#8, 0#8, 0#8, 0#8, 0#8, 0#8, 0#8]
    (t.chip.dram, t.chip.ptr, t.log.length) =
      ([(0, 0#8), (2, 0x80#8), (4, 0x80#8), (6, 0#8), (8, 0#8), (10, 0#8), (12, 0#8), (14, 0#8)],
        some 14#4, 800) := by decide +kernel
/-- L3 P4: in read mode the write is HAZARD case a and the response is OK all the same. -/
theorem test_writeDigits_in_read_mode :
    let t := after { Chip.powerOn with mode := .read } [0x50#8, 0x06#8, 0#8, 0#8, 0#8, 0#8, 0#8, 0#8, 0#8]
    (t.response, t.chip.hazard, t.log.length) = ([0x00#8], true, 800) := by decide +kernel
/-- L2-S18: `12345678.` keeps the point on digit index 7. -/
theorem test_writeString :
    let t := after (writeChip .auto)
      [0x60#8, 9#8, 0x31#8, 0x32#8, 0x33#8, 0x34#8, 0x35#8, 0x36#8, 0x37#8, 0x38#8, 0x2E#8]
    (t.digits.toList, t.frame.toList) =
      ([0x06#8, 0x5B#8, 0x4F#8, 0x66#8, 0x6D#8, 0x7D#8, 0x07#8, 0xFF#8],
       [0x6F#8, 0xF3#8, 0xBF#8, 0x6D#8, 0x45#8, 0x1D#8, 0x7D#8, 0x01#8]) := by decide +kernel
/-- L2-S20, L2-R5: an unknown character past the eighth digit. -/
theorem test_writeString_unknown :
    let t := after (writeChip .auto)
      [0x60#8, 10#8, 0x31#8, 0x32#8, 0x33#8, 0x34#8, 0x35#8, 0x36#8, 0x37#8, 0x38#8, 0x39#8, 0x5A#8]
    (t.response, t.log, t.errIndex, t.errChar, t.status) =
      ([0x01#8, 0x09#8, 0x5A#8], [], 0x09#8, 0x5A#8, 0x02#8) := by decide +kernel
/-- L2-K17. -/
theorem test_readButtons :
    (after (keyChip 0x8101#16 0x99#8) [0x70#8]).response = [0x00#8, 0x01#8, 0x81#8] := by decide +kernel
/-- L2-K18. -/
theorem test_readButtons_silent :
    (stateAfter (step { silent with hostIn := [0x70#8] })).response = [0x00#8, 0xFF#8, 0xFF#8] := by
  decide +kernel
/-- L2-F2. -/
theorem test_buildDigits :
    (after Chip.powerOn [0x80#8, 4#8, 0x31#8, 0x2E#8, 0x32#8, 0x2E#8]).response =
      [0x00#8, 0x02#8, 0x86#8, 0xDB#8] := by decide +kernel
/-- L1-4a: `1..2` without an entry for the point. -/
theorem test_buildDigits_two_points :
    (after Chip.powerOn [0x80#8, 4#8, 0x31#8, 0x2E#8, 0x2E#8, 0x32#8]).response =
      [0x01#8, 0x02#8, 0x2E#8] := by decide +kernel
/-- L2-S7. -/
theorem test_scramble :
    (after Chip.powerOn [0x90#8, 0x12#8, 0x34#8, 0x56#8, 0x78#8, 0x9A#8, 0xBC#8, 0xDE#8, 0xF0#8]).response =
      [0x00#8, 0x00#8, 0xAA#8, 0x66#8, 0x1E#8, 0xFF#8, 0x55#8, 0x33#8, 0x0F#8] := by decide +kernel
/-- L2-S8. -/
theorem test_unscramble :
    (after Chip.powerOn [0xA0#8, 0x00#8, 0xAA#8, 0x66#8, 0x1E#8, 0xFF#8, 0x55#8, 0x33#8, 0x0F#8]).response =
      [0x00#8, 0x12#8, 0x34#8, 0x56#8, 0x78#8, 0x9A#8, 0xBC#8, 0xDE#8, 0xF0#8] := by decide +kernel
/-- L2-K16. -/
theorem test_decodeScan :
    (after Chip.powerOn [0xB0#8, 0x60#8, 0#8, 0#8, 0x04#8]).response = [0x00#8, 0x01#8, 0x81#8] := by
  decide +kernel
/-- L2-K12: only ignored bits set. -/
theorem test_decodeScan_ignored :
    (after Chip.powerOn [0xB0#8, 0x99#8, 0x99#8, 0x99#8, 0x99#8]).response = [0x00#8, 0x00#8, 0x00#8] := by
  decide +kernel

/-- R101, R65: the wire command itself. -/
theorem test_wire_displayControl :
    let t := stateAfter (step { State.reset with rawIn := [([0x8A#8], 0)] })
    (t.chip.dispEn, t.chip.pw, t.chip.hazard) = (true, 2#3, false) := by decide +kernel
/-- R102, R64. -/
theorem test_wire_dataWrite :
    let t := stateAfter (step { State.reset with rawIn := [([0x48#8], 0)] })
    (t.chip.mode, t.chip.ainc) = (.write, .fixed) := by decide +kernel
/-- L2-C17 on the wire: all keys, drawn bits 0. -/
theorem test_wire_dataRead :
    let t := stateAfter (step { withChip (keyChip 0xFFFF#16 0x00#8) with rawIn := [([0x42#8], 4)] })
    (t.rawOut, t.chip.mode) = ([0x66#8, 0x66#8, 0x66#8, 0x66#8], .read) := by decide +kernel
/-- L2-C11 on the wire: the pointer only, in any mode. -/
theorem test_wire_setAddress :
    let t := stateAfter (step { State.reset with rawIn := [([0xC5#8], 0)] })
    (t.chip.ptr, t.chip.hazard) = (some 5#4, false) := by decide +kernel
/-- R79 case c and case d: a reserved command byte, and a fifth receive. -/
theorem test_wire_hazards :
    (stateAfter (step { State.reset with rawIn := [([0x44#8], 0)] })).chip.hazard = true ∧
    (stateAfter (step { State.reset with rawIn := [([0x42#8], 5)] })).chip.hazard = true := by decide +kernel

/-- L2-T1: SEND_BYTE(0x8F) drives 1, 1, 1, 1, 0, 0, 0, 1. -/
theorem test_sendByte : drivenBits (sendTrace 0x8F#8) =
    [true, true, true, true, false, false, false, true] := by decide
/-- L2-T7: the samples 0, 0, 0, 0, 0, 1, 0, 0 give 0x20. -/
theorem test_receiveByte :
    packBits [false, false, false, false, false, true, false, false] = 0x20#8 := by decide

/-- L2-E4: the byte after an illegal header is a new header. -/
theorem test_illegal_header :
    let t := after Chip.powerOn [0xD0#8, 0x1F#8]
    (t.response, t.hostIn, t.status) = ([0x02#8], [0x1F#8], 0x04#8) := by decide +kernel
/-- L2-F14, R268: CAUSE is not sticky, ERR_INDEX and ERR_CHAR are. -/
theorem test_error_registers_stay :
    let t := stateAfter (step { presenting Chip.powerOn [0x80#8, 0#8] with
      cause := 1#3, errIndex := 1#8, errChar := 0x5A#8 })
    (t.cause, t.errIndex, t.errChar) = (0#3, 1#8, 0x5A#8) := by decide +kernel
/-- L2-R2: reset during a WRITE_DIGITS. -/
theorem test_reset_during_writeDigits :
    let t := stateAfter (step { presenting (writeChip .auto)
      [0x50#8, 6#8, 0#8, 0#8, 0#8, 0#8, 0#8, 0#8, 0#8] with resetAt := some 60 })
    (t.response, t.stb, t.chip.hazard) = ([], true, true) := by decide +kernel
/-- L2-R1: STATUS after reset. -/
theorem test_reset_status : (State.reset.status, State.reset.stb, State.reset.dio) = (0x00#8, true, .released) := by
  decide

/-- A row's word as the first instruction after reset: 0x70 is READ_BUTTONS (R109). -/
theorem test_withFetchWord :
    decodeTableWord 8 0x70 = some .readButtons ∧ decodeTableWord 8 0xC5 = some (.setAddress 5#4 []) ∧
    decodeTableWord 8 0x42 = some .dataRead ∧ decodeTableWord 8 0x1F = some (.configureDisplay true 7#3) := by
  decide
theorem test_withFetchWord_step : ∃ t, step (State.reset.withFetchWord 8 0x70) = .next t := ⟨_, rfl⟩

/-- Program P1 in the syntax of R115. -/
theorem test_assemble_P1 :
    (assemble "cfg 1, 7 ; on\ninitw auto\nwrstr \"1.2\"").map requestBytes =
      some [0x1F#8, 0x21#8, 0x60#8, 3#8, 0x31#8, 0x2E#8, 0x32#8] := by decide +kernel
/-- The pseudo-instructions of R116. -/
theorem test_assemble_pseudo :
    (assemble "init\nbright 3\ndispoff\nsetaddr 9").map requestBytes =
      some [0x21#8, 0x1B#8, 0x10#8, 0x30#8, 9#8, 0#8] := by decide +kernel

/-! ## Witnesses: a state and operands that meet each statement's hypotheses -/

/-- WRITE_DIGITS of zeros, presented to a block with reset arriving after n events. -/
def resetting (n : Nat) : State :=
  { State.reset with
    hostIn := [0x50#8, 0#8, 0#8, 0#8, 0#8, 0#8, 0#8, 0#8, 0#8], resetAt := some n }

theorem reset_inv : State.reset.Inv := by
  refine ⟨⟨rfl, rfl, rfl, rfl, rfl, rfl, rfl⟩, by decide, rfl, ?_, by decide, ?_⟩
  · intro _ h
    cases h
  · intro k h
    cases h

theorem witness_EveryStepKeepsInvariant : ∃ s t : State, s.Inv ∧ step s = .next t :=
  ⟨State.reset, _, reset_inv, rfl⟩

theorem witness_StepRunsDecodedInstruction_request :
    let s := { State.reset with hostIn := [0x1F#8] }
    s.busy = false ∧ s.resetAt = none ∧ s.rawIn = [] ∧
      decode (.request s.hostIn) = .instr (.configureDisplay true 7#3) [] := by decide
theorem witness_StepRunsDecodedInstruction_transaction :
    let s := { State.reset with rawIn := [([0x42#8], 4)] }
    s.busy = false ∧ s.resetAt = none ∧ s.rawIn = [([0x42#8], 4)] ∧
      decode (.transaction [0x42#8] 4) = .instr .dataRead [] := by decide

theorem witness_RequestsAreHeldUntilTheyCanRun :
    ({ State.reset with busy := true }.resetAt = none ∧ { State.reset with busy := true }.busy = true) ∧
    (State.reset.resetAt = none ∧ State.reset.rawIn = [] ∧
      decode (.request State.reset.hostIn) = .incomplete) := by decide

theorem witness_IllegalRequestIsRefused_op : ∀ h ∈ [0x00#8, 0xC0#8, 0xFF#8],
    ((opField h).toNat = 0 ∨ 12 ≤ (opField h).toNat) := by decide
theorem witness_IllegalRequestIsRefused_arg_2 :
    let h := 0x22#8
    1 ≤ (opField h).toNat ∧ (opField h).toNat ≤ 11 ∧ operandBytes (opField h) [] = some 0 ∧
      (opField h).toNat = 2 ∧ (argField h).extractLsb' 1 3 ≠ 0#3 := by decide
theorem witness_IllegalRequestIsRefused_arg_3 :
    let h := 0x31#8
    let ops := [0#8, 1#8, 9#8]
    1 ≤ (opField h).toNat ∧ (opField h).toNat ≤ 11 ∧ operandBytes (opField h) ops = some 3 ∧ 3 ≤ ops.length ∧
      3 ≤ (opField h).toNat ∧ argField h ≠ 0#4 := by decide
theorem witness_IllegalRequestIsRefused_arg_11 :
    let h := 0xBF#8
    let ops := [0#8, 0#8, 0#8, 0#8]
    (opField h).toNat ≤ 11 ∧ operandBytes (opField h) ops = some 4 ∧ 4 ≤ ops.length ∧
      3 ≤ (opField h).toNat ∧ argField h ≠ 0#4 := by decide
theorem witness_IllegalRequestIsRefused_state :
    let s := { State.reset with hostIn := [0xBF#8, 0#8, 0#8, 0#8, 0#8] }
    s.busy = false ∧ s.rawIn = [] ∧ s.resetAt = none := by decide

theorem witness_DecodeOfEncode : (Instr.writeData 0xFF#8 (List.replicate 255 7#8)).wellFormed = true := by decide +kernel
theorem witness_EncodeOfDecode :
    decode (.request [0x80#8, 0#8, 1#8]) = .instr (.buildDigits []) [1#8] ∧
    decode (.transaction [0xC0#8] 0) = .instr (.setAddress 0#4 []) [] := by decide

theorem witness_DioIsAWiredAnd : State.reset.bus ≠ .faulty ∧ silent.bus ≠ .faulty := by decide

theorem witness_ReceiveByte_silent : silent.bus = .silent := rfl
theorem witness_ReceiveByte_attached :
    let s := withChip { Chip.powerOn with phase := .reading ([true, false, true, false, true, false, true, false] ++ []) }
    s.bus = .attached ∧ s.clk = true ∧
      s.chip.phase = .reading ([true, false, true, false, true, false, true, false] ++ []) := by decide

/-- The hypothesis that an operation answers a next state, met by each kind of operation. -/
theorem witness_exec_next (i : Instr) : State.reset.stb = true ∧ State.reset.clk = true ∧
    ∃ t, exec i State.reset = .next t := by
  obtain ⟨t, ht, -⟩ := exec_endsAs i State.reset
  exact ⟨rfl, rfl, t, ht⟩

/-- Both cases of WRITE_STRING in TraceShapesAreExact. -/
theorem witness_TraceShapesAreExact :
    (∃ t, exec (.writeString []) State.reset = .next t ∧ t.cause = 0#3) ∧
    (∃ t, exec (.writeString [0x5A#8]) (presenting Chip.powerOn []) = .next t ∧ t.cause = 1#3) :=
  ⟨⟨_, rfl, rfl⟩, ⟨_, rfl, rfl⟩⟩

/-- DisplayControlRuns, DataWriteRuns, DataReadRuns, SetAddressRuns, ConfigureDisplayRuns, InitWriteDataRuns,
WriteDataRuns, ReadScanRuns, WriteDigitsRuns, ReadButtonsReturnsTheKeys. -/
theorem witness_idle_attached : State.reset.bus = .attached ∧ State.reset.stb = true ∧ State.reset.clk = true := by
  decide

theorem witness_WriteDataMasksItsAddress : (0x11#8).extractLsb' 0 4 = (0xF1#8).extractLsb' 0 4 := by decide

theorem witness_WriteDataStoresAscending :
    let s := withChip (writeChip .auto)
    s.stb = true ∧ s.clk = true ∧ s.bus = .attached ∧ s.chip.mode = .write ∧ s.chip.ainc = .auto ∧
      (maskAddress 0x1E#8).toNat + [1#8, 2#8].length ≤ 16 ∧ (maskAddress 0xFF#8).toNat + ([] : List Byte).length ≤ 16 := by
  decide
theorem witness_WriteDataStoresAtFixedAddress :
    let s := withChip (writeChip .fixed)
    s.stb = true ∧ s.clk = true ∧ s.bus = .attached ∧ s.chip.mode = .write ∧ s.chip.ainc = .fixed := by decide
theorem witness_WriteWithoutInitIsAHazard :
    State.reset.chip.mode ≠ .write ∧ (withChip { Chip.powerOn with mode := .read }).chip.mode ≠ .write := by decide
theorem witness_PointerOverflowIsAHazard :
    let s := withChip (writeChip .auto)
    s.stb = true ∧ s.clk = true ∧ s.bus = .attached ∧ s.chip.mode = .write ∧ s.chip.ainc = .auto ∧
      16 < (maskAddress 0x0F#8).toNat + [1#8, 2#8].length := by decide
theorem witness_DisplayWritesAreIdempotent : ∃ t u : State,
    (withChip (writeChip .auto)).chip.mode = .write ∧ (withChip (writeChip .auto)).chip.ainc ≠ .unknown ∧
      (withChip (writeChip .auto)).chip.NoOverflow (maskAddress 0x0E#8) 2 ∧
      exec (.writeData 0x0E#8 [1#8, 2#8]) (withChip (writeChip .auto)) = .next t ∧
      exec (.writeData 0x0E#8 [1#8, 2#8]) t = .next u :=
  ⟨_, _, rfl, by decide, by decide, rfl, rfl⟩

theorem witness_SilentBusReadsAllOnes : silent.bus = .silent := rfl

theorem witness_WriteDigitsFillsTheEvenRegisters_digits (d : Octet) :
    let s := withChip (writeChip .fixed)
    s.stb = true ∧ s.clk = true ∧ s.bus = .attached ∧ s.chip.mode = .write ∧
      Instr.writeDigits d = .writeDigits d := ⟨rfl, rfl, rfl, rfl, rfl⟩
theorem witness_WriteDigitsFillsTheEvenRegisters_text :
    let s := presenting (writeChip .auto) []
    s.bus = .attached ∧ s.chip.mode = .write ∧
      Machine.buildDigits s.params.font [0x31#8, 0x2E#8] = .done [0x86#8] none := by decide

theorem witness_DisplayShowsTheDigits :
    let s := withChip { writeChip .auto with dispEn := true }
    s.Idle ∧ s.WriteReady ∧ s.chip.dispEn = true := by decide
theorem witness_BootOrderShowsTheDigits :
    State.reset.Idle ∧ State.reset.bus = .attached ∧ State.reset.chip.hazard = false := by decide
theorem witness_DisplayTearsBetweenTransactions : ∃ t,
    (withChip (writeChip .auto)).chip.mode = .write ∧ (0 : Nat) ≤ 8 ∧ (8 : Nat) ≤ 8 ∧
      exec (.writeDigits (Vector.replicate 8 1#8)) (withChip (writeChip .auto)) = .next t :=
  ⟨_, rfl, by decide, by decide, rfl⟩

theorem witness_BuildDigitsTakesOneMoreCharacter :
    Machine.buildDigits Config.refFont [0x31#8] = .done [0x06#8] (some 0) ∧
    Machine.buildDigits Config.refFont [0x31#8, 0x2E#8] = .done [0x86#8] none := by decide
theorem witness_FirstUnknownCharacterIsReported :
    Machine.buildDigits Config.refFont [0x31#8, 0x2E#8, 0x2E#8] = .unknown 2#8 0x2E#8 := by decide
theorem witness_FirstUnknownCharacterIsReported_at_254 :
    (List.replicate 254 0x31#8 ++ [0x5A#8]).length ≤ 255 ∧
      Machine.buildDigits Config.refFont (List.replicate 254 0x31#8 ++ [0x5A#8]) = .unknown 254#8 0x5A#8 := by
  decide +kernel
theorem witness_BuildDigitsRuns :
    Machine.buildDigits (presenting Chip.powerOn []).params.font [0x38#8, 0x2E#8] = .done [0xFF#8] none := by decide
theorem witness_UnknownCharacterEndsTheOperation :
    Machine.buildDigits (presenting Chip.powerOn []).params.font [0x5A#8] = .unknown 0#8 0x5A#8 := by decide
theorem witness_WriteStringRuns :
    let s := presenting Chip.powerOn []
    s.stb = true ∧ s.clk = true ∧ Machine.buildDigits s.params.font [] = .done [] none ∧
      Machine.buildDigits s.params.font (List.replicate 9 0x31#8) = .done (List.replicate 9 0x06#8) (some 8) := by
  decide

theorem witness_UnmappedScanBitsAreIgnored :
    let q : Quad := Vector.replicate 4 0xFF#8
    let r : Quad := Vector.replicate 4 0x66#8
    ∀ k : Fin 4, q[k].getLsbD 1 = r[k].getLsbD 1 ∧ q[k].getLsbD 2 = r[k].getLsbD 2 ∧
      q[k].getLsbD 5 = r[k].getLsbD 5 ∧ q[k].getLsbD 6 = r[k].getLsbD 6 := by decide

theorem witness_OtherInstructionsKeepDisplayMemory : ∃ t, storesDisplay .readButtons = false ∧
    State.reset.stb = true ∧ State.reset.clk = true ∧ exec .readButtons State.reset = .next t :=
  ⟨_, rfl, rfl, rfl, rfl⟩
theorem witness_HostOperationsEndInOneOfTwoWays :
    (∃ t, isHostOperation .readScan = true ∧ exec .readScan State.reset = .next t) ∧
    (∃ t, isHostOperation (.buildDigits [0x5A#8]) = true ∧
      exec (.buildDigits [0x5A#8]) (presenting Chip.powerOn []) = .next t ∧ t.cause = 1#3) :=
  ⟨⟨_, rfl, rfl⟩, ⟨_, rfl, rfl, rfl⟩⟩
theorem witness_WritesToAnAbsentChipAreLost : ∃ t, silent.bus ≠ .attached ∧
    exec (.writeData 0#8 [1#8]) silent = .next t :=
  ⟨_, by decide, rfl⟩
theorem witness_HazardIsNeverCleared : ∃ t,
    (withChip { Chip.powerOn with hazard := true }).chip.hazard = true ∧
      step (withChip { Chip.powerOn with hazard := true }) = .next t :=
  ⟨_, rfl, rfl⟩
/-- Each condition of cases c, d and e (R79) is met, and the four forms of R107 meet none. -/
theorem witness_HazardIsNeverCleared_transactions :
    (∀ p ∈ [([], 0), ([0x00#8], 0), ([0x90#8], 0), ([0x44#8], 0), ([0x41#8], 0), ([0x43#8], 0),
        ([0x8F#8, 0#8], 0), ([0x48#8, 0#8], 0), ([0xC0#8, 1#8], 1), ([0x4A#8], 1), ([0x42#8], 5)],
      isHazardTransaction p.1 p.2 = true) ∧
    (∀ p ∈ [([0x8F#8], 0), ([0x48#8], 0), ([0x42#8], 4), ([0xC0#8], 0), ([0xCF#8, 0#8, 0#8], 0)],
      isHazardTransaction p.1 p.2 = false) := by decide
theorem witness_HazardIsNeverCleared_state :
    let s := { State.reset with rawIn := [([0x42#8], 5)] }
    s.Idle ∧ s.bus = .attached ∧ s.resetAt = none := by decide
theorem witness_NoResultDependsOnTheDelays :
    { State.reset.params with tClk := 1000 }.font = State.reset.params.font := rfl
theorem witness_NoOperationReadsAStaleBuffer :
    SameButBuffers State.reset { State.reset with scanbuf := Vector.replicate 4 0xFF#8, build := [1#8] } := rfl

theorem witness_ResetAbandonsTheOperation : ∀ n ∈ [0, 799],
    (resetting n).busy = false ∧ (resetting n).rawIn = [] ∧ (resetting n).resetAt = some n ∧
      decode (.request (resetting n).hostIn) = .instr (.writeDigits (Vector.replicate 8 0#8)) [] := by decide
theorem witness_ResetAbandonsTheOperation_events : ∃ u,
    exec (.writeDigits (Vector.replicate 8 0#8)) { resetting 799 with hostIn := [] } = .next u ∧
      799 < u.trace.length := by
  obtain ⟨u, hu, e⟩ :=
    exec_endsAs (.writeDigits (Vector.replicate 8 0#8)) { resetting 799 with hostIn := [] }
  refine ⟨u, hu, ?_⟩
  rw [State.trace, e.log, List.reverse_reverse]
  decide +kernel
theorem witness_IdleResetLeavesTheChip :
    ∀ bytes ∈ [[], [0x50#8], [0x60#8, 2#8, 0x31#8]],
      let s := { State.reset with hostIn := bytes, resetAt := some 3 }
      s.Idle ∧ s.rawIn = [] ∧ decode (.request s.hostIn) = .incomplete ∧ s.resetAt = some 3 := by decide

end Sys2Proof.Tests
end

/-! PROOFS. The family '00_scope.md': an operation is its wire trace, and no operation reads a delay or POS_MAP. -/

namespace Sys2Proof.Machine

/-! ## An operation is its wire trace -/

/-- The trace an instruction leaves is `opTrace`, read in order (R14). -/
theorem EndsAs.trace {es : List Event} {s t : State} (h : EndsAs es s t) : t.trace = es := by
  rw [State.trace, h.log, List.reverse_reverse]

/-- Settles O16: every instruction ends as its trace does (`EndsAs.of_exec`), and each event counts one (R24). -/
theorem operationIsItsWireTrace : Obligations.OperationIsItsWireTrace := by
  intro i s t h
  have ends := EndsAs.of_exec h
  rw [ends.trace]
  refine ⟨ends.stb, ends.clk, ends.dio, ends.chip, ?_⟩
  rw [emitAll_pc, acceptOperation_pc, Nat.zero_add]

/-! ## Updates of the state off the wire -/

/-- An update that commutes with every wire event and is not seen by a sample: it writes nothing that the wire
reads or writes. -/
structure OffWire (f : State → State) : Prop where
  emit : ∀ (e : Event) (s : State), emit e (f s) = f (emit e s)
  sampleValue : ∀ s : State, (f s).sampleValue = s.sampleValue

namespace OffWire

variable {f : State → State}

theorem emitAll (hf : OffWire f) (es : List Event) (s : State) : emitAll es (f s) = f (emitAll es s) :=
  List.foldl_hom f (g₂ := fun t e => Machine.emit e t) fun t e => hf.emit e t

theorem sendFrame (hf : OffWire f) (bs : List Byte) (s : State) : sendFrame bs (f s) = f (sendFrame bs s) := by
  rw [sendFrame_emitAll, sendFrame_emitAll, hf.emitAll]

theorem receiveBit (hf : OffWire f) (k : Nat) (p : Byte × State) :
    receiveBit k (p.map id f) = (receiveBit k p).map id f := by
  simp only [Machine.receiveBit, Prod.map, id_eq, hf.emitAll, hf.sampleValue]

theorem receiveByte (hf : OffWire f) (s : State) : receiveByte (f s) = (receiveByte s).map id f := by
  rw [Machine.receiveByte, hf.emit]
  exact List.foldl_hom (Prod.map id f) (g₂ := fun p k => Machine.receiveBit k p)
    (init := (0#8, Machine.emit .releaseDio s)) fun p k => hf.receiveBit k p

theorem receiveBytes (hf : OffWire f) (n : Nat) (s : State) :
    receiveBytes n (f s) = (receiveBytes n s).map id f := by
  induction n generalizing s with
  | zero => rfl
  | succ n ih => simp only [Machine.receiveBytes, hf.receiveByte, Prod.map, id_eq, ih]

theorem receiveFrame (hf : OffWire f) (sent : List Byte) (n : Nat) (s : State) :
    receiveFrame sent n (f s) = (receiveFrame sent n s).map id f := by
  simp only [Machine.receiveFrame, openFrame, closeFrame, sendBytes_emitAll, hf.emitAll, hf.emit,
    hf.receiveBytes, Prod.map, id_eq]

theorem transaction (hf : OffWire f) (sent : List Byte) (n : Nat) (s : State) :
    transaction sent n (f s) = (transaction sent n s).map id f := by
  cases n with
  | zero => exact congrArg (Prod.mk []) (hf.sendFrame sent s)
  | succ n => exact hf.receiveFrame sent (n + 1) s

end OffWire

/-! ## The parameters are off the wire -/

/-- The state with other parameters (R8). -/
def State.withParams (p : Params) (s : State) : State :=
  { s with params := p }

variable (p : Params)

@[simp] theorem withParams_stb (s : State) : (s.withParams p).stb = s.stb := rfl
@[simp] theorem withParams_clk (s : State) : (s.withParams p).clk = s.clk := rfl
@[simp] theorem withParams_bus (s : State) : (s.withParams p).bus = s.bus := rfl
@[simp] theorem withParams_scanbuf (s : State) : (s.withParams p).scanbuf = s.scanbuf := rfl
@[simp] theorem withParams_frame (s : State) : (s.withParams p).frame = s.frame := rfl
@[simp] theorem withParams_btn (s : State) : (s.withParams p).btn = s.btn := rfl
@[simp] theorem withParams_params (s : State) : (s.withParams p).params = p := rfl

theorem onChip_withParams (f : Chip → Chip) (s : State) :
    (s.withParams p).onChip f = (s.onChip f).withParams p := by
  by_cases h : s.bus = .attached
  · rw [onChip_attached f h, onChip_attached f (s := s.withParams p) h]
    rfl
  · rw [onChip_detached f h, onChip_detached f (s := s.withParams p) h]

theorem driveStbLine_withParams (v : Bool) (s : State) :
    driveStbLine v (s.withParams p) = (driveStbLine v s).withParams p := by
  simp only [driveStbLine, withParams_stb]
  split
  · exact onChip_withParams p _ { s with stb := _ }
  · exact onChip_withParams p _ { s with stb := _ }
  · rfl

theorem driveClkLine_withParams (v : Bool) (s : State) :
    driveClkLine v (s.withParams p) = (driveClkLine v s).withParams p := by
  simp only [driveClkLine, withParams_clk]
  split
  · exact onChip_withParams p _ { s with clk := _ }
  · rfl

theorem countSample_withParams (s : State) :
    countSample (s.withParams p) = (countSample s).withParams p := by
  simp only [countSample, withParams_bus]
  split <;> rfl

/-- No event reads a parameter: a wait takes its time and changes nothing (R150). -/
theorem withParams_offWire : OffWire (State.withParams p) where
  emit e s := by
    cases e with
    | driveStb v => exact driveStbLine_withParams p v { s with log := _, pc := _ }
    | driveClk v => exact driveClkLine_withParams p v { s with log := _, pc := _ }
    | driveDio v => rfl
    | releaseDio => rfl
    | sample => exact countSample_withParams p { s with log := _, pc := _ }
    | wait d => rfl
  sampleValue _ := rfl

/-! ## No operation reads a delay or POS_MAP -/

@[simp] theorem acceptOperation_withParams (s : State) :
    acceptOperation (s.withParams p) = (acceptOperation s).withParams p := rfl

@[simp] theorem finishOk_withParams (payload : List Byte) (s : State) :
    finishOk payload (s.withParams p) = (finishOk payload s).withParams p := rfl

@[simp] theorem loadDigits_withParams (d : Octet) (s : State) :
    loadDigits d (s.withParams p) = (loadDigits d s).withParams p := rfl

@[simp] theorem scrambleBody_withParams (s : State) :
    scrambleBody (s.withParams p) = (scrambleBody s).withParams p := rfl

@[simp] theorem storeBuild_withParams (build : List Byte) (prev : Option Nat) (s : State) :
    storeBuild build prev (s.withParams p) = (storeBuild build prev s).withParams p := rfl

@[simp] theorem failBuild_withParams (index char : Byte) (s : State) :
    failBuild index char (s.withParams p) = (failBuild index char s).withParams p := rfl

@[simp] theorem decodeScanBody_withParams (q : Quad) (s : State) :
    decodeScanBody q (s.withParams p) = (decodeScanBody q s).withParams p := rfl

@[simp] theorem sendFrame_withParams (bs : List Byte) (s : State) :
    sendFrame bs (s.withParams p) = (sendFrame bs s).withParams p :=
  (withParams_offWire p).sendFrame bs s

@[simp] theorem runTransaction_withParams (sent : List Byte) (n : Nat) (s : State) :
    runTransaction sent n (s.withParams p) = (runTransaction sent n s).withParams p := by
  simp only [runTransaction, acceptOperation_withParams, (withParams_offWire p).transaction]
  rfl

@[simp] theorem readScanBody_withParams (s : State) :
    readScanBody (s.withParams p) = (readScanBody s).withParams p := by
  rw [readScanBody, (withParams_offWire p).receiveFrame]
  rfl

@[simp] theorem writeDigitsBody_withParams (s : State) :
    writeDigitsBody (s.withParams p) = (writeDigitsBody s).withParams p := by
  simp only [writeDigitsBody, writeLines_emitAll, scrambleBody_withParams, withParams_frame,
    (withParams_offWire p).emitAll]

/-- An instruction takes a state with other parameters but the same FONT to the same next state with those
parameters (R62, R150, R308). -/
theorem exec_withParams (i : Instr) (s : State) (hfont : p.font = s.params.font) :
    ∃ t, exec i s = .next t ∧ exec i (s.withParams p) = .next (t.withParams p) := by
  cases i with
  | displayControl d ppp => exact ⟨_, rfl, by simp [exec, execDisplayControl]⟩
  | dataWrite fixed => exact ⟨_, rfl, by simp [exec, execDataWrite]⟩
  | dataRead => exact ⟨_, rfl, by simp [exec, execDataRead]⟩
  | setAddress aaaa payload => exact ⟨_, rfl, by simp [exec, execSetAddress]⟩
  | configureDisplay en pw => exact ⟨_, rfl, by simp [exec, execConfigureDisplay]⟩
  | initWriteData auto => exact ⟨_, rfl, by simp [exec, execInitWriteData]⟩
  | writeData a payload => exact ⟨_, rfl, by simp [exec, execWriteData]⟩
  | readScan => exact ⟨_, rfl, by simp [exec, execReadScan]⟩
  | writeDigits d => exact ⟨_, rfl, by simp [exec, execWriteDigits]⟩
  | writeString text =>
    simp only [exec, execWriteString, withParams_params, hfont]
    cases buildDigits s.params.font text with
    | done b prev => exact ⟨_, rfl, by simp⟩
    | unknown j ch => exact ⟨_, rfl, by simp⟩
  | readButtons => exact ⟨_, rfl, by simp [exec, execReadButtons]⟩
  | buildDigits text =>
    simp only [exec, execBuildDigits, withParams_params, hfont]
    cases buildDigits s.params.font text with
    | done b prev => exact ⟨_, rfl, by simp⟩
    | unknown j ch => exact ⟨_, rfl, by simp⟩
  | scramble d => exact ⟨_, rfl, by simp [exec, execScramble]⟩
  | unscramble f => exact ⟨_, rfl, by simp [exec, execUnscramble]⟩
  | decodeScan q => exact ⟨_, rfl, by simp [exec, execDecodeScan]⟩

/-- Settles O57: exec reads FONT and no other parameter (R8, R62, R150, R308). -/
theorem noResultDependsOnTheDelays : Obligations.NoResultDependsOnTheDelays :=
  fun i s p hfont => exec_withParams p i s hfont

end Sys2Proof.Machine

/-! PROOFS. The family '10_state.md': no operation reads a buffer that an earlier one wrote, what a step fetches and
that it keeps the parameters, the STATUS register, and the level of DIO. -/

namespace Sys2Proof.Machine

/-! ## The data buffers are off the wire -/

/-- The second state with the data buffers (R28 to R32) of the first. -/
def withBuffersOf (b s : State) : State :=
  { s with
    scanbuf := b.scanbuf, frame := b.frame, digits := b.digits, btn := b.btn, build := b.build, prev := b.prev }

/-- A state that differs from another in the buffers only is the other with its own buffers. -/
theorem SameButBuffers.eq_withBuffersOf {s s' : State} (h : SameButBuffers s s') : s' = withBuffersOf s' s := h

/-- No wire event reads or writes a data buffer: the lines, the chip and the bus decide what it does (R12, R23). -/
theorem withBuffersOf_offWire (b : State) : OffWire (withBuffersOf b) where
  emit e s := by
    rcases s with ⟨stb, clk, _, _, _, _, _, _, _, _, _, _, _, _, _, _, _, _, bus, _, _, _, _⟩
    cases e with
    | driveStb v => cases stb <;> cases v <;> cases bus <;> rfl
    | driveClk v => cases clk <;> cases v <;> cases bus <;> rfl
    | driveDio v => rfl
    | releaseDio => rfl
    | sample => cases bus <;> rfl
    | wait d => rfl
  sampleValue _ := rfl

/-! ## States that differ in the buffers only stay so -/

namespace SameButBuffers

variable {s s' : State}

theorem params (h : SameButBuffers s s') : s'.params = s.params := by rw [h]

theorem acceptOperation (h : SameButBuffers s s') :
    SameButBuffers (acceptOperation s) (acceptOperation s') := by
  rw [h]; rfl

theorem finishOk (h : SameButBuffers s s') (payload : List Byte) :
    SameButBuffers (finishOk payload s) (finishOk payload s') := by
  rw [h]; rfl

theorem loadDigits (h : SameButBuffers s s') (d : Octet) :
    SameButBuffers (loadDigits d s) (loadDigits d s') := by
  rw [h]; rfl

theorem scrambleBody (h : SameButBuffers s s') : SameButBuffers (scrambleBody s) (scrambleBody s') := by
  rw [h]; rfl

theorem storeBuild (h : SameButBuffers s s') (build : List Byte) (prev : Option Nat) :
    SameButBuffers (storeBuild build prev s) (storeBuild build prev s') := by
  rw [h]; rfl

theorem failBuild (h : SameButBuffers s s') (index char : Byte) :
    SameButBuffers (failBuild index char s) (failBuild index char s') := by
  rw [h]; rfl

theorem decodeScanBody (h : SameButBuffers s s') (q : Quad) :
    SameButBuffers (decodeScanBody q s) (decodeScanBody q s') := by
  rw [h]; rfl

theorem emitAll (h : SameButBuffers s s') (es : List Event) :
    SameButBuffers (emitAll es s) (emitAll es s') := by
  rw [h.eq_withBuffersOf, (withBuffersOf_offWire s').emitAll]
  rfl

theorem sendFrame (h : SameButBuffers s s') (bs : List Byte) :
    SameButBuffers (sendFrame bs s) (sendFrame bs s') := by
  rw [sendFrame_emitAll, sendFrame_emitAll]
  exact h.emitAll _

theorem runTransaction (h : SameButBuffers s s') (sent : List Byte) (n : Nat) :
    SameButBuffers (runTransaction sent n s) (runTransaction sent n s') := by
  simp only [Machine.runTransaction]
  rw [h.acceptOperation.eq_withBuffersOf, (withBuffersOf_offWire _).transaction]
  rfl

/-- The READ_SCAN body fills SCANBUF from the wire, whatever it held (R167). -/
theorem readScanBody (h : SameButBuffers s s') :
    SameButBuffers (readScanBody s) (readScanBody s') ∧ (readScanBody s').scanbuf = (readScanBody s).scanbuf := by
  simp only [Machine.readScanBody]
  rw [h.eq_withBuffersOf, (withBuffersOf_offWire s').receiveFrame]
  generalize receiveFrame [dataReadByte] 4 s = p
  exact ⟨rfl, rfl⟩

/-- WRITE_DIGITS sends the frame of the digits loaded, whatever FRAME and DIGITS held (R194). -/
theorem writeDigitsBody (h : SameButBuffers s s') (d : Octet) :
    SameButBuffers (writeDigitsBody (Machine.loadDigits d s)) (writeDigitsBody (Machine.loadDigits d s')) := by
  simp only [Machine.writeDigitsBody, writeLines_emitAll]
  exact (h.loadDigits d).scrambleBody.emitAll _

/-- No instruction reads a buffer that an earlier one wrote (R28, R33). -/
theorem exec (h : SameButBuffers s s') (i : Instr) :
    ∃ t t', exec i s = .next t ∧ exec i s' = .next t' ∧ SameButBuffers t t' := by
  have accepted := h.acceptOperation
  cases i with
  | displayControl d ppp => exact ⟨_, _, rfl, rfl, h.runTransaction _ _⟩
  | dataWrite fixed => exact ⟨_, _, rfl, rfl, h.runTransaction _ _⟩
  | dataRead => exact ⟨_, _, rfl, rfl, h.runTransaction _ _⟩
  | setAddress aaaa payload => exact ⟨_, _, rfl, rfl, h.runTransaction _ _⟩
  | configureDisplay en pw => exact ⟨_, _, rfl, rfl, (accepted.sendFrame _).finishOk _⟩
  | initWriteData auto => exact ⟨_, _, rfl, rfl, (accepted.sendFrame _).finishOk _⟩
  | writeData a payload => exact ⟨_, _, rfl, rfl, (accepted.sendFrame _).finishOk _⟩
  | readScan =>
    obtain ⟨read, scanbuf⟩ := accepted.readScanBody
    simp only [Machine.exec, execReadScan, scanbuf]
    exact ⟨_, _, rfl, rfl, read.finishOk _⟩
  | writeDigits d => exact ⟨_, _, rfl, rfl, (accepted.writeDigitsBody d).finishOk _⟩
  | writeString text =>
    simp only [Machine.exec, execWriteString, h.params]
    cases buildDigits s.params.font text with
    | done build prev =>
      exact ⟨_, _, rfl, rfl, ((accepted.storeBuild build prev).writeDigitsBody _).finishOk _⟩
    | unknown index char => exact ⟨_, _, rfl, rfl, accepted.failBuild _ _⟩
  | readButtons =>
    obtain ⟨read, scanbuf⟩ := accepted.readScanBody
    simp only [Machine.exec, execReadButtons, scanbuf, decodeScanBody_btn]
    exact ⟨_, _, rfl, rfl, (read.decodeScanBody _).finishOk _⟩
  | buildDigits text =>
    simp only [Machine.exec, execBuildDigits, h.params]
    cases buildDigits s.params.font text with
    | done build prev => exact ⟨_, _, rfl, rfl, (accepted.storeBuild build prev).finishOk _⟩
    | unknown index char => exact ⟨_, _, rfl, rfl, accepted.failBuild _ _⟩
  | scramble d => exact ⟨_, _, rfl, rfl, (accepted.loadDigits d).scrambleBody.finishOk _⟩
  | unscramble f => exact ⟨_, _, rfl, rfl, accepted.finishOk _⟩
  | decodeScan q => exact ⟨_, _, rfl, rfl, (accepted.decodeScanBody q).finishOk _⟩

end SameButBuffers

/-- Settles O58: `SameButBuffers` is kept by every named operation, so by every instruction (R28, R33). -/
theorem noOperationReadsAStaleBuffer : Obligations.NoOperationReadsAStaleBuffer :=
  fun i _ _ h => h.exec i

/-! ## What the next step fetches -/

variable {s : State}

/-- BUSY holds every request (R25), and so do bytes still to come (R108). -/
theorem fetch_hold (h : s.busy = true ∨ (s.rawIn = [] ∧ decode (.request s.hostIn) = .incomplete)) :
    fetch s = .hold := by
  unfold fetch
  cases hb : s.busy with
  | true => rfl
  | false =>
    obtain ⟨hraw, hd⟩ := h.resolve_left (by simp [hb])
    simp only [hraw, fetchRequest, hd]

/-- A whole legal request at the front of the host's bytes is run, its bytes consumed (R108). -/
theorem fetch_run_of_request {i : Instr} {rest : List Byte} (hb : s.busy = false) (hraw : s.rawIn = [])
    (hd : decode (.request s.hostIn) = .instr i rest) : fetch s = .run i { s with hostIn := rest } := by
  simp only [fetch, hb, hraw, fetchRequest, hd]

/-- A described transaction at the front of `rawIn` is run, and removed. -/
theorem fetch_run_of_transaction {i : Instr} {sent rest : List Byte} {n : Nat} {later : List (List Byte × Nat)}
    (hb : s.busy = false) (hraw : s.rawIn = (sent, n) :: later)
    (hd : decode (.transaction sent n) = .instr i rest) : fetch s = .run i { s with rawIn := later } := by
  simp only [fetch, hb, hraw, fetchTransaction, hd]

/-- With no reset input the step is the instruction fetched (R24, R90). -/
theorem step_run {i : Instr} {t : State} (h : fetch s = .run i t) (hreset : t.resetAt = none) :
    step s = exec i t := by
  obtain ⟨u, hu, -⟩ := exec_endsAs i t
  simp only [step, h, hu, settleReset_none hreset]

/-- Settles O7: nothing is fetched, and no reset comes. -/
theorem requestsAreHeldUntilTheyCanRun : Obligations.RequestsAreHeldUntilTheyCanRun := by
  intro s hreset h
  simp only [step, fetch_hold h, settleIdle, hreset]

/-- Settles O6: the fetch of either port, then `step_run`. -/
theorem stepRunsDecodedInstruction : Obligations.StepRunsDecodedInstruction := by
  intro s i hb hreset
  refine ⟨fun rest hraw hd => ?_, fun sent rest n later hraw hd => ?_⟩
  · exact step_run (fetch_run_of_request hb hraw hd) hreset
  · exact step_run (fetch_run_of_transaction hb hraw hd) hreset

/-! ## No step writes a parameter -/

theorem resetBlock_params (s : State) : (resetBlock s).params = s.params :=
  (driveStbLine_wireOnly true s).params

theorem abandonOperation_params (es : List Event) (s : State) : (abandonOperation es s).params = s.params := by
  calc (abandonOperation es s).params
    _ = (resetBlock (emitAll es (acceptOperation s))).params := (onChip_wireOnly _ _).params
    _ = (emitAll es (acceptOperation s)).params := resetBlock_params _
    _ = s.params := (emitAll_wireOnly _ _).params

theorem settleIdle_params (s : State) : (settleIdle s).params = s.params := by
  unfold settleIdle
  split
  · rfl
  · exact resetBlock_params s

theorem settleReset_params {before after : State} (h : after.params = before.params) :
    (settleReset before after).params = before.params := by
  unfold settleReset
  split
  · exact h
  · split
    · exact abandonOperation_params _ _
    · exact (resetBlock_params after).trans h

theorem runTransaction_params (sent : List Byte) (n : Nat) (s : State) :
    (runTransaction sent n s).params = s.params :=
  (endsAs_runTransaction sent n s _ (transaction_emitAll _ _ _)).params

/-- Taking the words of an instruction writes no parameter. -/
theorem fetch_run_params {t : State} {i : Instr} (h : fetch s = .run i t) : t.params = s.params := by
  obtain ⟨-, ⟨-, _, -, rfl⟩ | ⟨_, _, _, _, -, -, rfl⟩⟩ := fetch_run h
  · rfl
  · rfl

/-- Settles O4: every case of `step_cases` answers next, and none writes a parameter (R293). -/
theorem everyStepAnswersNextAndKeepsTheParameters :
    Obligations.EveryStepAnswersNextAndKeepsTheParameters := by
  intro s
  obtain ⟨-, h⟩ | ⟨t, hf, h⟩ | ⟨sent, n, t, hf, h⟩ | ⟨i, t, u, hf, hu, h⟩ := step_cases s
  · exact ⟨_, h, settleIdle_params s⟩
  · obtain ⟨-, -, _, rest, -, rfl⟩ := fetch_reject hf
    exact ⟨_, h, settleReset_params rfl⟩
  · obtain ⟨-, later, -, rfl⟩ := fetch_undescribed hf
    exact ⟨_, h, settleReset_params (runTransaction_params sent n _)⟩
  · exact ⟨_, h, (settleReset_params (EndsAs.of_exec hu).params).trans (fetch_run_params hf)⟩

/-! ## Reset, STATUS and DIO -/

/-- Settles O1: the values of `State.reset` and of the chip just powered on (R37, R63). -/
theorem resetLeavesTheGivenValues : Obligations.ResetLeavesTheGivenValues :=
  ⟨rfl, rfl, rfl, rfl, rfl, rfl, rfl, rfl, rfl, rfl, rfl, rfl, rfl, rfl⟩

/-- Settles O5: STATUS is a function of BUSY and CAUSE alone, sixteen cases (R26). -/
theorem statusRegisterLayout : Obligations.StatusRegisterLayout := by
  intro s
  simp only [State.status]
  generalize s.busy = busy, s.cause = cause
  revert busy cause
  decide

/-- Off a faulty bus a sample is the level of DIO (R23). -/
theorem sampleValue_eq_dioLevel (h : s.bus ≠ .faulty) : s.sampleValue = s.dioLevel := by
  unfold State.sampleValue
  split
  · contradiction
  · rfl

theorem blockPull_eq_false : s.blockPull = false ↔ s.dio = .drive0 := by
  cases h : s.dio <;> simp [State.blockPull, h]

theorem chipPull_eq_false : s.chipPull = false ↔ s.bus = .attached ∧ s.chip.out = false := by
  cases h : s.bus <;> simp [State.chipPull, h]

/-- Settles O12: the level is the AND of the two pulls, and the block pulls low in DRIVE0 only (R23). -/
theorem dioIsAWiredAnd : Obligations.DioIsAWiredAnd := by
  intro s hbus
  refine ⟨?_, rfl⟩
  rw [sampleValue_eq_dioLevel hbus, State.dioLevel, Bool.and_eq_false_iff, blockPull_eq_false,
    chipPull_eq_false]

end Sys2Proof.Machine

/-! PROOFS. The family '20_memory.md': the wire commands, what a payload leaves in the display registers, reads, and
HAZARD. -/

namespace Sys2Proof.Machine

/-! ## Sending transactions to the chip -/

/-- After a whole byte has been sent the receiver is between bytes, for each byte of a payload (R68). -/
theorem acceptBytes_bits {c : Chip} (bs : List Byte) (h : c.bits = []) :
    (bs.foldl Chip.acceptByte c).bits = [] := by
  induction bs generalizing c with
  | nil => exact h
  | cons v bs ih => exact ih (acceptByte_bits v h)

/-- STB rising past a whole command byte ends the transaction and does nothing else (R67). -/
theorem strobeRise_of_mute {c : Chip} (hmute : c.Mute) (hbits : c.bits = []) :
    c.strobeRise = { c with phase := .idle, bits := [], out := true } := by
  have whole : c.cutShort = false := by
    unfold Chip.cutShort
    split
    · rename_i hp; exact absurd hp hmute.2.1
    · rw [hbits]; rfl
  rw [Chip.strobeRise, whole, if_neg Bool.false_ne_true]

/-- A transaction whose command byte leaves the chip with nothing to present: the payload, then STB rises (R67). -/
theorem afterSent_of_mute {c : Chip} {v : Byte} (payload : List Byte) (hmute : (c.strobeFall.acceptCommand v).Mute) :
    c.afterSent (v :: payload) =
      { payload.foldl Chip.acceptByte (c.strobeFall.acceptCommand v) with
        phase := .idle, bits := [], out := true } :=
  strobeRise_of_mute (hmute.acceptBytes payload)
    (acceptBytes_bits payload (acceptCommand_bits v (c := c.strobeFall) rfl))

/-- The transaction of a display-control command (R65, R69). -/
theorem afterSent_displayControl (c : Chip) (d : Bool) (ppp : BitVec 3) :
    c.afterSent [displayControlByte d ppp] =
      { c with dispEn := d, pw := ppp, phase := .idle, bits := [], out := true } := by
  have command : c.strobeFall.acceptCommand (displayControlByte d ppp) = c.strobeFall.displayControl d ppp := by
    rw [Chip.acceptCommand, classify_displayControlByte]
  rw [afterSent_of_mute [] (by simp [command, Chip.displayControl, Chip.Mute]), command]
  rfl

/-- The transaction of a data-write command (R64, R70). -/
theorem afterSent_dataWrite (c : Chip) (auto : Bool) :
    c.afterSent [dataWriteByte auto] =
      { c with
        mode := .write, ainc := if auto then .auto else .fixed, phase := .idle, bits := [], out := true } := by
  have command : c.strobeFall.acceptCommand (dataWriteByte auto) = c.strobeFall.dataWrite (!auto) := by
    rw [Chip.acceptCommand, classify_dataWriteByte]
  rw [afterSent_of_mute [] (by simp [command, Chip.dataWrite, Chip.Mute]), command]
  cases auto <;> rfl

/-- The chip once a set-address command has come: the payload is next (R66, R72). -/
def Chip.addressed (c : Chip) (a : BitVec 4) : Chip :=
  { c with ptr := some a, phase := .address, bits := [], out := true }

/-- The address field of a set-address byte is the address (R103, R104). -/
theorem setAddressByte_address : ∀ a : BitVec 4, (a.setWidth 8).extractLsb' 0 4 = a := by decide

/-- The transaction of a set-address command and its payload (R66, R72). -/
theorem afterSent_setAddress (c : Chip) (a : BitVec 4) (payload : List Byte) :
    c.afterSent (setAddressByte (a.setWidth 8) :: payload) =
      { payload.foldl Chip.acceptByte (c.addressed a) with phase := .idle, bits := [], out := true } := by
  have command : c.strobeFall.acceptCommand (setAddressByte (a.setWidth 8)) = c.addressed a := by
    rw [Chip.acceptCommand, classify_setAddressByte, setAddressByte_address]
    rfl
  rw [afterSent_of_mute payload (by simp [command, Chip.addressed, Chip.Mute]), command]

/-! ## DIO after a command byte -/

theorem dioAfterByte_displayControl : ∀ d ppp, dioAfterByte (displayControlByte d ppp) = .drive1 := by decide

theorem dioAfterByte_dataWrite : ∀ auto, dioAfterByte (dataWriteByte auto) = .drive0 := by decide

theorem dioAfterByte_setAddress : ∀ a : BitVec 4, dioAfterByte (setAddressByte (a.setWidth 8)) = .drive1 := by
  decide

/-! ## The wire commands that only send -/

/-- A sending transaction from `rawIn`, with the lines idle: the whole state after it (R67, R146). -/
theorem runTransaction_send (sent : List Byte) (s : State) (hstb : s.stb = true) (hclk : s.clk = true) :
    runTransaction sent 0 s =
      { s with
        busy := false, pc := 0, response := [], rawOut := [], dio := dioAfterBytes s.dio sent
        log := (sendFrameTrace sent).reverse
        chip := s.chipAfter fun c => c.afterSent sent } := by
  have h := sendFrame_idle sent (acceptOperation s) hstb hclk
  simp only [runTransaction, transaction, h, acceptOperation_log, List.append_nil]
  rfl

/-- Settles O19: `runTransaction_send`, and the chip takes the one byte as a display-control command (R65, R69). -/
theorem displayControlRuns : Obligations.DisplayControlRuns := by
  intro d ppp s hstb hclk
  simp only [exec, execDisplayControl, runTransaction_send _ s hstb hclk, afterSent_displayControl,
    dioAfterBytes, List.foldl, dioAfterByte_displayControl]

/-- Settles O20: `runTransaction_send`, and the chip takes the one byte as a data-write command (R64, R70). -/
theorem dataWriteRuns : Obligations.DataWriteRuns := by
  intro fixed s hstb hclk
  simp only [exec, execDataWrite, runTransaction_send _ s hstb hclk, afterSent_dataWrite,
    dioAfterBytes, List.foldl, dioAfterByte_dataWrite]
  cases fixed <;> rfl

/-- Settles O22: `runTransaction_send`, and the chip takes the address and then each byte of the payload (R72). -/
theorem setAddressRuns : Obligations.SetAddressRuns := by
  intro a payload s hstb hclk
  simp only [exec, execSetAddress, runTransaction_send _ s hstb hclk, afterSent_setAddress,
    dioAfterBytes, List.foldl, dioAfterByte_setAddress]
  rfl

/-! ## The bytes of a payload -/

/-- After a HAZARD the chip interprets no further byte of the transaction (R72). -/
theorem acceptBytes_ended {c : Chip} (bs : List Byte) (h : c.phase = .ended) : bs.foldl Chip.acceptByte c = c := by
  induction bs with
  | nil => rfl
  | cons v bs ih => rw [List.foldl_cons, Chip.acceptByte, h, ih]

/-- A byte after a set-address command is a data byte (R72). -/
theorem acceptByte_address {c : Chip} (v : Byte) (hphase : c.phase = .address) : c.acceptByte v = c.storeByte v := by
  rw [Chip.acceptByte, hphase]

/-- A data byte outside write mode, or at an UNKNOWN pointer, is HAZARD case a or b (R79). -/
theorem storeByte_havocs {c : Chip} (v : Byte) (h : c.mode ≠ .write ∨ c.ptr = none) :
    c.storeByte v = c.havocDisplay := by
  unfold Chip.storeByte
  split
  · rename_i hmode
    rw [h.resolve_left (not_not_intro hmode)]
  · rfl

/-- A payload that begins with a HAZARD case a or b: the rest of it is not interpreted (R72, R79). -/
theorem acceptBytes_havocDisplay {c : Chip} (v : Byte) (bs : List Byte) (hphase : c.phase = .address)
    (h : c.mode ≠ .write ∨ c.ptr = none) : (v :: bs).foldl Chip.acceptByte c = c.havocDisplay := by
  rw [List.foldl_cons, acceptByte_address v hphase, storeByte_havocs v h, acceptBytes_ended bs rfl]

/-- A data byte in write mode is stored at the pointer (R72). -/
theorem acceptByte_stores {c : Chip} {p : BitVec 4} (v : Byte) (hphase : c.phase = .address) (hmode : c.mode = .write)
    (hptr : c.ptr = some p) :
    c.acceptByte v = { c with dram := memWrite c.dram p.toNat v, ptr := c.nextPtr p } := by
  simp only [acceptByte_address v hphase, Chip.storeByte, hmode, hptr]

/-- The display registers once bytes have been stored from address p on, the address moving by `step` for each. -/
def storeBytes (step : Nat) : Nat → List Byte → List Host.Cell → List Host.Cell
  | _, [], m => m
  | p, v :: vs, m => storeBytes step (p + step) vs (memWrite m p v)

/-- Each address holds a byte that depends on what was stored alone, or what it held before. -/
theorem memRead_storeBytes (step p : Nat) (vs : List Byte) (x : Nat) :
    ∃ w : Option Byte, ∀ m, memRead (storeBytes step p vs m) x = w.or (memRead m x) := by
  induction vs generalizing p with
  | nil => exact ⟨none, fun m => rfl⟩
  | cons v vs ih =>
    obtain ⟨w, hw⟩ := ih (p + step)
    refine ⟨w.or (if p = x then some v else none), fun m => ?_⟩
    rw [storeBytes, hw, memRead_memWrite, Option.or_assoc]
    split <;> rfl

/-- Storing the same bytes again changes no address (R77). -/
theorem memRead_storeBytes_twice (step p : Nat) (vs : List Byte) (m : List Host.Cell) (x : Nat) :
    memRead (storeBytes step p vs (storeBytes step p vs m)) x = memRead (storeBytes step p vs m) x := by
  obtain ⟨w, hw⟩ := memRead_storeBytes step p vs x
  rw [hw, hw, ← Option.or_assoc, Option.or_self]

/-- Auto-increment up to address 0xF (R66, R72): bytes stored at rising addresses; past 0xF the pointer is
UNKNOWN. -/
theorem acceptBytes_auto {c : Chip} {p : BitVec 4} (payload : List Byte) (hphase : c.phase = .address)
    (hmode : c.mode = .write) (hainc : c.ainc = .auto) (hptr : c.ptr = some p)
    (hfit : p.toNat + payload.length ≤ 16) :
    payload.foldl Chip.acceptByte c =
      { c with
        dram := storeBytes 1 p.toNat payload c.dram
        ptr := if p.toNat + payload.length = 16 then none else some (BitVec.ofNat 4 (p.toNat + payload.length)) } := by
  induction payload generalizing c p with
  | nil =>
    have inside : p.toNat ≠ 16 := by omega
    simp [storeBytes, inside, ← hptr]
  | cons v vs ih =>
    rw [List.length_cons] at hfit
    have ptr : c.nextPtr p = if p = 15#4 then none else some (p + 1#4) := by rw [Chip.nextPtr, hainc]
    rw [List.foldl_cons, acceptByte_stores v hphase hmode hptr, ptr]
    by_cases last : p = 15#4
    · subst last
      obtain rfl : vs = [] := List.eq_nil_of_length_eq_zero (by simp at hfit; omega)
      rfl
    · have next : (p + 1#4).toNat = p.toNat + 1 := by
        have := BitVec.toNat_ne.mp last
        simp only [BitVec.toNat_add, BitVec.toNat_ofNat] at this ⊢
        omega
      rw [if_neg last, List.length_cons, Nat.add_comm vs.length, ← Nat.add_assoc, ← next]
      refine Eq.trans (ih hphase hmode hainc rfl (by omega)) ?_
      rw [storeBytes, next]

/-- With the pointer standing still (R66, R72): every byte is stored at the same address. -/
theorem acceptBytes_still {c : Chip} {p : BitVec 4} (payload : List Byte) (hphase : c.phase = .address)
    (hmode : c.mode = .write) (hainc : c.ainc ≠ .auto) (hptr : c.ptr = some p) :
    payload.foldl Chip.acceptByte c = { c with dram := storeBytes 0 p.toNat payload c.dram } := by
  induction payload generalizing c with
  | nil => rfl
  | cons v vs ih =>
    have still : c.nextPtr p = some p := by
      unfold Chip.nextPtr
      split
      · contradiction
      · rfl
    rw [List.foldl_cons, acceptByte_stores v hphase hmode hptr, still, ← hptr]
    exact ih hphase hmode hainc hptr

/-- Past address 0xF (R79 case b, R305): what does not fit finds the pointer UNKNOWN, and havocs. -/
theorem acceptBytes_overflow {c : Chip} {p : BitVec 4} (payload : List Byte) (hphase : c.phase = .address)
    (hmode : c.mode = .write) (hainc : c.ainc = .auto) (hptr : c.ptr = some p)
    (hover : 16 < p.toNat + payload.length) :
    ∃ m, payload.foldl Chip.acceptByte c = Chip.havocDisplay { c with dram := m, ptr := none } := by
  obtain ⟨v, rest, hrest⟩ := List.exists_cons_of_length_pos (l := payload.drop (16 - p.toNat)) (by
    rw [List.length_drop]
    omega)
  have fits : p.toNat + (payload.take (16 - p.toNat)).length = 16 := by
    rw [List.length_take]
    omega
  refine ⟨storeBytes 1 p.toNat (payload.take (16 - p.toNat)) c.dram, ?_⟩
  calc payload.foldl Chip.acceptByte c
    _ = (v :: rest).foldl Chip.acceptByte ((payload.take (16 - p.toNat)).foldl Chip.acceptByte c) := by
      rw [← List.foldl_append, ← hrest, List.take_append_drop]
    _ = _ := by
      rw [acceptBytes_auto _ hphase hmode hainc hptr fits.le, if_pos fits]
      exact acceptBytes_havocDisplay v rest (c := { c with dram := _, ptr := _ }) hphase (.inr rfl)

/-! ## WRITE_DATA and SET_ADDRESS -/

/-- WRITE_DATA, and SET_ADDRESS with the same payload, to an attached chip: one transaction of the masked address and
the payload (R72, R164). -/
theorem exec_write {a : Byte} {payload : List Byte} {i : Instr} {s : State} (hstb : s.stb = true) (hclk : s.clk = true)
    (hbus : s.bus = .attached) (hi : i = .writeData a payload ∨ i = .setAddress (maskAddress a) payload) :
    ∃ t, exec i s = .next t ∧ (i = .writeData a payload → t.response = [0x00#8]) ∧
      t.stb = true ∧ t.clk = true ∧ t.bus = .attached ∧
      t.chip = { payload.foldl Chip.acceptByte (s.chip.addressed (maskAddress a)) with
        phase := .idle, bits := [], out := true } := by
  have chip := afterSent_setAddress s.chip (maskAddress a) payload
  have wire := sendFrame_idle (setAddressByte ((maskAddress a).setWidth 8) :: payload) (acceptOperation s) hstb hclk
  have attached : ∀ f, (acceptOperation s).chipAfter f = f s.chip := by simp [State.chipAfter, hbus]
  obtain rfl | rfl := hi
  · refine ⟨_, rfl, fun _ => rfl, ?_⟩
    rw [wire, attached]
    exact ⟨hstb, hclk, hbus, chip⟩
  · refine ⟨_, rfl, nofun, ?_⟩
    simp only [runTransaction, transaction, wire, attached]
    exact ⟨hstb, hclk, hbus, chip⟩

/-- Settles O29: the first byte of the payload havocs (R79 case a); with no byte the transaction ends after the
address (R72). -/
theorem writeWithoutInitIsAHazard : Obligations.WriteWithoutInitIsAHazard := by
  intro a payload i s hstb hclk hbus hmode hi
  obtain ⟨t, ht, response, -, -, -, chip⟩ := exec_write hstb hclk hbus hi
  refine ⟨t, ht, response, fun hne => ?_, fun hnil => ?_⟩
  · obtain ⟨v, vs, rfl⟩ := List.exists_cons_of_ne_nil hne
    rw [acceptBytes_havocDisplay v vs (c := s.chip.addressed (maskAddress a)) rfl (.inl hmode)] at chip
    rw [chip]
    exact ⟨rfl, rfl, rfl, rfl, rfl, fun _ => rfl, rfl⟩
  · rw [chip, hnil]
    rfl

/-- Settles O30: `acceptBytes_overflow`. -/
theorem pointerOverflowIsAHazard : Obligations.PointerOverflowIsAHazard := by
  intro a payload i s hstb hclk hbus hmode hainc hover hi
  obtain ⟨t, ht, response, -, -, -, chip⟩ := exec_write hstb hclk hbus hi
  obtain ⟨m, hm⟩ :=
    acceptBytes_overflow payload (c := s.chip.addressed (maskAddress a)) rfl hmode hainc rfl hover
  rw [hm] at chip
  refine ⟨t, ht, response, ?_⟩
  rw [chip]
  exact ⟨rfl, hmode, hainc, fun _ => rfl, rfl⟩

/-- A payload that stays within the registers stores its bytes by a step that the address mode gives, and leaves the
pointer where the address, the mode and the payload's length alone put it (R72). -/
theorem afterWrite_stores (a : BitVec 4) (payload : List Byte) (ainc : AddressMode)
    (hfit : ainc = .auto → a.toNat + payload.length ≤ 16) :
    ∃ (step : Nat) (ptr : Option (BitVec 4)), ∀ c : Chip, c.mode = .write → c.ainc = ainc →
      payload.foldl Chip.acceptByte (c.addressed a) =
        { c.addressed a with dram := storeBytes step a.toNat payload c.dram, ptr := ptr } := by
  by_cases hauto : ainc = .auto
  · exact ⟨1, _, fun c hmode hainc =>
      acceptBytes_auto payload (c := c.addressed a) rfl hmode (hainc.trans hauto) rfl (hfit hauto)⟩
  · exact ⟨0, some a, fun c hmode hainc =>
      acceptBytes_still payload (c := c.addressed a) rfl hmode (fun h => hauto (hainc.symm.trans h)) rfl⟩

/-- What an address holds is what is listed for it, or its draw (R63, R79). -/
theorem dramByte_congr {c d : Chip} {x : Nat} (hread : memRead d.dram x = memRead c.dram x)
    (hepoch : d.epoch = c.epoch) :
    d.dramByte x = c.dramByte x := by
  rw [Chip.dramByte, Chip.dramByte, hread, hepoch]

/-- Settles O31: both writes store the same bytes by the same step (`afterWrite_stores`), and storing them twice is
storing them once. -/
theorem displayWritesAreIdempotent : Obligations.DisplayWritesAreIdempotent := by
  intro a payload i s t u hstb hclk hbus hmode _ hfit hi ht hu
  obtain ⟨step, ptr, stores⟩ := afterWrite_stores (maskAddress a) payload s.chip.ainc hfit
  obtain ⟨t', ht', -, tstb, tclk, tbus, tchip⟩ := exec_write hstb hclk hbus hi
  cases ht.symm.trans ht'
  obtain ⟨u', hu', -, -, -, -, uchip⟩ := exec_write tstb tclk tbus hi
  cases hu.symm.trans hu'
  rw [stores s.chip hmode rfl] at tchip
  rw [stores t.chip (by rw [tchip]; exact hmode) (by rw [tchip]; rfl)] at uchip
  have read : ∀ x, memRead u.chip.dram x = memRead t.chip.dram x := by
    intro x
    rw [uchip, tchip]
    exact memRead_storeBytes_twice step _ payload s.chip.dram x
  refine ⟨fun x => ⟨read x, dramByte_congr (read x) ?_⟩, ?_⟩
  · rw [uchip]; rfl
  · rw [uchip, tchip]

/-! ## Scan data -/

/-- Settles O32: packing eight bits and taking them apart gives them back. -/
theorem scanDataHoldsTheKeys : Obligations.ScanDataHoldsTheKeys := by
  intro r k
  have byte : r.scanData[k] = r.scanByte k := Vector.getElem_ofFn _
  have bits := byteBits_packBits (r.others[k].getLsbD 0) (r.keys.getLsbD (2 * k.val + 1))
    (r.keys.getLsbD (9 + 2 * k.val)) (r.others[k].getLsbD 3) (r.others[k].getLsbD 4) (r.keys.getLsbD (2 * k.val))
    (r.keys.getLsbD (8 + 2 * k.val)) (r.others[k].getLsbD 7)
  simp only [byteBits, List.cons.injEq, and_true] at bits
  obtain ⟨b0, b1, b2, b3, b4, b5, b6, b7⟩ := bits
  rw [byte]
  refine ⟨b5, b1, b6, b2, ?_⟩
  simpa only [List.forall_mem_cons, List.not_mem_nil, false_imp_iff, implies_true, and_true] using ⟨b0, b3, b4, b7⟩

/-! ## Reads -/

/-- The read transaction of an operation: the bytes received and the state after. Irreducible, so that no proof
unfolds its 217 events. -/
@[irreducible] def readFrame (s : State) : List Byte × State :=
  receiveFrame [dataReadByte] 4 (acceptOperation s)

theorem receiveFrame_length (sent : List Byte) (n : Nat) (s : State) : (receiveFrame sent n s).1.length = n :=
  receiveBytes_length n _

/-- Four bytes are received. -/
theorem readFrame_bytes (s : State) : (quadOf (readFrame s).1).toList = (readFrame s).1 := by
  rw [readFrame, toList_quadOf (receiveFrame_length _ 4 _)]

/-- The state after the read transaction, on every bus (R146, R167). -/
theorem readFrame_eq (s : State) :
    (readFrame s).2 =
      { acceptOperation s with
        stb := true, clk := true, dio := .released, pc := 217, log := readTrace.reverse
        chip := (readFrame s).2.chip } := by
  have h := readFrame_state (acceptOperation s)
  simpa only [readFrame, acceptOperation_pc, acceptOperation_log, List.append_nil, Nat.zero_add] using h

/-- The chip after the read transaction is the one its trace leaves. -/
theorem readFrame_chip (s : State) : (readFrame s).2.chip = (emitAll readTrace (acceptOperation s)).chip := by
  rw [readFrame, receiveFrame_emitAll, readTrace]

/-- DATA_READ on every bus (R71, R167). -/
theorem exec_dataRead (s : State) :
    exec .dataRead s = .next
      { s with
        stb := true, clk := true, dio := .released, busy := false, pc := 0
        log := readTrace.reverse, response := [], rawOut := (readFrame s).1, chip := (readFrame s).2.chip } := by
  have read : transaction [dataReadByte] 4 (acceptOperation s) = readFrame s := by rw [readFrame, transaction]
  simp only [exec, execDataRead, runTransaction, read]
  rw [readFrame_eq]
  rfl

/-- The READ_SCAN body on every bus (R167). -/
theorem readScanBody_eq (s : State) :
    readScanBody (acceptOperation s) =
      { acceptOperation s with
        stb := true, clk := true, dio := .released, pc := 217, log := readTrace.reverse
        scanbuf := quadOf (readFrame s).1, chip := (readFrame s).2.chip } := by
  have body : readScanBody (acceptOperation s) = { (readFrame s).2 with scanbuf := quadOf (readFrame s).1 } := by
    rw [readScanBody, readFrame]
  rw [body, readFrame_eq]

/-- READ_SCAN on every bus (R167). -/
theorem exec_readScan (s : State) :
    exec .readScan s = .next
      { s with
        stb := true, clk := true, dio := .released, busy := false, pc := 0, cause := 0#3
        log := readTrace.reverse, scanbuf := quadOf (readFrame s).1
        response := 0x00#8 :: (readFrame s).1, chip := (readFrame s).2.chip } := by
  simp only [exec, execReadScan, readScanBody_eq, readFrame_bytes]
  rfl

/-- READ_BUTTONS on every bus (R243). -/
theorem exec_readButtons (s : State) :
    exec .readButtons s = .next
      { s with
        stb := true, clk := true, dio := .released, busy := false, pc := 0, cause := 0#3
        log := readTrace.reverse, scanbuf := quadOf (readFrame s).1, btn := decodeScanBytes (quadOf (readFrame s).1)
        response := 0x00#8 :: buttonBytes (decodeScanBytes (quadOf (readFrame s).1))
        chip := (readFrame s).2.chip } := by
  simp only [exec, execReadButtons, readScanBody_eq]
  rfl

/-- Settles O21: `exec_dataRead`, and what an attached chip presents and becomes (`receiveFrame_read`). -/
theorem dataReadRuns : Obligations.DataReadRuns := by
  intro s hbus hstb hclk
  obtain ⟨bytes, chip⟩ := receiveFrame_read (acceptOperation s) hbus hstb hclk
  simp only [exec_dataRead, readFrame, bytes, chip, hstb, hclk]
  rfl

/-- Events on a bus without an attached chip change nothing of the chip but the count of draws (R75, R266). -/
theorem emitAll_chip_lost {es : List Event} {s : State} (h : s.bus ≠ .attached) :
    { (emitAll es (acceptOperation s)).chip with draws := s.chip.draws } = s.chip := by
  obtain ⟨n, hn⟩ := emitAll_chip_absent es (acceptOperation s) h
  rw [hn]
  rfl

/-- Settles O55: every instruction's chip is the one its trace leaves. -/
theorem writesToAnAbsentChipAreLost : Obligations.WritesToAnAbsentChipAreLost := by
  intro i s t hbus ht
  rw [(EndsAs.of_exec ht).chip, emitAll_chip_lost hbus]

/-- Settles O34: the three reads share one read transaction. -/
theorem readsCompleteOnEveryBus : Obligations.ReadsCompleteOnEveryBus := by
  intro s
  refine ⟨quadOf (readFrame s).1, (readFrame s).2.chip, ?_, exec_readButtons s, ?_, fun hbus => ?_⟩
  · rw [readFrame_bytes]
    exact exec_readScan s
  · rw [readFrame_bytes]
    exact exec_dataRead s
  · rw [readFrame_chip, emitAll_chip_lost hbus]

/-- One bit received on a silent bus is 1 (R76, R144). -/
theorem receiveBit_silent (k : Nat) (p : Byte × State) (hbus : p.2.bus = .silent) (hdio : p.2.dio = .released) :
    (receiveBit k p).1 = insertBit p.1 k true ∧
      (receiveBit k p).2.bus = .silent ∧ (receiveBit k p).2.dio = .released := by
  have low : (emitAll clockLowEvents p.2).sampleValue = true := by
    have bus : (emitAll clockLowEvents p.2).bus = .silent := (emitAll_wireOnly _ _).bus.trans hbus
    have dio : (emitAll clockLowEvents p.2).dio = .released := by rw [emitAll_dio, hdio]; rfl
    simp [State.sampleValue, State.dioLevel, State.blockPull, State.chipPull, bus, dio]
  refine ⟨by rw [receiveBit, low], ?_, ?_⟩
  · rw [receiveBit, (emitAll_wireOnly _ _).bus, (emitAll_wireOnly _ _).bus, hbus]
  · rw [receiveBit, emitAll_dio, emitAll_dio, hdio]
    rfl

/-- Bits received on a silent bus are ones, whatever their places (R76, R144). -/
theorem receiveBits_silent (ks : List Nat) (p : Byte × State) (hbus : p.2.bus = .silent) (hdio : p.2.dio = .released) :
    (ks.foldl (fun p k => receiveBit k p) p).1 = ks.foldl (fun acc k => insertBit acc k true) p.1 := by
  induction ks generalizing p with
  | nil => rfl
  | cons k ks ih =>
    obtain ⟨bit, hbus, hdio⟩ := receiveBit_silent k p hbus hdio
    rw [List.foldl_cons, List.foldl_cons, ih _ hbus hdio, bit]

/-- A byte received on a silent bus is 0xFF (R76). -/
theorem receiveByte_silent (s : State) (hbus : s.bus = .silent) : (receiveByte s).1 = 0xFF#8 := by
  have packed : [0, 1, 2, 3, 4, 5, 6, 7].foldl (fun acc k => insertBit acc k true) 0#8 = 0xFF#8 := by decide
  rw [receiveByte, receiveBits_silent _ _ hbus rfl, packed]

/-- Every byte received on a silent bus is 0xFF (R76). -/
theorem receiveBytes_silent (n : Nat) (s : State) (hbus : s.bus = .silent) :
    (receiveBytes n s).1 = List.replicate n 0xFF#8 := by
  induction n generalizing s with
  | zero => rfl
  | succ n ih =>
    have after : (receiveByte s).2.bus = .silent := by
      rw [receiveByte_emitAll, (emitAll_wireOnly _ _).bus, hbus]
    rw [receiveBytes, receiveByte_silent s hbus, ih _ after, List.replicate_succ]

/-- So is every byte of a receiving transaction (R76). -/
theorem receiveFrame_silent (sent : List Byte) (n : Nat) (s : State) (hbus : s.bus = .silent) :
    (receiveFrame sent n s).1 = List.replicate n 0xFF#8 := by
  refine receiveBytes_silent n _ ?_
  rw [(emit_wireOnly _ _).bus, sendBytes_emitAll, (emitAll_wireOnly _ _).bus, openFrame,
    (emitAll_wireOnly _ _).bus, hbus]

/-- A read on a silent bus (R76): four bytes 0xFF, the chip as it was. -/
theorem readFrame_silent (s : State) (hbus : s.bus = .silent) :
    (readFrame s).1 = List.replicate 4 0xFF#8 ∧ (readFrame s).2.chip = s.chip := by
  constructor
  · rw [readFrame, receiveFrame_silent _ _ (acceptOperation s) hbus]
  · rw [readFrame_chip, emitAll_chip_detached _ (acceptOperation s) hbus, acceptOperation_chip]

/-- Settles O35: `readFrame_silent`, and the decode table gives all buttons for four bytes 0xFF (R76). -/
theorem silentBusReadsAllOnes : Obligations.SilentBusReadsAllOnes := by
  intro s hbus
  obtain ⟨bytes, chip⟩ := readFrame_silent s hbus
  have buttons : decodeScanBytes (quadOf (List.replicate 4 0xFF#8)) = 0xFFFF#16 := by decide
  refine ⟨⟨_, exec_readScan s, ?_, rfl, chip⟩, ⟨_, exec_readButtons s, ?_, ?_, rfl, chip⟩⟩
  · rw [bytes]
    rfl
  · rw [bytes, buttons]
    rfl
  · rw [bytes, buttons]

/-! ## The lines of a frame -/

/-- The chip after the transactions of some segment lines of a frame (R194). -/
def Chip.afterSomeLines (c : Chip) (f : Octet) (bs : List (Fin 8)) : Chip :=
  bs.foldl (fun d b => d.afterSent [setAddressByte (lineAddress b.val), f[b]]) c

/-- One line in write mode (R61, R72): the byte is stored at the line's register, which is no address that two bytes
could run past. -/
theorem afterSent_line (c : Chip) (b : Fin 8) (v : Byte) (hmode : c.mode = .write) :
    c.afterSent [setAddressByte (lineAddress b.val), v] =
      { c with
        dram := memWrite c.dram (lineRegister b) v, ptr := c.nextPtr (BitVec.ofNat 4 (2 * b.val))
        phase := .idle, bits := [], out := true } := by
  have address : ∀ b : Fin 8, lineAddress b.val = (BitVec.ofNat 4 (2 * b.val)).setWidth 8 := by decide
  have register : ∀ b : Fin 8, (BitVec.ofNat 4 (2 * b.val)).toNat = lineRegister b := by decide
  rw [address, afterSent_setAddress, List.foldl_cons, List.foldl_nil,
    acceptByte_stores (c := c.addressed _) v rfl hmode rfl, register]
  rfl

/-- Lines sent in write mode fill their registers and leave every other one alone (R61, R195). -/
theorem afterSomeLines_registers (c : Chip) (f : Octet) (bs : List (Fin 8)) (hmode : c.mode = .write) :
    (∀ b ∈ bs, memRead (c.afterSomeLines f bs).dram (lineRegister b) = some f[b]) ∧
      (∀ x, (∀ b ∈ bs, x ≠ lineRegister b) → memRead (c.afterSomeLines f bs).dram x = memRead c.dram x) ∧
      (c.afterSomeLines f bs).epoch = c.epoch := by
  induction bs generalizing c with
  | nil => exact ⟨nofun, fun _ _ => rfl, rfl⟩
  | cons b bs ih =>
    have line := afterSent_line c b f[b] hmode
    obtain ⟨filled, kept, epoch⟩ :=
      ih (c.afterSent [setAddressByte (lineAddress b.val), f[b]]) (by rw [line]; exact hmode)
    refine ⟨fun b' hb' => ?_, fun x hx => ?_, epoch.trans (by rw [line])⟩
    · by_cases later : b' ∈ bs
      · exact filled b' later
      · obtain rfl : b' = b := (List.mem_cons.mp hb').resolve_right later
        refine (kept _ fun b hb heq => later ?_).trans ?_
        · obtain rfl : b' = b := Fin.ext (by simp only [lineRegister] at heq; omega)
          exact hb
        · rw [line]
          exact memRead_memWrite_same _ _ _
    · refine (kept x fun b' hb' => hx b' (List.mem_cons_of_mem b hb')).trans ?_
      rw [line]
      exact memRead_memWrite_other _ _ (hx b List.mem_cons_self).symm

/-- The transaction of one segment line of a frame (R194). -/
def lineTrace (f : Octet) (b : Fin 8) : List Event :=
  sendFrameTrace [setAddressByte (lineAddress b.val), f[b]]

/-- The wire part of WRITE_DIGITS is one such transaction for each line (R194). -/
theorem linesTrace_eq (f : Octet) : linesTrace f = (List.finRange 8).flatMap (lineTrace f) := rfl

/-- The transactions of some lines from idle lines, on an attached chip (R194). -/
theorem emitAll_someLines (f : Octet) (bs : List (Fin 8)) (s : State) (hstb : s.stb = true) (hclk : s.clk = true)
    (hbus : s.bus = .attached) :
    (emitAll (bs.flatMap (lineTrace f)) s).chip = s.chip.afterSomeLines f bs := by
  induction bs generalizing s with
  | nil => rfl
  | cons b bs ih =>
    have frame := sendFrame_idle [setAddressByte (lineAddress b.val), f[b]] s hstb hclk
    rw [List.flatMap_cons, emitAll_append, lineTrace, ← sendFrame_emitAll, ih, sendFrame_chip _ s hbus hstb hclk]
    · rfl
    · rw [frame]; exact hstb
    · rw [frame]; exact hclk
    · rw [frame]; exact hbus

/-- SEND_BYTE takes 48 events (R142). -/
theorem sendTrace_length (v : Byte) : (sendTrace v).length = 48 := rfl

/-- The transaction of one line takes 100 events (R309). -/
theorem lineTrace_length (f : Octet) (b : Fin 8) : (lineTrace f b).length = 100 := by
  simp [lineTrace, sendFrameTrace, frameTrace, sendTrace_length]

/-- The first 100k events of WRITE_DIGITS are its first k transactions (R306, R309). -/
theorem linesTrace_take (f : Octet) {k : Nat} (hk : k ≤ 8) :
    (linesTrace f).take (100 * k) = ((List.finRange 8).take k).flatMap (lineTrace f) := by
  have lengths : ((List.finRange 8).map (lineTrace f)).map List.length = List.replicate 8 100 :=
    List.eq_replicate_of_mem (by simp [lineTrace_length])
  have events : ((((List.finRange 8).map (lineTrace f)).map List.length).take k).sum = 100 * k := by
    rw [lengths, List.take_replicate, List.sum_replicate, min_eq_left hk, smul_eq_mul, Nat.mul_comm]
  rw [linesTrace_eq, List.flatMap_def, List.flatMap_def, ← events, List.take_sum_flatten, List.map_take]

/-- Settles O43: the first 100k events are the first k lines, and they fill their registers and no others (R85,
R306). -/
theorem displayTearsBetweenTransactions : Obligations.DisplayTearsBetweenTransactions := by
  intro d s t k hstb hclk hbus hmode hk ht
  have lines : ∀ (k : Fin 9) (b : Fin 8), b ∈ (List.finRange 8).take k.val ↔ b.val < k.val := by decide
  have sent : ∀ b, b ∈ (List.finRange 8).take k ↔ b.val < k := lines ⟨k, by omega⟩
  obtain ⟨filled, kept, epoch⟩ :=
    afterSomeLines_registers s.chip (scrambleDigits d) ((List.finRange 8).take k) hmode
  refine ⟨s.chip.afterSomeLines (scrambleDigits d) ((List.finRange 8).take k), ?_, fun b hb => ?_, fun x hx => ?_⟩
  · rw [(EndsAs.of_exec ht).trace, opTrace, linesTrace_take _ hk,
      emitAll_someLines _ _ (acceptOperation s) hstb hclk hbus, acceptOperation_chip]
  · exact filled b ((sent b).mpr hb)
  · have read := kept x fun b hb => hx b ((sent b).mp hb)
    exact ⟨read, dramByte_congr read epoch⟩

/-! ## Instructions that send no data byte -/

/-- The display registers hold what they held: the bytes written, and the draws of the others. -/
def Chip.SameDisplay (c d : Chip) : Prop :=
  d.dram = c.dram ∧ d.epoch = c.epoch

/-- A transaction that only sends leaves the display registers alone if it leaves those of an attached chip alone. -/
theorem sendFrameTrace_sameDisplay (bs : List Byte) (s : State) (hbus : s.bus = .attached) (hstb : s.stb = true)
    (hclk : s.clk = true) (h : s.chip.SameDisplay (s.chip.afterSent bs)) :
    s.chip.SameDisplay (emitAll (sendFrameTrace bs) s).chip := by
  rw [← sendFrame_emitAll, sendFrame_chip bs s hbus hstb hclk]
  exact h

theorem readTrace_sameDisplay (s : State) (hbus : s.bus = .attached) (hstb : s.stb = true) (hclk : s.clk = true) :
    s.chip.SameDisplay (emitAll readTrace s).chip := by
  rw [readTrace, ← receiveFrame_emitAll, (receiveFrame_read s hbus hstb hclk).2]
  exact ⟨rfl, rfl⟩

/-- Commands and reads store nothing (R65, R86), and operations without wire events do not reach the chip (R118). -/
theorem opTrace_sameDisplay {i : Instr} (op s : State) (hstores : storesDisplay i = false) (hstb : s.stb = true)
    (hclk : s.clk = true) : s.chip.SameDisplay (emitAll (opTrace i op) s).chip := by
  by_cases hbus : s.bus = .attached
  · have control : ∀ d ppp, s.chip.SameDisplay (emitAll (sendFrameTrace [displayControlByte d ppp]) s).chip :=
      fun d ppp =>
        sendFrameTrace_sameDisplay _ s hbus hstb hclk (by rw [afterSent_displayControl]; exact ⟨rfl, rfl⟩)
    have write : ∀ auto, s.chip.SameDisplay (emitAll (sendFrameTrace [dataWriteByte auto]) s).chip :=
      fun auto =>
        sendFrameTrace_sameDisplay _ s hbus hstb hclk (by rw [afterSent_dataWrite]; exact ⟨rfl, rfl⟩)
    have read := readTrace_sameDisplay s hbus hstb hclk
    cases i with
    | displayControl d ppp => exact control d ppp
    | dataWrite fixed => exact write (!fixed)
    | dataRead => exact read
    | setAddress _ _ => cases hstores
    | configureDisplay en pw => exact control en pw
    | initWriteData auto => exact write auto
    | writeData _ _ => cases hstores
    | readScan => exact read
    | writeDigits _ => cases hstores
    | writeString _ => cases hstores
    | readButtons => exact read
    | buildDigits _ => exact ⟨rfl, rfl⟩
    | scramble _ => exact ⟨rfl, rfl⟩
    | unscramble _ => exact ⟨rfl, rfl⟩
    | decodeScan _ => exact ⟨rfl, rfl⟩
  · obtain ⟨n, hn⟩ := emitAll_chip_absent (opTrace i op) s hbus
    rw [hn]
    exact ⟨rfl, rfl⟩

/-- Settles O53: the chip is the one the trace leaves, and the trace leaves the display registers alone. -/
theorem otherInstructionsKeepDisplayMemory : Obligations.OtherInstructionsKeepDisplayMemory := by
  intro i s t hstores hstb hclk ht x
  obtain ⟨dram, epoch⟩ := opTrace_sameDisplay s (acceptOperation s) hstores hstb hclk
  rw [(EndsAs.of_exec ht).chip]
  have read := congrArg (memRead · x) dram
  exact ⟨read, dramByte_congr read epoch⟩

/-! ## Properties of the chip that every step keeps -/

section EveryStep

variable {P : Chip → Prop}

theorem onChip_keeps {f : Chip → Chip} {s : State} (hf : ∀ c, P c → P (f c)) (h : P s.chip) :
    P (s.onChip f).chip := by
  unfold State.onChip
  split
  · exact hf _ h
  · exact h

variable (hP : ChipClosed P)
include hP

/-- Reset shows the chip a rising edge of STB at most (R290, R291). -/
theorem resetBlock_keeps {s : State} (h : P s.chip) : P (resetBlock s).chip := by
  cases hstb : s.stb with
  | true => rwa [resetBlock_chip s hstb]
  | false =>
    show P (driveStbLine true s).chip
    simp only [driveStbLine, hstb]
    exact onChip_keeps (s := { s with stb := true }) hP.strobeRise h

theorem settleIdle_keeps {s : State} (h : P s.chip) : P (settleIdle s).chip := by
  unfold settleIdle
  split
  · exact h
  · exact resetBlock_keeps hP h

/-- The reset input keeps what the chip had before the operation and after it. -/
theorem settleReset_keeps {before after : State} (hbefore : P before.chip) (hafter : P after.chip) :
    P (settleReset before after).chip := by
  unfold settleReset
  split
  · exact hafter
  · split
    · exact abandonOperation_chip hP _ _ hbefore
    · exact resetBlock_keeps hP hafter

theorem runTransaction_keeps {sent : List Byte} {n : Nat} {s : State} (h : P s.chip) :
    P (runTransaction sent n s).chip := by
  rw [(endsAs_runTransaction sent n s _ (transaction_emitAll _ _ _)).chip]
  exact emitAll_chip hP _ _ h

theorem exec_keeps {i : Instr} {s t : State} (ht : exec i s = .next t) (h : P s.chip) : P t.chip := by
  rw [(EndsAs.of_exec ht).chip]
  exact emitAll_chip hP _ _ h

/-- A property of the chip that no edge ends is kept by every step. -/
theorem step_keeps {s t : State} (ht : step s = .next t) (h : P s.chip) : P t.chip := by
  obtain ⟨-, hs⟩ | ⟨u, hf, hs⟩ | ⟨sent, n, u, hf, hs⟩ | ⟨i, u, v, hf, hv, hs⟩ := step_cases s <;>
    cases ht.symm.trans hs
  · exact settleIdle_keeps hP h
  · obtain ⟨-, -, _, _, -, rfl⟩ := fetch_reject hf
    exact settleReset_keeps hP h h
  · obtain ⟨-, _, -, rfl⟩ := fetch_undescribed hf
    exact settleReset_keeps hP h (runTransaction_keeps hP h)
  · obtain ⟨-, ⟨-, _, -, rfl⟩ | ⟨_, _, _, _, -, -, rfl⟩⟩ := fetch_run hf
    · exact settleReset_keeps hP h (exec_keeps hP hv h)
    · exact settleReset_keeps hP h (exec_keeps hP hv h)

end EveryStep

/-! ## Transactions of HAZARD cases c, d and e -/

/-- The command bytes after which no further byte may follow (R69, R70, R79 case c). -/
def isSingleCommand : Command → Bool
  | .displayControl _ _ => true
  | .dataWrite _ => true
  | .dataRead _ => false
  | .setAddress _ => false

/-- The reserved command bytes in the words of R79 are those of no class (R105, R106). -/
theorem classify_reserved : ∀ v : Byte,
    (v.extractLsb' 6 2 == 0b00#2 || v.extractLsb' 4 2 != 0b00#2 ||
      (v.extractLsb' 6 2 == 0b01#2 &&
        (v.getLsbD 2 || v.extractLsb' 0 2 == 0b01#2 || v.extractLsb' 0 2 == 0b11#2))) = true →
    classify v = none := by decide +kernel

/-- The command bytes of R79 after which no byte may follow are display-control and data-write commands, or reserved. -/
theorem classify_single : ∀ v : Byte,
    (v.extractLsb' 6 2 == 0b10#2 || (v.extractLsb' 6 2 == 0b01#2 && v.extractLsb' 0 2 == 0b00#2)) = true →
    (classify v).all isSingleCommand = true := by decide +kernel

/-- The transactions of HAZARD cases c, d and e by the class of their command byte (R79, R106). -/
inductive HazardTransaction : List Byte → Nat → Prop where
  | empty (n : Nat) : HazardTransaction [] n
  | reserved (v : Byte) (payload : List Byte) (n : Nat) (h : classify v = none) : HazardTransaction (v :: payload) n
  | payload (v w : Byte) (rest : List Byte) (n : Nat) (cmd : Command) (h : classify v = some cmd)
      (hsingle : isSingleCommand cmd = true) : HazardTransaction (v :: w :: rest) n
  | receive (v : Byte) (payload : List Byte) (n : Nat) (h : v ≠ 0x42#8) : HazardTransaction (v :: payload) (n + 1)
  | fifth (v : Byte) (payload : List Byte) (n : Nat) : HazardTransaction (v :: payload) (n + 5)

/-- The conditions in the words of R79, as `isHazardTransaction` tests them, are these cases. -/
theorem hazardTransaction_of_isHazard {sent : List Byte} {n : Nat} (h : isHazardTransaction sent n = true) :
    HazardTransaction sent n := by
  cases sent with
  | nil => exact .empty n
  | cons v payload =>
    obtain h | hfifth := Bool.or_eq_true_iff.mp h
    · obtain h | hreceive := Bool.or_eq_true_iff.mp h
      · obtain hreserved | hsingle := Bool.or_eq_true_iff.mp h
        · exact .reserved v payload n (classify_reserved v hreserved)
        · obtain ⟨hcmd, hpayload⟩ := Bool.and_eq_true_iff.mp hsingle
          cases hc : classify v with
          | none => exact .reserved v payload n hc
          | some cmd =>
            have hcmd := classify_single v hcmd
            rw [hc] at hcmd
            cases payload with
            | nil => cases hpayload
            | cons w rest => exact .payload v w rest n cmd hc hcmd
      · obtain ⟨hv, hn⟩ := Bool.and_eq_true_iff.mp hreceive
        obtain ⟨m, rfl⟩ := Nat.exists_eq_add_of_le' (of_decide_eq_true hn)
        exact .receive v payload m (bne_iff_ne.mp hv)
    · obtain ⟨m, rfl⟩ := Nat.exists_eq_add_of_le' (of_decide_eq_true hfifth)
      exact .fifth v payload m

/-- A transaction that receives is described only if it is 0x42 and four receives (R71, R107). -/
theorem decode_receives (v : Byte) (payload : List Byte) (n : Nat) (h : v ≠ 0x42#8 ∨ n + 1 ≠ 4) :
    decode (.transaction (v :: payload) (n + 1)) = .rejected .undescribedTransaction [] := by
  cases hc : classify v with
  | none => simp only [decode, decodeTransaction, hc]
  | some cmd =>
    cases cmd with
    | displayControl d ppp => simp [decode, decodeTransaction, hc]
    | dataWrite fixed => simp [decode, decodeTransaction, hc]
    | setAddress a => simp [decode, decodeTransaction, hc]
    | dataRead fixed =>
      have other : ¬(fixed = false ∧ payload = [] ∧ n + 1 = 4) := by
        rintro ⟨rfl, -, hn⟩
        exact h.elim (· (classify_eq_dataRead v hc)) (· hn)
      simp only [decode, decodeTransaction, hc, if_neg other]

/-- Such a transaction is none of the forms R69 to R72. -/
theorem HazardTransaction.undescribed {sent : List Byte} {n : Nat} (h : HazardTransaction sent n) :
    decode (.transaction sent n) = .rejected .undescribedTransaction [] := by
  cases h with
  | empty n => rfl
  | reserved v payload n h => simp only [decode, decodeTransaction, h]
  | payload v w rest n cmd h hsingle =>
    cases cmd with
    | displayControl d ppp => simp [decode, decodeTransaction, h]
    | dataWrite fixed => simp [decode, decodeTransaction, h]
    | dataRead fixed => cases hsingle
    | setAddress a => cases hsingle
  | receive v payload n h => exact decode_receives v payload n (.inl h)
  | fifth v payload n => exact decode_receives v payload (n + 4) (.inr (by omega))

/-! ## What they leave of an attached chip -/

/-- Bytes sent take draws and give none back. -/
theorem acceptBytes_draws (c : Chip) (bs : List Byte) : c.draws ≤ (bs.foldl Chip.acceptByte c).draws := by
  induction bs generalizing c with
  | nil => exact le_rfl
  | cons v bs ih => exact (acceptByte_draws c v).trans (ih _)

/-- RECEIVE_BYTE m + n times is m times and then n times. -/
theorem receiveBytes_add (m n : Nat) (s : State) :
    (receiveBytes (m + n) s).2 = (receiveBytes n (receiveBytes m s).2).2 := by
  rw [receiveBytes_emitAll, receiveBytes_emitAll, receiveBytes_emitAll, List.replicate_add, List.flatten_append,
    emitAll_append]

/-- Bytes received while the chip presents scan data use up its bits (R71). -/
theorem receiveBytes_reading (vs : List Byte) {n : Nat} (hn : vs.length = n) (rest : List Bool) (s : State)
    (hbus : s.bus = .attached) (hclk : s.clk = true) (hph : s.chip.phase = .reading (vs.flatMap byteBits ++ rest)) :
    (receiveBytes n s).2.chip.phase = .reading rest ∧ (receiveBytes n s).2.bus = .attached ∧
      (receiveBytes n s).2.clk = true := by
  subst hn
  induction vs generalizing s with
  | nil => exact ⟨hph, hbus, hclk⟩
  | cons v vs ih =>
    rw [List.flatMap_cons, List.append_assoc] at hph
    obtain ⟨-, chip, bus, clk⟩ := receiveByte_reading v _ s hbus hclk hph
    exact ih (receiveByte s).2 bus clk (by rw [chip])

/-- Bytes received from a havocked chip leave it havocked. -/
theorem Chip.Havocked.receiveBytes {k : Nat} {s : State} (h : s.chip.Havocked k) (n : Nat) (hbus : s.bus = .attached) :
    (receiveBytes n s).2.chip.Havocked k := by
  rw [receiveBytes_emitAll]
  exact h.emitAll _ (driveStb_not_mem_receives n) s hbus

/-- HAZARD case c: a reserved command byte (R79). -/
theorem reserved_havocked (c : Chip) {v : Byte} (payload : List Byte) (h : classify v = none) :
    ((v :: payload).foldl Chip.acceptByte c.strobeFall).Havocked c.draws := by
  have command : c.strobeFall.acceptByte v = c.strobeFall.havocAll := acceptCommand_reserved c.strobeFall h
  have havocked : c.strobeFall.havocAll.Havocked c.draws := havocAll_havocked (c := c.strobeFall) le_rfl
  rwa [List.foldl_cons, command, havocked.acceptBytes]

/-- HAZARD case c: a byte after a display-control or data-write command (R79). -/
theorem single_havocked (c : Chip) {v w : Byte} (rest : List Byte) {cmd : Command} (h : classify v = some cmd)
    (hsingle : isSingleCommand cmd = true) :
    ((v :: w :: rest).foldl Chip.acceptByte c.strobeFall).Havocked c.draws := by
  have command : (c.strobeFall.acceptByte v).phase = .single := by
    show (c.strobeFall.acceptCommand v).phase = .single
    rw [Chip.acceptCommand, h]
    cases cmd with
    | displayControl d ppp => rfl
    | dataWrite fixed => rfl
    | dataRead fixed => cases hsingle
    | setAddress a => cases hsingle
  have byte : (c.strobeFall.acceptByte v).acceptByte w = (c.strobeFall.acceptByte v).havocAll := by
    rw [Chip.acceptByte, command]
  have havocked : (c.strobeFall.acceptByte v).havocAll.Havocked c.draws :=
    havocAll_havocked (acceptByte_draws c.strobeFall v)
  rwa [List.foldl_cons, List.foldl_cons, byte, havocked.acceptBytes]

/-- HAZARD case d: a fifth receive after 0x42 finds all bits presented (R71, R79). -/
theorem fifth_receive_havocked {c : Chip} {s : State} (n : Nat) (hbus : s.bus = .attached) (hclk : s.clk = true)
    (hchip : s.chip = c.strobeFall.acceptByte dataReadByte) (hdraws : c.draws ≤ s.chip.draws) :
    (receiveBytes (n + 5) s).2.chip.Havocked c.draws := by
  have reading : s.chip.phase = .reading ([c.nextRead.scanData[0], c.nextRead.scanData[1], c.nextRead.scanData[2],
      c.nextRead.scanData[3]].flatMap byteBits ++ []) := by
    rw [hchip, acceptByte_dataRead]
    simp [KeyRead.scanBits]
  obtain ⟨phase, bus, clk⟩ := receiveBytes_reading _ (n := 4) rfl [] s hbus hclk reading
  have draws : c.draws ≤ (receiveBytes 4 s).2.chip.draws := by
    rw [receiveBytes_emitAll]
    exact emitAll_chip (draws_closed c.draws) _ s hdraws
  rw [show n + 5 = 4 + (n + 1) by omega, receiveBytes_add]
  refine receives_havocked n _ bus clk draws ?_ ?_
  · rw [phase]; exact nofun
  · rw [phase]; exact nofun

/-- Each of them leaves all state of an attached chip at draws not taken before (R79). -/
theorem HazardTransaction.allDrawn {sent : List Byte} {n : Nat} (h : HazardTransaction sent n) {s : State}
    (hbus : s.bus = .attached) (hstb : s.stb = true) (hclk : s.clk = true) :
    ∃ k, s.chip.draws ≤ k ∧ (transaction sent n s).2.chip.AllDrawn k := by
  obtain ⟨u, ubus, uclk, uchip, after⟩ := transaction_chip sent n s hbus hstb hclk
  have draws : s.chip.draws ≤ u.chip.draws := by
    rw [uchip]
    exact acceptBytes_draws s.chip.strobeFall sent
  have received : ∀ m, sent ≠ [0x42#8] → (receiveBytes (m + 1) u).2.chip.Havocked s.chip.draws := by
    intro m hsent
    obtain ⟨idle, reading⟩ := sent_presents_nothing s.chip sent hsent
    rw [← uchip] at idle reading
    exact receives_havocked m u ubus uclk draws idle reading
  rw [after]
  cases h with
  | empty n =>
    cases n with
    | zero =>
      refine ⟨s.chip.draws, le_rfl, ?_⟩
      show u.chip.strobeRise.AllDrawn s.chip.draws
      rw [uchip]
      exact abandoned_allDrawn s.chip.strobeFall
    | succ n => exact (received n nofun).strobeRise
  | reserved v payload n h =>
    have havocked := reserved_havocked s.chip payload h
    rw [← uchip] at havocked
    exact (havocked.receiveBytes n ubus).strobeRise
  | payload v w rest n cmd h hsingle =>
    have havocked := single_havocked s.chip (w := w) rest h hsingle
    rw [← uchip] at havocked
    exact (havocked.receiveBytes n ubus).strobeRise
  | receive v payload n h => exact (received n fun heq => h (List.cons.inj heq).1).strobeRise
  | fifth v payload n =>
    by_cases hread : v :: payload = [0x42#8]
    · rw [hread] at uchip
      exact (fifth_receive_havocked n ubus uclk uchip draws).strobeRise
    · exact (received (n + 4) hread).strobeRise

/-- A transaction of no described form at the front of `rawIn` goes on the wire. -/
theorem step_undescribed {s : State} {sent : List Byte} {n : Nat} {later : List (List Byte × Nat)} {why : Rejection}
    {rest : List Byte} (hb : s.busy = false) (hreset : s.resetAt = none) (hraw : s.rawIn = (sent, n) :: later)
    (hd : decode (.transaction sent n) = .rejected why rest) :
    step s = .next (runTransaction sent n { s with rawIn := later }) := by
  simp only [step, fetch, hb, hraw, fetchTransaction, hd, settleReset, hreset]

/-- Settles O56: no edge clears HAZARD (`hazard_closed`, `step_keeps`); a transaction of cases c, d or e is of no
described form, goes on the wire and havocs (`HazardTransaction.allDrawn`). -/
theorem hazardIsNeverCleared : Obligations.HazardIsNeverCleared := by
  refine ⟨fun s t h ht => step_keeps hazard_closed ht h, ?_⟩
  intro s sent n later hidle hbus hreset hraw h
  obtain ⟨hstb, hclk, hbusy, -⟩ := hidle
  have hazard := hazardTransaction_of_isHazard h
  obtain ⟨k, hk, drawn⟩ := hazard.allDrawn (s := acceptOperation { s with rawIn := later }) hbus hstb hclk
  exact ⟨_, k, step_undescribed hbusy hreset hraw hazard.undescribed, hk, drawn⟩

end Sys2Proof.Machine

/-! PROOFS. The family '30_encoding.md': decoder and encoder undo each other at both ports, words of the encoding
tables, and how a host operation ends. -/

namespace Sys2Proof

/-! ## Host requests -/

/-- A request of a legal header with all its operand bytes, `rest` standing behind it (R108, R110, R111). -/
structure WholeRequest (op arg : BitVec 4) (ops rest : List Byte) : Prop where
  legalOp : reservedOp op = false
  legalArg : reservedArg op arg = false
  whole : operandBytes op (ops ++ rest) = some ops.length

/-- The decoder reads an instruction from a whole request and from nothing else. -/
theorem decode_request_iff {bytes rest : List Byte} {i : Instr} :
    decode (.request bytes) = .instr i rest ↔
      ∃ op arg ops, WholeRequest op arg ops rest ∧ bytes = headerByte op arg :: (ops ++ rest) ∧
        i = requestInstr op arg ops := by
  constructor
  · intro h
    cases bytes with
    | nil => cases h
    | cons header tail =>
      simp only [decode, decodeRequest] at h
      split at h
      case isTrue => cases h
      case isFalse hop =>
      split at h
      case h_1 => cases h
      case h_2 n hn =>
      split at h
      case isTrue => cases h
      case isFalse hlen =>
      split at h
      case isTrue => cases h
      case isFalse harg =>
      obtain ⟨rfl, rfl⟩ := Decoded.instr.inj h
      refine ⟨opField header, argField header, tail.take n, ⟨by simpa using hop, by simpa using harg, ?_⟩, ?_, rfl⟩
      · rw [List.take_append_drop, hn, List.length_take_of_le (not_lt.mp hlen)]
      · rw [List.take_append_drop, headerByte_of_fields]
  · rintro ⟨op, arg, ops, ⟨hop, harg, hwhole⟩, rfl, rfl⟩
    obtain ⟨hopField, hargField⟩ := headerByte_fields op arg
    simp [decode, decodeRequest, hopField, hargField, hop, harg, hwhole]

/-- ARG of CONFIGURE_DISPLAY (R109, R160). -/
def displayArg (enabled : Bool) (pulseWidth : BitVec 3) : BitVec 4 :=
  ((BitVec.ofBool enabled).setWidth 4 <<< 3) ||| pulseWidth.setWidth 4

/-- ARG of INIT_WRITE_DATA (R109, R162). -/
def autoArg (auto : Bool) : BitVec 4 :=
  (BitVec.ofBool auto).setWidth 4

theorem requestInstr_displayArg : ∀ en pw, requestInstr 0x1#4 (displayArg en pw) [] = .configureDisplay en pw := by
  decide

theorem requestInstr_autoArg : ∀ auto, requestInstr 0x2#4 (autoArg auto) [] = .initWriteData auto := by
  decide

/-- The legal headers: OP 0x1 with every ARG, OP 0x2 with ARG[3:1] clear, OP 0x3 to 0xB with ARG clear (R109, R111). -/
theorem legalHeader_cases : ∀ {op arg : BitVec 4}, reservedOp op = false → reservedArg op arg = false →
    (op = 0x1#4 ∧ ∃ en pw, arg = displayArg en pw) ∨ (op = 0x2#4 ∧ ∃ auto, arg = autoArg auto) ∨
      (arg = 0#4 ∧ (op = 0x3#4 ∨ op = 0x4#4 ∨ op = 0x5#4 ∨ op = 0x6#4 ∨ op = 0x7#4 ∨ op = 0x8#4 ∨ op = 0x9#4 ∨
        op = 0xA#4 ∨ op = 0xB#4)) := by
  decide +kernel

/-- A count byte that fits its bytes is the one the encoder writes, and at most 255 bytes stand behind it (R110). -/
theorem countByte_eq {count : Byte} {counted : List Byte} (h : count.toNat = counted.length) :
    count = BitVec.ofNat 8 counted.length ∧ counted.length ≤ 255 := by
  rw [← h, BitVec.ofNat_toNat, BitVec.setWidth_eq]
  exact ⟨rfl, by omega⟩

/-- The operand bytes of a text (OP 0x6 and 0x8): its length, then its characters (R110). -/
theorem textOperands {ops rest : List Byte} (h : operandBytes 0x6#4 (ops ++ rest) = some ops.length) :
    ∃ text : List Byte, text.length ≤ 255 ∧ ops = BitVec.ofNat 8 text.length :: text := by
  cases ops with
  | nil => cases rest <;> simp [operandBytes] at h
  | cons count text =>
    have hcount : 1 + count.toNat = text.length + 1 := by simpa [operandBytes] using h
    obtain ⟨hc, hle⟩ := countByte_eq (count := count) (counted := text) (by omega)
    exact ⟨text, hle, by rw [← hc]⟩

/-- The operand bytes of WRITE_DATA: the address, the length of the payload, the payload (R110). -/
theorem payloadOperands {ops rest : List Byte} (h : operandBytes 0x3#4 (ops ++ rest) = some ops.length) :
    ∃ (address : Byte) (payload : List Byte), payload.length ≤ 255 ∧
      ops = address :: BitVec.ofNat 8 payload.length :: payload := by
  match ops with
  | [] => rcases rest with _ | ⟨a, _ | ⟨n, rest⟩⟩ <;> simp [operandBytes] at h
  | [a] =>
    cases rest with
    | nil => cases h
    | cons n rest =>
      have hcount : 2 + n.toNat = 1 := by simpa [operandBytes] using h
      omega
  | address :: count :: payload =>
    have hcount : 2 + count.toNat = payload.length + 1 + 1 := by simpa [operandBytes] using h
    obtain ⟨hc, hle⟩ := countByte_eq (count := count) (counted := payload) (by omega)
    exact ⟨address, payload, hle, by rw [← hc]⟩

/-- The instruction of a whole request is well-formed, and the encoder writes that request. -/
theorem WholeRequest.encode_requestInstr {op arg : BitVec 4} {ops rest : List Byte} (h : WholeRequest op arg ops rest) :
    (requestInstr op arg ops).wellFormed = true ∧
      encode (requestInstr op arg ops) = .request (headerByte op arg :: ops) := by
  obtain ⟨hop, harg, hwhole⟩ := h
  have no_operand (h : some 0 = some ops.length) : ops = [] := List.length_eq_zero_iff.mp (Option.some.inj h).symm
  obtain ⟨rfl, en, pw, rfl⟩ | ⟨rfl, auto, rfl⟩ | ⟨rfl, rfl | rfl | rfl | rfl | rfl | rfl | rfl | rfl | rfl⟩ :=
    legalHeader_cases hop harg
  · -- CONFIGURE_DISPLAY
    obtain rfl := no_operand hwhole
    rw [requestInstr_displayArg]
    exact ⟨rfl, rfl⟩
  · -- INIT_WRITE_DATA
    obtain rfl := no_operand hwhole
    rw [requestInstr_autoArg]
    exact ⟨rfl, rfl⟩
  · -- WRITE_DATA
    obtain ⟨address, payload, hle, rfl⟩ := payloadOperands hwhole
    exact ⟨decide_eq_true hle, rfl⟩
  · -- READ_SCAN
    obtain rfl := no_operand hwhole
    exact ⟨rfl, rfl⟩
  · -- WRITE_DIGITS
    have bytes := toList_octetOf (Option.some.inj hwhole).symm
    exact ⟨rfl, congrArg (Source.request <| _ :: ·) bytes⟩
  · -- WRITE_STRING
    obtain ⟨text, hle, rfl⟩ := textOperands hwhole
    exact ⟨decide_eq_true hle, rfl⟩
  · -- READ_BUTTONS
    obtain rfl := no_operand hwhole
    exact ⟨rfl, rfl⟩
  · -- BUILD_DIGITS
    obtain ⟨text, hle, rfl⟩ := textOperands hwhole
    exact ⟨decide_eq_true hle, rfl⟩
  · -- SCRAMBLE
    have bytes := toList_octetOf (Option.some.inj hwhole).symm
    exact ⟨rfl, congrArg (Source.request <| _ :: ·) bytes⟩
  · -- UNSCRAMBLE
    have bytes := toList_octetOf (Option.some.inj hwhole).symm
    exact ⟨rfl, congrArg (Source.request <| _ :: ·) bytes⟩
  · -- DECODE_SCAN
    have bytes := toList_quadOf (Option.some.inj hwhole).symm
    exact ⟨rfl, congrArg (Source.request <| _ :: ·) bytes⟩

/-- The encoder writes a well-formed host operation as a whole request, whatever stands behind it. -/
theorem wholeRequest_of_encode {i : Instr} {bytes : List Byte} (rest : List Byte) (hwf : i.wellFormed = true)
    (h : encode i = .request bytes) :
    ∃ op arg ops, WholeRequest op arg ops rest ∧ bytes = headerByte op arg :: ops ∧ i = requestInstr op arg ops := by
  cases i with
  | displayControl d ppp => cases h
  | dataWrite fixed => cases h
  | dataRead => cases h
  | setAddress a payload => cases h
  | configureDisplay en pw =>
    cases h
    exact ⟨0x1#4, displayArg en pw, [], ⟨rfl, rfl, rfl⟩, rfl, (requestInstr_displayArg en pw).symm⟩
  | initWriteData auto =>
    cases h
    exact ⟨0x2#4, autoArg auto, [], ⟨rfl, by cases auto <;> rfl, rfl⟩, rfl, (requestInstr_autoArg auto).symm⟩
  | writeData a payload =>
    cases h
    have count := countByte_toNat (of_decide_eq_true hwf)
    refine ⟨0x3#4, 0#4, _, ⟨rfl, rfl, ?_⟩, rfl, rfl⟩
    simp [operandBytes, count, add_comm 2]
  | readScan =>
    cases h
    exact ⟨0x4#4, 0#4, [], ⟨rfl, rfl, rfl⟩, rfl, rfl⟩
  | writeDigits d =>
    cases h
    exact ⟨0x5#4, 0#4, _, ⟨rfl, rfl, congrArg some d.length_toList.symm⟩, rfl,
      congrArg Instr.writeDigits (octetOf_toList d).symm⟩
  | writeString text =>
    cases h
    have count := countByte_toNat (of_decide_eq_true hwf)
    refine ⟨0x6#4, 0#4, _, ⟨rfl, rfl, ?_⟩, rfl, rfl⟩
    simp [operandBytes, count, add_comm 1]
  | readButtons =>
    cases h
    exact ⟨0x7#4, 0#4, [], ⟨rfl, rfl, rfl⟩, rfl, rfl⟩
  | buildDigits text =>
    cases h
    have count := countByte_toNat (of_decide_eq_true hwf)
    refine ⟨0x8#4, 0#4, _, ⟨rfl, rfl, ?_⟩, rfl, rfl⟩
    simp [operandBytes, count, add_comm 1]
  | scramble d =>
    cases h
    exact ⟨0x9#4, 0#4, _, ⟨rfl, rfl, congrArg some d.length_toList.symm⟩, rfl,
      congrArg Instr.scramble (octetOf_toList d).symm⟩
  | unscramble f =>
    cases h
    exact ⟨0xA#4, 0#4, _, ⟨rfl, rfl, congrArg some f.length_toList.symm⟩, rfl,
      congrArg Instr.unscramble (octetOf_toList f).symm⟩
  | decodeScan q =>
    cases h
    exact ⟨0xB#4, 0#4, _, ⟨rfl, rfl, congrArg some q.length_toList.symm⟩, rfl,
      congrArg Instr.decodeScan (quadOf_toList q).symm⟩

/-! ## Transactions -/

/-- The byte of a command class with its fields (R101 to R103). -/
def commandByte : Command → Byte
  | .displayControl d ppp => displayControlByte d ppp
  | .dataWrite fixed => dataWriteByte (!fixed)
  | .dataRead fixed => dataReadByte ||| ((BitVec.ofBool fixed).setWidth 8 <<< 3)
  | .setAddress a => setAddressByte (a.setWidth 8)

/-- A command byte is made of its class and its fields (R106). -/
theorem commandByte_of_classify : ∀ {c : Byte} {cmd : Command}, classify c = some cmd → c = commandByte cmd := by
  have h : ∀ c : Byte, (classify c).all (fun cmd => c == commandByte cmd) = true := by decide +kernel
  intro c cmd hc
  simpa [hc] using h c

/-- A form of R69 to R72 is checked, or the transaction is rejected. -/
theorem instr_of_ite {form : Prop} [Decidable form] {i j : Instr} {why : Rejection} {rest : List Byte}
    (h : (if form then Decoded.instr j [] else .rejected why []) = .instr i rest) : form ∧ i = j ∧ rest = [] := by
  split at h
  case isTrue hform =>
    cases h
    exact ⟨hform, rfl, rfl⟩
  case isFalse => cases h

/-- A transaction decodes to an instruction exactly if the encoder writes it for that instruction. -/
theorem decode_transaction_iff {sent rest : List Byte} {n : Nat} {i : Instr} :
    decode (.transaction sent n) = .instr i rest ↔ encode i = .transaction sent n ∧ rest = [] := by
  constructor
  · intro h
    cases sent with
    | nil => cases h
    | cons c payload =>
      cases hc : classify c with
      | none => simp [decode, decodeTransaction, hc] at h
      | some cmd =>
        obtain rfl := commandByte_of_classify hc
        simp only [decode, decodeTransaction, hc] at h
        cases cmd with
        | displayControl d ppp =>
          obtain ⟨⟨rfl, rfl⟩, rfl, rfl⟩ := instr_of_ite h
          exact ⟨rfl, rfl⟩
        | dataWrite fixed =>
          obtain ⟨⟨rfl, rfl⟩, rfl, rfl⟩ := instr_of_ite h
          exact ⟨rfl, rfl⟩
        | dataRead fixed =>
          obtain ⟨⟨rfl, rfl, rfl⟩, rfl, rfl⟩ := instr_of_ite h
          exact ⟨rfl, rfl⟩
        | setAddress a =>
          obtain ⟨rfl, rfl, rfl⟩ := instr_of_ite h
          exact ⟨rfl, rfl⟩
  · rintro ⟨h, rfl⟩
    cases i with
    | displayControl d ppp =>
      cases h
      simp [decode, decodeTransaction, classify_displayControlByte]
    | dataWrite fixed =>
      cases h
      simp [decode, decodeTransaction, classify_dataWriteByte]
    | dataRead =>
      cases h
      rfl
    | setAddress a payload =>
      cases h
      simp [decode, decodeTransaction, classify_setAddressByte, Machine.setAddressByte_address]
    | _ => cases h

theorem wellFormed_of_encode_transaction {i : Instr} {sent : List Byte} {n : Nat} (h : encode i = .transaction sent n) :
    i.wellFormed = true := by
  cases i with
  | displayControl d ppp => rfl
  | dataWrite fixed => rfl
  | dataRead => rfl
  | setAddress a payload => rfl
  | _ => cases h

/-! ## The two encodings -/

/-- Settles O9: an encoded request is whole (`wholeRequest_of_encode`), and whole requests decode; a transaction decodes
exactly if it is an encoding (`decode_transaction_iff`). -/
theorem decodeOfEncode : Obligations.DecodeOfEncode := by
  intro i rest hwf
  split
  case h_1 bytes henc =>
    obtain ⟨op, arg, ops, hwhole, rfl, rfl⟩ := wholeRequest_of_encode rest hwf henc
    exact decode_request_iff.mpr ⟨op, arg, ops, hwhole, rfl, rfl⟩
  case h_2 sent n henc => exact decode_transaction_iff.mpr ⟨henc, rfl⟩

/-- Settles O10: what decodes is a whole request, and the encoder writes those
(`WholeRequest.encode_requestInstr`); a transaction decodes exactly if it is an encoding
(`decode_transaction_iff`). -/
theorem encodeOfDecode : Obligations.EncodeOfDecode := by
  refine ⟨fun bytes rest i h => ?_, fun sent rest n i h => ?_⟩
  · obtain ⟨op, arg, ops, hwhole, rfl, rfl⟩ := decode_request_iff.mp h
    obtain ⟨hwf, henc⟩ := hwhole.encode_requestInstr
    exact ⟨hwf, _, henc, rfl⟩
  · have henc := (decode_transaction_iff.mp h).1
    exact ⟨wellFormed_of_encode_transaction henc, henc⟩

/-- Settles O11: the decoder evaluated on the eight words. -/
theorem wordsOfTheSpecDecode : Obligations.WordsOfTheSpecDecode := by
  unfold Obligations.WordsOfTheSpecDecode
  decide

end Sys2Proof

namespace Sys2Proof.Machine

/-! ## How a host operation ends -/

/-- The two endings of R263: BUSY and pc are 0 and the response begins with CAUSE, which is 0, or 1 after no wire
event. -/
structure EndsAsHostOperation (s t : State) : Prop where
  busy : t.busy = false
  pc : t.pc = 0
  response : t.response.head? = some (t.cause.setWidth 8)
  outcome : (t.cause = 0#3 ∧ t.errIndex = s.errIndex ∧ t.errChar = s.errChar) ∨
    (t.cause = 1#3 ∧ t.response = [0x01#8, t.errIndex, t.errChar] ∧ t.trace = [] ∧ t.chip = s.chip ∧
      t.stb = s.stb ∧ t.clk = s.clk ∧ t.dio = s.dio)

/-- Success after wire events and buffer writes, which leave the error registers (R263). -/
theorem finishOk_endsAsHostOperation {s u : State} (payload : List Byte) (hindex : u.errIndex = s.errIndex)
    (hchar : u.errChar = s.errChar) : EndsAsHostOperation s (finishOk payload u) :=
  ⟨rfl, rfl, rfl, .inl ⟨rfl, hindex, hchar⟩⟩

/-- UnknownCharacter before any wire event (R198, R225, R264). -/
theorem failBuild_endsAsHostOperation (index char : Byte) (s : State) :
    EndsAsHostOperation s (failBuild index char (acceptOperation s)) :=
  ⟨rfl, rfl, rfl, .inr ⟨rfl, rfl, rfl, rfl, rfl, rfl, rfl⟩⟩

theorem sendFrame_wireOnly (bs : List Byte) (s : State) : WireOnly s (sendFrame bs s) := by
  rw [sendFrame_emitAll]
  exact emitAll_wireOnly _ s

theorem sendFrame_endsAsHostOperation (bs : List Byte) (s : State) :
    EndsAsHostOperation s (finishOk [] (sendFrame bs (acceptOperation s))) :=
  finishOk_endsAsHostOperation _ (sendFrame_wireOnly bs _).errIndex (sendFrame_wireOnly bs _).errChar

theorem writeDigitsBody_endsAsHostOperation (d : Octet) (build : List Byte) (prev : Option Nat) (s : State) :
    EndsAsHostOperation s
      (finishOk [] (writeDigitsBody (loadDigits d (storeBuild build prev (acceptOperation s))))) := by
  have wire := emitAll_wireOnly (linesTrace (scrambleDigits d)) (acceptOperation s)
  rw [writeDigitsBody_eq]
  generalize emitAll (linesTrace (scrambleDigits d)) (acceptOperation s) = u at wire
  exact finishOk_endsAsHostOperation [] wire.errIndex wire.errChar

/-- Every host operation ends in one of the two ways. -/
theorem exec_endsAsHostOperation {i : Instr} (s : State) (hi : isHostOperation i = true) :
    ∃ t, exec i s = .next t ∧ EndsAsHostOperation s t := by
  cases i with
  | displayControl d ppp => cases hi
  | dataWrite fixed => cases hi
  | dataRead => cases hi
  | setAddress a payload => cases hi
  | configureDisplay en pw => exact ⟨_, rfl, sendFrame_endsAsHostOperation _ s⟩
  | initWriteData auto => exact ⟨_, rfl, sendFrame_endsAsHostOperation _ s⟩
  | writeData a payload => exact ⟨_, rfl, sendFrame_endsAsHostOperation _ s⟩
  | readScan => exact ⟨_, exec_readScan s, rfl, rfl, rfl, .inl ⟨rfl, rfl, rfl⟩⟩
  | readButtons => exact ⟨_, exec_readButtons s, rfl, rfl, rfl, .inl ⟨rfl, rfl, rfl⟩⟩
  | writeDigits d => exact ⟨_, rfl, writeDigitsBody_endsAsHostOperation d s.build s.prev s⟩
  | writeString text =>
    simp only [exec, execWriteString]
    cases buildDigits s.params.font text with
    | done build prev => exact ⟨_, rfl, writeDigitsBody_endsAsHostOperation _ build prev s⟩
    | unknown index char => exact ⟨_, rfl, failBuild_endsAsHostOperation index char s⟩
  | buildDigits text =>
    simp only [exec, execBuildDigits]
    cases buildDigits s.params.font text with
    | done build prev => exact ⟨_, rfl, finishOk_endsAsHostOperation _ rfl rfl⟩
    | unknown index char => exact ⟨_, rfl, failBuild_endsAsHostOperation index char s⟩
  | scramble d => exact ⟨_, rfl, finishOk_endsAsHostOperation _ rfl rfl⟩
  | unscramble f => exact ⟨_, rfl, finishOk_endsAsHostOperation _ rfl rfl⟩
  | decodeScan q => exact ⟨_, rfl, finishOk_endsAsHostOperation _ rfl rfl⟩

/-- Settles O54: success leaves the error registers (`finishOk_endsAsHostOperation`), and the one error comes before any
wire event (`failBuild_endsAsHostOperation`). -/
theorem hostOperationsEndInOneOfTwoWays : Obligations.HostOperationsEndInOneOfTwoWays := by
  intro i s t hi ht
  obtain ⟨u, hu, busy, pc, response, outcome⟩ := exec_endsAsHostOperation s hi
  obtain rfl := Host.Outcome.next.inj (hu.symm.trans ht)
  exact ⟨busy, pc, response, outcome⟩

end Sys2Proof.Machine

/-! PROOFS. The family '40_transport.md': the micro-operations' events, the stability of DIO, and the machine
invariant. -/

namespace Sys2Proof.Machine

/-! ## SEND_BYTE and RECEIVE_BYTE -/

/-- The state after a list of events: the lines and the sequencer as the list says, and nothing off the wire changed
(R12, R22, R24). -/
theorem emitAll_eq (es : List Event) (s : State) :
    emitAll es s =
      { s with
        stb := stbAfter s.stb es, clk := clkAfter s.clk es, dio := dioAfter s.dio es, pc := s.pc + es.length
        log := es.reverse ++ s.log, chip := (emitAll es s).chip } := by
  have wire := emitAll_wireOnly es s
  rwa [WireOnly, emitAll_stb, emitAll_clk, emitAll_dio, emitAll_pc, emitAll_log] at wire

/-- Settles O13: the events are `sendTrace v`, which is evaluated for the bits of any byte. -/
theorem sendByteSendsLeastSignificantBitFirst : Obligations.SendByteSendsLeastSignificantBitFirst := by
  intro v s
  refine ⟨sendTrace v, (sendByte v s).chip, ?_, sendTrace_length v, rfl, rfl⟩
  rw [sendByte_emitAll]
  exact emitAll_eq (sendTrace v) s

/-- Settles O14: the events are `receiveTrace`; a silent bus gives ones (`receiveByte_silent`), and an attached chip its
next eight bits (`receiveByte_reading`). -/
theorem receiveByteTakesLeastSignificantBitFirst : Obligations.ReceiveByteTakesLeastSignificantBitFirst := by
  intro s
  refine ⟨⟨receiveTrace, (receiveByte s).2.chip, ?_, rfl⟩, receiveByte_silent s, ?_⟩
  · rw [receiveByte_emitAll]
    exact emitAll_eq receiveTrace s
  · intro b0 b1 b2 b3 b4 b5 b6 b7 rest hbus hclk hphase
    have bits := byteBits_packBits b0 b1 b2 b3 b4 b5 b6 b7
    rw [← bits] at hphase
    rw [(receiveByte_reading _ rest s hbus hclk hphase).1, bits]

/-! ## DIO changes only while CLK is high -/

theorem dioStable_append (clk : Bool) (es fs : List Event) :
    dioStable clk (es ++ fs) = (dioStable clk es && dioStable (clkAfter clk es) fs) := by
  induction es generalizing clk with
  | nil => rfl
  | cons e es ih =>
    have cons : clkAfter clk (e :: es) = clkAfter (match e with | .driveClk v => v | _ => clk) es := rfl
    cases e <;> simp only [List.cons_append, dioStable, ih, cons, Bool.and_assoc]

/-- Started with CLK high, a trace changes DIO only while CLK is high, and it leaves CLK high. -/
structure StableTrace (es : List Event) : Prop where
  dio : dioStable true es = true
  clk : clkAfter true es = true

namespace StableTrace

theorem append {es fs : List Event} (he : StableTrace es) (hf : StableTrace fs) : StableTrace (es ++ fs) where
  dio := by rw [dioStable_append, he.dio, he.clk, hf.dio, Bool.and_self]
  clk := by rw [clkAfter_append, he.clk, hf.clk]

theorem flatMap {α : Type} (as : List α) {f : α → List Event} (hf : ∀ a, StableTrace (f a)) :
    StableTrace (as.flatMap f) := by
  induction as with
  | nil => exact ⟨rfl, rfl⟩
  | cons a as ih =>
    rw [List.flatMap_cons]
    exact (hf a).append ih

/-- SEND_BYTE drives each bit before CLK falls (R142). -/
theorem send (v : Byte) : StableTrace (sendTrace v) :=
  ⟨rfl, rfl⟩

/-- RECEIVE_BYTE releases DIO before CLK falls (R144). -/
theorem receives (n : Nat) : StableTrace (List.replicate n receiveTrace).flatten := by
  induction n with
  | zero => exact ⟨rfl, rfl⟩
  | succ n ih =>
    rw [List.replicate_succ, List.flatten_cons]
    exact StableTrace.append ⟨rfl, rfl⟩ ih

/-- FRAME touches STB only (R146). -/
theorem frame {body : List Event} (h : StableTrace body) : StableTrace (frameTrace body) :=
  StableTrace.append (StableTrace.append ⟨rfl, rfl⟩ h) ⟨rfl, rfl⟩

theorem sendFrame (bs : List Byte) : StableTrace (sendFrameTrace bs) :=
  (flatMap bs send).frame

theorem read : StableTrace readTrace :=
  ((flatMap [dataReadByte] send).append (StableTrace.append (es := [.wait .tRdwait]) ⟨rfl, rfl⟩ (receives 4))).frame

theorem lines (f : Octet) : StableTrace (linesTrace f) :=
  flatMap (List.finRange 8) fun _ => sendFrame _

/-- Every operation's trace is made of SEND_BYTE, RECEIVE_BYTE and FRAME (R118). -/
theorem op (i : Instr) (s : State) : StableTrace (opTrace i s) := by
  cases i with
  | displayControl _ _ => exact sendFrame _
  | dataWrite _ => exact sendFrame _
  | dataRead => exact read
  | setAddress _ _ => exact sendFrame _
  | configureDisplay _ _ => exact sendFrame _
  | initWriteData _ => exact sendFrame _
  | writeData _ _ => exact sendFrame _
  | readScan => exact read
  | writeDigits _ => exact lines _
  | writeString text =>
    rw [opTrace]
    split
    · exact lines _
    · exact ⟨rfl, rfl⟩
  | readButtons => exact read
  | buildDigits _ => exact ⟨rfl, rfl⟩
  | scramble _ => exact ⟨rfl, rfl⟩
  | unscramble _ => exact ⟨rfl, rfl⟩
  | decodeScan _ => exact ⟨rfl, rfl⟩

end StableTrace

/-- Settles O15: the trace is `opTrace`, and `StableTrace` holds of its pieces and is kept by joining them. -/
theorem dioChangesOnlyWhileClockIsHigh : Obligations.DioChangesOnlyWhileClockIsHigh := by
  intro i s t _ ht
  rw [(EndsAs.of_exec ht).trace]
  exact (StableTrace.op i s).dio

/-! ## BUILD within its bounds -/

/-- What the invariant says of STATUS and BUILD: CAUSE never a reserved code (R26), BUILD and prev in bounds (R32). -/
structure State.RegistersBounded (s : State) : Prop where
  cause : s.cause.toNat ≤ 2
  build : s.BuildBounded

/-- The loop of BUILD_DIGITS appends at most one digit for each character, and prev is an index in what it built
(R224). -/
theorem buildFrom_bounds {font : List (Byte × Byte)} {j : Nat} {text build build' : List Byte}
    {prev prev' : Option Nat} (h : buildFrom font j text build prev = .done build' prev')
    (hprev : ∀ k ∈ prev, k < build.length) :
    build'.length ≤ build.length + text.length ∧ ∀ k ∈ prev', k < build'.length := by
  induction text generalizing j build prev with
  | nil =>
    cases h
    exact ⟨le_rfl, hprev⟩
  | cons ch rest ih =>
    rw [buildFrom] at h
    split at h
    case h_1 k _ =>
      obtain ⟨length, hprev'⟩ := ih h nofun
      rw [dpMerge, List.length_modify] at length
      exact ⟨length.trans (Nat.add_le_add_left (Nat.le_succ _) _), hprev'⟩
    case h_2 =>
      split at h
      case h_1 p _ =>
        have bounds := ih h (by simp)
        rw [List.length_append, List.length_singleton, Nat.add_assoc, Nat.add_comm 1] at bounds
        exact bounds
      case h_2 => cases h

/-- A text of at most 255 characters leaves BUILD and prev in bounds (R32, R110). -/
theorem storeBuild_buildBounded {font : List (Byte × Byte)} {text build : List Byte} {prev : Option Nat} (s : State)
    (h : buildDigits font text = .done build prev) (htext : text.length ≤ 255) :
    (storeBuild build prev s).BuildBounded := by
  obtain ⟨length, hprev⟩ := buildFrom_bounds h nofun
  rw [List.length_nil, Nat.zero_add] at length
  exact ⟨length.trans htext, hprev⟩

theorem WireOnly.buildBounded {s t : State} (w : WireOnly s t) (h : s.BuildBounded) : t.BuildBounded := by
  rwa [State.BuildBounded, w.build, w.prev]

/-- Success leaves CAUSE 0 (R263). -/
theorem finishOk_registersBounded {u : State} (payload : List Byte) (h : u.BuildBounded) :
    (finishOk payload u).RegistersBounded :=
  ⟨Nat.zero_le 2, h⟩

/-- UnknownCharacter leaves CAUSE 1 and an empty BUILD (R225, R264). -/
theorem failBuild_registersBounded (index char : Byte) (s : State) : (failBuild index char s).RegistersBounded :=
  ⟨Nat.le_succ 1, Nat.zero_le _, nofun⟩

/-- A transaction of the wire port leaves STATUS and the buffers alone. -/
theorem runTransaction_registersBounded {s : State} (sent : List Byte) (n : Nat) (h : s.RegistersBounded) :
    (runTransaction sent n s).RegistersBounded := by
  have wire : WireOnly (acceptOperation s) (transaction sent n (acceptOperation s)).2 := by
    rw [transaction_emitAll]
    exact emitAll_wireOnly _ _
  refine ⟨?_, wire.buildBounded h.build⟩
  show (transaction sent n (acceptOperation s)).2.cause.toNat ≤ 2
  rw [wire.cause]
  exact h.cause

theorem sendFrame_registersBounded {s : State} (bs : List Byte) (h : s.BuildBounded) :
    (finishOk [] (sendFrame bs (acceptOperation s))).RegistersBounded :=
  finishOk_registersBounded [] ((sendFrame_wireOnly bs (acceptOperation s)).buildBounded h)

/-- The display write of WRITE_DIGITS and WRITE_STRING leaves BUILD as it found it. -/
theorem writeDigitsBody_registersBounded (d : Octet) {u : State} (h : u.BuildBounded) :
    (finishOk [] (writeDigitsBody (loadDigits d u))).RegistersBounded := by
  rw [writeDigitsBody, writeLines_emitAll]
  exact finishOk_registersBounded [] ((emitAll_wireOnly _ (scrambleBody (loadDigits d u))).buildBounded h)

/-- Every well-formed instruction keeps CAUSE, BUILD and prev in bounds (R26, R32, R110). -/
theorem exec_registersBounded {i : Instr} {s : State} (hwf : i.wellFormed = true) (h : s.RegistersBounded) :
    ∃ t, exec i s = .next t ∧ t.RegistersBounded := by
  have accepted : (acceptOperation s).BuildBounded := h.build
  cases i with
  | displayControl d ppp => exact ⟨_, rfl, runTransaction_registersBounded _ _ h⟩
  | dataWrite fixed => exact ⟨_, rfl, runTransaction_registersBounded _ _ h⟩
  | dataRead => exact ⟨_, rfl, runTransaction_registersBounded _ _ h⟩
  | setAddress a payload => exact ⟨_, rfl, runTransaction_registersBounded _ _ h⟩
  | configureDisplay en pw => exact ⟨_, rfl, sendFrame_registersBounded _ h.build⟩
  | initWriteData auto => exact ⟨_, rfl, sendFrame_registersBounded _ h.build⟩
  | writeData a payload => exact ⟨_, rfl, sendFrame_registersBounded _ h.build⟩
  | readScan => exact ⟨_, exec_readScan s, Nat.zero_le 2, h.build⟩
  | readButtons => exact ⟨_, exec_readButtons s, Nat.zero_le 2, h.build⟩
  | writeDigits d => exact ⟨_, rfl, writeDigitsBody_registersBounded d accepted⟩
  | writeString text =>
    simp only [exec, execWriteString]
    cases hbuild : buildDigits s.params.font text with
    | done build prev =>
      have stored := storeBuild_buildBounded (acceptOperation s) hbuild (of_decide_eq_true hwf)
      exact ⟨_, rfl, writeDigitsBody_registersBounded _ stored⟩
    | unknown index char => exact ⟨_, rfl, failBuild_registersBounded _ _ _⟩
  | buildDigits text =>
    simp only [exec, execBuildDigits]
    cases hbuild : buildDigits s.params.font text with
    | done build prev =>
      exact ⟨_, rfl, finishOk_registersBounded _ (storeBuild_buildBounded _ hbuild (of_decide_eq_true hwf))⟩
    | unknown index char => exact ⟨_, rfl, failBuild_registersBounded _ _ _⟩
  | scramble d => exact ⟨_, rfl, finishOk_registersBounded _ h.build⟩
  | unscramble f => exact ⟨_, rfl, finishOk_registersBounded _ h.build⟩
  | decodeScan q => exact ⟨_, rfl, finishOk_registersBounded _ h.build⟩

/-! ## The block between steps -/

/-- What the invariant says of the block: idle, its lines high (R149), its registers in bounds. -/
structure State.BlockSettled (s : State) : Prop where
  stb : s.stb = true
  clk : s.clk = true
  busy : s.busy = false
  pc : s.pc = 0
  registers : s.RegistersBounded

/-- The inputs are no part of it. -/
theorem State.BlockSettled.setInputs {s : State} (h : s.BlockSettled) (hostIn : List Byte)
    (rawIn : List (List Byte × Nat)) : State.BlockSettled { s with hostIn := hostIn, rawIn := rawIn } :=
  ⟨h.stb, h.clk, h.busy, h.pc, h.registers.cause, h.registers.build⟩

/-- The invariant has a part for the block and a part for the chip. -/
theorem State.inv_iff {s : State} :
    s.Inv ↔ s.BlockSettled ∧ s.chip.Quiet ∧ memWf s.chip.dram = true ∧ s.chip.ModeKnown := by
  constructor
  · rintro ⟨⟨stb, clk, busy, pc, phase, bits, out⟩, cause, dram, mode, build⟩
    exact ⟨⟨stb, clk, busy, pc, cause, build⟩, ⟨phase, bits, out⟩, dram, mode⟩
  · rintro ⟨⟨stb, clk, busy, pc, cause, build⟩, ⟨phase, bits, out⟩, dram, mode⟩
    exact ⟨⟨stb, clk, busy, pc, phase, bits, out⟩, cause, dram, mode, build⟩

/-- An operation whose trace ends with STB and CLK high leaves the block idle (R149). -/
theorem EndsAs.blockSettled {es : List Event} {s t : State} (h : EndsAs es s t) (hstb : stbAfter s.stb es = true)
    (hclk : clkAfter s.clk es = true) (hregisters : t.RegistersBounded) : t.BlockSettled where
  stb := by rw [h.stb, emitAll_stb, acceptOperation_stb, hstb]
  clk := by rw [h.clk, emitAll_clk, acceptOperation_clk, hclk]
  busy := h.busy
  pc := h.pc
  registers := hregisters

/-- Reset settles the block, whatever state it was in (R290). -/
theorem resetBlock_blockSettled (s : State) : (resetBlock s).BlockSettled :=
  ⟨driveStbLine_stb true s, rfl, rfl, rfl, Nat.zero_le 2, Nat.zero_le _, nofun⟩

theorem abandonOperation_blockSettled (es : List Event) (s : State) : (abandonOperation es s).BlockSettled := by
  have wire := onChip_wireOnly (resetBlock (emitAll es (acceptOperation s))) Chip.abandoned
  obtain ⟨stb, clk, busy, pc, cause, build⟩ := resetBlock_blockSettled (emitAll es (acceptOperation s))
  refine ⟨?_, ?_, wire.busy.trans busy, ?_, ?_, wire.buildBounded build⟩
  · rw [abandonOperation, onChip_stb, stb]
  · rw [abandonOperation, onChip_clk, clk]
  · rw [abandonOperation, onChip_pc, pc]
  · rwa [abandonOperation, wire.cause]

theorem settleIdle_blockSettled {s : State} (h : s.BlockSettled) : (settleIdle s).BlockSettled := by
  unfold settleIdle
  split
  · exact h
  · exact resetBlock_blockSettled s

theorem settleReset_blockSettled (before : State) {after : State} (h : after.BlockSettled) :
    (settleReset before after).BlockSettled := by
  unfold settleReset
  split
  · exact h
  · split
    · exact abandonOperation_blockSettled _ before
    · exact resetBlock_blockSettled after

/-- A refused request leaves CAUSE 2 (R262). -/
theorem rejectRequest_blockSettled {s : State} (h : s.BlockSettled) : (rejectRequest s).BlockSettled :=
  ⟨h.stb, h.clk, rfl, rfl, le_rfl, h.registers.build⟩

/-- The trace of one transaction (R107). -/
def transactionTrace (sent : List Byte) : Nat → List Event
  | 0 => sendFrameTrace sent
  | n + 1 => receiveFrameTrace sent (n + 1)

theorem runTransaction_endsAs (sent : List Byte) (n : Nat) (s : State) :
    EndsAs (transactionTrace sent n) s (runTransaction sent n s) :=
  endsAs_runTransaction sent n s _ (by rw [transaction_emitAll]; cases n <;> rfl)

theorem runTransaction_blockSettled {s : State} (sent : List Byte) (n : Nat) (h : s.BlockSettled) :
    (runTransaction sent n s).BlockSettled := by
  refine (runTransaction_endsAs sent n s).blockSettled ?_ ?_ (runTransaction_registersBounded sent n h.registers)
  · cases n with
    | zero => exact stbAfter_frame _ _
    | succ n => exact stbAfter_frame _ _
  · cases n with
    | zero => exact clkAfter_sendFrame sent h.clk
    | succ n => exact clkAfter_receiveFrame sent (n + 1) h.clk

theorem exec_blockSettled {i : Instr} {s t : State} (hwf : i.wellFormed = true) (h : s.BlockSettled)
    (ht : exec i s = .next t) : t.BlockSettled := by
  obtain ⟨u, hu, registers⟩ := exec_registersBounded hwf h.registers
  obtain rfl := Host.Outcome.next.inj (hu.symm.trans ht)
  obtain ⟨stb, clk⟩ := opTrace_lines i s h.stb h.clk
  exact (EndsAs.of_exec ht).blockSettled stb clk registers

/-- What a step runs is well-formed, since it was decoded (R110). -/
theorem fetch_run_wellFormed {i : Instr} {s t : State} (h : fetch s = .run i t) : i.wellFormed = true := by
  obtain ⟨-, ⟨-, _, hd, -⟩ | ⟨_, _, _, _, -, hd, -⟩⟩ := fetch_run h
  · exact (encodeOfDecode.1 _ _ i hd).1
  · exact (encodeOfDecode.2 _ _ _ i hd).1

/-- Taking the words of an instruction changes the inputs only. -/
theorem fetch_run_blockSettled {i : Instr} {s t : State} (h : fetch s = .run i t) (hs : s.BlockSettled) :
    t.BlockSettled ∧ t.chip = s.chip := by
  obtain ⟨-, ⟨-, _, -, rfl⟩ | ⟨_, _, _, _, -, -, rfl⟩⟩ := fetch_run h
  · exact ⟨hs.setInputs _ s.rawIn, rfl⟩
  · exact ⟨hs.setInputs s.hostIn _, rfl⟩

/-! ## The chip between steps -/

/-- Reset shows the chip an edge of STB at most, and after it no transaction is open (R290, R291). -/
theorem resetBlock_quiet {s : State} (h : s.chip.Quiet) : (resetBlock s).chip.Quiet := by
  cases hstb : s.stb with
  | true => rwa [resetBlock_chip s hstb]
  | false =>
    show (driveStbLine true s).chip.Quiet
    simp only [driveStbLine, hstb]
    exact onChip_keeps (s := { s with stb := true }) (fun c _ => strobeRise_quiet c) h

/-- An abandoned operation leaves an attached chip without a transaction, and reached no other (R290, R266). -/
theorem abandonOperation_quiet (es : List Event) {s : State} (h : s.chip.Quiet) :
    (abandonOperation es s).chip.Quiet := by
  have bus : (resetBlock (emitAll es (acceptOperation s))).bus = s.bus :=
    (driveStbLine_wireOnly true _).bus.trans (emitAll_wireOnly es _).bus
  by_cases hbus : s.bus = .attached
  · rw [abandonOperation, onChip_attached _ (bus.trans hbus)]
    exact ⟨rfl, rfl, rfl⟩
  · rw [abandonOperation, onChip_detached _ (by rwa [bus])]
    refine resetBlock_quiet ?_
    obtain ⟨n, hn⟩ := emitAll_chip_absent es (acceptOperation s) hbus
    rw [hn]
    exact ⟨h.phase, h.bits, h.out⟩

theorem settleIdle_quiet {s : State} (h : s.chip.Quiet) : (settleIdle s).chip.Quiet := by
  unfold settleIdle
  split
  · exact h
  · exact resetBlock_quiet h

theorem settleReset_quiet {before after : State} (hbefore : before.chip.Quiet) (hafter : after.chip.Quiet) :
    (settleReset before after).chip.Quiet := by
  unfold settleReset
  split
  · exact hafter
  · split
    · exact abandonOperation_quiet _ hbefore
    · exact resetBlock_quiet hafter

theorem runTransaction_quiet {s : State} (sent : List Byte) (n : Nat) (h : s.chip.Quiet) :
    (runTransaction sent n s).chip.Quiet := by
  rw [(runTransaction_endsAs sent n s).chip]
  cases n with
  | zero => exact sendFrameTrace_quiet sent _ h
  | succ n =>
    refine frame_quiet _ _ (fun b => ?_) h
    rw [stbAfter_append, stbAfter_sends]
    exact stbAfter_receives b (n + 1)

theorem exec_quiet {i : Instr} {s t : State} (ht : exec i s = .next t) (h : s.chip.Quiet) : t.chip.Quiet := by
  rw [(EndsAs.of_exec ht).chip]
  exact opTrace_quiet i s _ h

/-- Only a data-write command and a havoc make the mode WRITE: the one sets the address mode too (R64), the other sets
HAZARD (R79). -/
theorem modeKnown_closed : ChipClosed Chip.ModeKnown := by
  have havoc : ∀ d : Chip, d.hazard = true → d.ModeKnown := fun d hd hclear => absurd (hd.symm.trans hclear) nofun
  refine ChipClosed.of_byte (fun _ _ _ _ _ h => h) (fun c _ => havoc c.havocAll rfl) (fun c v h => ?_)
  unfold Chip.acceptByte
  split
  · exact h
  · unfold Chip.acceptCommand
    split
    · exact h
    · rename_i fixed _
      rintro - -
      cases fixed <;> exact nofun
    · unfold Chip.dataRead
      split <;> exact fun _ => nofun
    · exact h
    · exact havoc c.havocAll rfl
  · exact havoc c.havocAll rfl
  · unfold Chip.storeByte
    split
    · split
      · exact h
      · exact havoc c.havocDisplay rfl
    · exact havoc c.havocDisplay rfl
  · exact havoc c.havocAll rfl
  · exact h

/-! ## The machine invariant -/

/-- Settles O2: the values of `State.reset` and of the chip just powered on (R37, R63). -/
theorem resetMeetsInvariant : Obligations.ResetMeetsInvariant := by
  have block : State.reset.BlockSettled := ⟨rfl, rfl, rfl, rfl, Nat.zero_le 2, Nat.zero_le _, nofun⟩
  exact State.inv_iff.mpr ⟨block, ⟨rfl, rfl, rfl⟩, reset_memWf, fun _ => nofun⟩

/-- Every case of a step leaves the block idle and the chip without a transaction (R149). -/
theorem step_settled {s t : State} (ht : step s = .next t) (hblock : s.BlockSettled) (hquiet : s.chip.Quiet) :
    t.BlockSettled ∧ t.chip.Quiet := by
  obtain ⟨-, hs⟩ | ⟨u, hf, hs⟩ | ⟨sent, n, u, hf, hs⟩ | ⟨i, u, v, hf, hv, hs⟩ := step_cases s <;>
    cases ht.symm.trans hs
  · exact ⟨settleIdle_blockSettled hblock, settleIdle_quiet hquiet⟩
  · obtain ⟨-, -, _, rest, -, rfl⟩ := fetch_reject hf
    have block := rejectRequest_blockSettled (hblock.setInputs rest s.rawIn)
    exact ⟨settleReset_blockSettled _ block, settleReset_quiet hquiet hquiet⟩
  · obtain ⟨-, later, -, rfl⟩ := fetch_undescribed hf
    have block := runTransaction_blockSettled sent n (hblock.setInputs s.hostIn later)
    exact ⟨settleReset_blockSettled _ block, settleReset_quiet hquiet (runTransaction_quiet sent n hquiet)⟩
  · obtain ⟨block, chip⟩ := fetch_run_blockSettled hf hblock
    rw [← chip] at hquiet
    exact ⟨settleReset_blockSettled _ (exec_blockSettled (fetch_run_wellFormed hf) block hv),
      settleReset_quiet hquiet (exec_quiet hv hquiet)⟩

/-- Settles O3: the block and the chip's transaction settle in every case of a step (`step_settled`), and no edge ends
the two properties of the chip's memory and modes (`step_keeps`). -/
theorem everyStepKeepsInvariant : Obligations.EveryStepKeepsInvariant := by
  intro s t hs ht
  obtain ⟨block, quiet, dram, mode⟩ := State.inv_iff.mp hs
  obtain ⟨block', quiet'⟩ := step_settled ht block quiet
  exact State.inv_iff.mpr ⟨block', quiet', step_keeps memWf_closed ht dram, step_keeps modeKnown_closed ht mode⟩

end Sys2Proof.Machine

/-! PROOFS. The family '41_command.md': the four operations that are one transaction each, and where a payload lands. -/

namespace Sys2Proof.Machine

/-! ## Operations that send one transaction -/

/-- An operation that sends one transaction and answers OK, from idle lines: the whole state after it (R146, R263). -/
theorem finishOk_sendFrame (sent : List Byte) (s : State) (hstb : s.stb = true) (hclk : s.clk = true) :
    finishOk [] (sendFrame sent (acceptOperation s)) =
      { s with
        busy := false, pc := 0, cause := 0#3, response := [0x00#8], dio := dioAfterBytes s.dio sent
        log := (sendFrameTrace sent).reverse
        chip := s.chipAfter fun c => c.afterSent sent } := by
  rw [sendFrame_idle sent (acceptOperation s) hstb hclk, acceptOperation_log, List.append_nil]
  rfl

/-- Settles O23: `finishOk_sendFrame`, and the chip takes the one byte as a display-control command (R65, R69). -/
theorem configureDisplayRuns : Obligations.ConfigureDisplayRuns := by
  intro en pw s hstb hclk
  simp only [exec, execConfigureDisplay, finishOk_sendFrame _ s hstb hclk, afterSent_displayControl,
    dioAfterBytes, List.foldl, dioAfterByte_displayControl]
  rfl

/-- Settles O24: `finishOk_sendFrame`, and the chip takes the one byte as a data-write command (R64, R70). -/
theorem initWriteDataRuns : Obligations.InitWriteDataRuns := by
  intro auto s hstb hclk
  have byte : dataWriteByte auto = if auto then 0x40#8 else 0x48#8 := by cases auto <;> rfl
  simp only [← byte, exec, execInitWriteData, finishOk_sendFrame _ s hstb hclk, afterSent_dataWrite,
    dioAfterBytes, List.foldl, dioAfterByte_dataWrite]

/-- The command byte of a masked address is that of the address itself (R104, R165). -/
theorem setAddressByte_maskAddress : ∀ a : Byte, setAddressByte ((maskAddress a).setWidth 8) = setAddressByte a := by
  decide

/-- Settles O25: `finishOk_sendFrame`, and bit 7 of the command byte drives DIO high (R103, R148). -/
theorem writeDataRuns : Obligations.WriteDataRuns := by
  intro a payload s hstb hclk
  have dio : dioAfterBytes s.dio (setAddressByte a :: payload) = dioAfterBytes .drive1 payload := by
    rw [dioAfterBytes, List.foldl_cons, ← setAddressByte_maskAddress, dioAfterByte_setAddress]
    rfl
  simp only [exec, execWriteData, setAddressByte_maskAddress, finishOk_sendFrame _ s hstb hclk, dio]
  rfl

/-- Settles O26: `execWriteData` reads its address through `maskAddress` alone. -/
theorem writeDataMasksItsAddress : Obligations.WriteDataMasksItsAddress := by
  intro a b payload s hab
  have mask : maskAddress a = maskAddress b := hab
  refine ⟨?_, _, rfl, rfl, rfl⟩
  simp only [exec, execWriteData, mask]

/-! ## Where the bytes of a payload land -/

/-- Storing bytes leaves every address alone that none of them goes to. -/
theorem memRead_storeBytes_other {step p x : Nat} {vs : List Byte} (m : List Host.Cell)
    (h : ∀ k < vs.length, p + step * k ≠ x) : memRead (storeBytes step p vs m) x = memRead m x := by
  induction vs generalizing p m with
  | nil => rfl
  | cons v vs ih =>
    have first : p ≠ x := h 0 (Nat.zero_lt_succ _)
    have later : ∀ k < vs.length, p + step + step * k ≠ x := fun k hk => by
      rw [Nat.add_assoc, Nat.add_comm step, ← Nat.mul_succ]
      exact h (k + 1) (Nat.succ_lt_succ hk)
    rw [storeBytes, ih _ later, memRead_memWrite_other m v first]

/-- At rising addresses, byte k stays at the k-th of them. -/
theorem memRead_storeBytes_rising {p k : Nat} {vs : List Byte} (m : List Host.Cell) (hk : k < vs.length) :
    memRead (storeBytes 1 p vs m) (p + k) = some vs[k] := by
  induction vs generalizing p k m with
  | nil => exact absurd hk (Nat.not_lt_zero k)
  | cons v vs ih =>
    cases k with
    | zero =>
      have kept : ∀ k < vs.length, p + 1 + 1 * k ≠ p := by omega
      exact (memRead_storeBytes_other _ kept).trans (memRead_memWrite_same m p v)
    | succ k =>
      have later := ih (p := p + 1) (memWrite m p v) (Nat.lt_of_succ_lt_succ hk)
      rwa [Nat.add_right_comm p 1 k] at later

/-- At one address, the last byte stays. -/
theorem memRead_storeBytes_still (p : Nat) {vs : List Byte} (m : List Host.Cell) (h : vs ≠ []) :
    memRead (storeBytes 0 p vs m) p = some (vs.getLast h) := by
  induction vs generalizing m with
  | nil => contradiction
  | cons v vs ih =>
    cases vs with
    | nil => exact memRead_memWrite_same m p v
    | cons w ws => exact ih _ (List.cons_ne_nil w ws)

/-- A write, by WRITE_DATA or as a set-address transaction, whose payload is stored without HAZARD: the display
registers and the pointer change, and nothing else of an attached chip (R72, R164). -/
theorem exec_write_stores {a : Byte} {payload : List Byte} {i : Instr} {s : State} {step : Nat}
    {ptr : Option (BitVec 4)} (hstb : s.stb = true) (hclk : s.clk = true) (hbus : s.bus = .attached)
    (hi : i = .writeData a payload ∨ i = .setAddress (maskAddress a) payload)
    (stores : payload.foldl Chip.acceptByte (s.chip.addressed (maskAddress a)) =
      { s.chip.addressed (maskAddress a) with
        dram := storeBytes step (maskAddress a).toNat payload s.chip.dram, ptr := ptr }) :
    ∃ t, exec i s = .next t ∧ t.chip =
      { s.chip with
        dram := storeBytes step (maskAddress a).toNat payload s.chip.dram
        ptr := ptr, phase := .idle, bits := [], out := true } := by
  obtain ⟨t, ht, -, -, -, -, chip⟩ := exec_write hstb hclk hbus hi
  rw [stores] at chip
  exact ⟨t, ht, chip⟩

/-- Settles O27: `acceptBytes_auto` stores the bytes at rising addresses. -/
theorem writeDataStoresAscending : Obligations.WriteDataStoresAscending := by
  intro a payload i s hstb hclk hbus hmode hainc hfit hi
  obtain ⟨t, ht, chip⟩ := exec_write_stores hstb hclk hbus hi
    (acceptBytes_auto payload (c := s.chip.addressed (maskAddress a)) rfl hmode hainc rfl hfit)
  have kept : ∀ x, x < (maskAddress a).toNat ∨ (maskAddress a).toNat + payload.length ≤ x →
      memRead t.chip.dram x = memRead s.chip.dram x := fun x hx => by
    rw [chip]
    exact memRead_storeBytes_other _ (by omega)
  refine ⟨t, ht, fun k hk => ?_, fun x hx => ⟨kept x hx, dramByte_congr (kept x hx) (by rw [chip])⟩, ?_⟩
  · rw [chip]
    exact memRead_storeBytes_rising _ hk
  · rw [chip]
    exact ⟨rfl, rfl, hmode, hainc, rfl, rfl, rfl⟩

/-- Settles O28: `acceptBytes_still` stores every byte at the one address. -/
theorem writeDataStoresAtFixedAddress : Obligations.WriteDataStoresAtFixedAddress := by
  intro a payload i s hstb hclk hbus hmode hainc hi
  have still : s.chip.ainc ≠ .auto := by rw [hainc]; exact nofun
  obtain ⟨t, ht, chip⟩ := exec_write_stores hstb hclk hbus hi
    (acceptBytes_still payload (c := s.chip.addressed (maskAddress a)) rfl hmode still rfl)
  have kept : ∀ x, payload = [] ∨ x ≠ (maskAddress a).toNat →
      memRead t.chip.dram x = memRead s.chip.dram x := fun x hx => by
    rw [chip]
    obtain rfl | hne := hx
    · rfl
    · exact memRead_storeBytes_other _ (by omega)
  refine ⟨t, ht, fun hne => ?_, fun x hx => ⟨kept x hx, dramByte_congr (kept x hx) (by rw [chip])⟩, ?_⟩
  · rw [chip]
    exact memRead_storeBytes_still _ _ hne
  · rw [chip]
    exact ⟨rfl, rfl, hmode, hainc, rfl, rfl, rfl⟩

/-! ## READ_SCAN -/

/-- Settles O33: `exec_readScan`, and what an attached chip presents and becomes (`receiveFrame_read`). -/
theorem readScanRuns : Obligations.ReadScanRuns := by
  intro s hbus hstb hclk
  obtain ⟨bytes, chip⟩ := receiveFrame_read (acceptOperation s) hbus hstb hclk
  simp only [exec_readScan, readFrame, bytes, chip, hstb, hclk, acceptOperation_chip, quadOf_toList]
  rfl

end Sys2Proof.Machine

/-! PROOFS. The family '42_scrambler.md': the transposition of digits and segment lines, WRITE_DIGITS and WRITE_STRING,
and what the display shows after them. -/

namespace Sys2Proof.Machine

/-! ## The transposition -/

/-- Setting bit `k i` of an accumulator for each i of a list with `p i` (R191, R192): the bits set before, and those
of the list. -/
theorem getLsbD_foldl_setBits (p : Fin 8 → Bool) (k : Fin 8 → Nat) (is : List (Fin 8)) (acc : Byte) {n : Nat}
    (hn : n < 8) :
    (is.foldl (fun acc i => if p i then acc ||| (1#8 <<< k i) else acc) acc).getLsbD n =
      (acc.getLsbD n || is.any fun i => p i && decide (k i = n)) := by
  have bit : ∀ m, (1#8 <<< m).getLsbD n = decide (m = n) := by
    intro m
    simp only [BitVec.getLsbD_shiftLeft, BitVec.getLsbD_one, hn]
    grind
  induction is generalizing acc with
  | nil => simp
  | cons i is ih =>
    rw [List.foldl_cons, ih, List.any_cons]
    cases p i with
    | false => simp
    | true => simp [bit, Bool.or_assoc]

/-- With a place of its own for each i, bit `k i` is `p i`. -/
theorem getLsbD_foldl_setBits_place (p : Fin 8 → Bool) {k : Fin 8 → Nat} (hk : ∀ i, k i < 8)
    (hinj : ∀ i j, k i = k j → i = j) (i : Fin 8) :
    ((List.finRange 8).foldl (fun acc i => if p i then acc ||| (1#8 <<< k i) else acc) 0#8).getLsbD (k i) = p i := by
  rw [getLsbD_foldl_setBits p k _ _ (hk i), BitVec.getLsbD_zero, Bool.false_or, Bool.eq_iff_iff, List.any_eq_true]
  constructor
  · rintro ⟨j, -, hj⟩
    obtain ⟨set, place⟩ := (Bool.and_eq_true _ _).mp hj
    rwa [hinj j i (of_decide_eq_true place)] at set
  · exact fun set => ⟨i, List.mem_finRange i, by simp [set]⟩

/-- Line b of the frame holds bit b of digit i at bit 7 - i (R190). -/
theorem scrambleDigits_bit (d : Octet) (i b : Fin 8) :
    (scrambleDigits d)[b].getLsbD (7 - i.val) = d[i].getLsbD b.val := by
  have line : (scrambleDigits d)[b] = scrambleLine d b.val := Vector.getElem_ofFn _
  rw [line]
  exact getLsbD_foldl_setBits_place (fun i => d[i].getLsbD b.val) (k := fun i => 7 - i.val) (by omega) (by omega) i

/-- Digit i holds bit 7 - i of line b at bit b (R190). -/
theorem unscrambleFrame_bit (f : Octet) (i b : Fin 8) :
    (unscrambleFrame f)[i].getLsbD b.val = f[b].getLsbD (7 - i.val) := by
  have digit : (unscrambleFrame f)[i] = unscrambleDigit f i.val := Vector.getElem_ofFn _
  rw [digit]
  exact getLsbD_foldl_setBits_place (fun b => f[b].getLsbD (7 - i.val)) (k := Fin.val) (by omega) (by omega) b

/-- Settles O36: each bit of the result is set by exactly one bit of the operand (`getLsbD_foldl_setBits_place`). -/
theorem scrambleTransposesBits : Obligations.ScrambleTransposesBits :=
  fun d f i b => ⟨scrambleDigits_bit d i b, unscrambleFrame_bit f i b⟩

/-- Eight bytes are equal if their 64 bits are. -/
theorem octet_ext {d e : Octet} (h : ∀ i b : Fin 8, d[i].getLsbD b.val = e[i].getLsbD b.val) : d = e :=
  Vector.ext fun i hi => BitVec.eq_of_getLsbD_eq fun b hb => h ⟨i, hi⟩ ⟨b, hb⟩

/-- Settles O37: bit by bit, the two transpositions undo each other. -/
theorem scrambleRoundTrips : Obligations.ScrambleRoundTrips := by
  refine ⟨fun d => octet_ext fun i b => ?_, fun f => octet_ext fun b n => ?_, scrambleDigits_bit⟩
  · rw [unscrambleFrame_bit, scrambleDigits_bit]
  · have place : n.val = 7 - n.rev.val := by rw [Fin.val_rev]; omega
    rw [place, scrambleDigits_bit, unscrambleFrame_bit]

/-! ## WRITE_DIGITS and WRITE_STRING -/

/-- WRITE_DIGITS from its SCRAMBLE body on, from idle lines, as WRITE_DIGITS and WRITE_STRING run it: the whole state
after the operation (R194, R196, R263). -/
theorem finishOk_writeDigitsBody (d : Octet) (b : List Byte) (prev : Option Nat) (s : State) (hstb : s.stb = true)
    (hclk : s.clk = true) :
    finishOk [] (writeDigitsBody (loadDigits d (storeBuild b prev (acceptOperation s)))) =
      { s with
        busy := false, pc := 0, cause := 0#3, response := [0x00#8], build := b, prev := prev
        digits := d, frame := scrambleDigits d
        dio := dioAfterByte (scrambleDigits d)[7]
        log := (linesTrace (scrambleDigits d)).reverse
        chip := s.chipAfter fun c => c.afterLines (scrambleDigits d) } := by
  have wire := writeLines_idle (scrambleBody (loadDigits d (storeBuild b prev (acceptOperation s)))) hstb hclk
  rw [writeDigitsBody, wire]
  simp only [scrambleBody_frame, loadDigits_digits, scrambleBody_log, loadDigits_log, storeBuild_log,
    acceptOperation_log, List.append_nil, finishOk, endOperation]
  rfl

/-- Settles O39: `finishOk_writeDigitsBody`, with BUILD and prev as they were. -/
theorem writeDigitsRuns : Obligations.WriteDigitsRuns := by
  intro d s hstb hclk
  exact congrArg Host.Outcome.next (finishOk_writeDigitsBody d s.build s.prev s hstb hclk)

/-- WRITE_STRING of a text that builds is WRITE_DIGITS of the padded digits, with BUILD and prev stored (R196). -/
theorem exec_writeString_done {text b : List Byte} {prev : Option Nat} {s : State}
    (h : buildDigits s.params.font text = .done b prev) :
    exec (.writeString text) s = .next (finishOk []
      (writeDigitsBody (loadDigits (padToDigits b) (storeBuild b prev (acceptOperation s))))) := by
  simp only [exec, execWriteString, h]

/-- The padded digits are the first eight, and 0 where there are fewer (R196). -/
theorem padToDigits_getElem (ds : List Byte) (i : Fin 8) :
    (padToDigits ds)[i] = if h : i.val < ds.length then ds[i.val] else 0x00#8 := by
  have digit : (padToDigits ds)[i] = ((ds ++ List.replicate 8 0#8).take 8).getD i.val 0#8 := Vector.getElem_ofFn _
  rw [digit, List.getD_eq_getElem?_getD, List.getElem?_take_of_lt i.isLt]
  split
  · rename_i h
    rw [List.getElem?_append_left h, List.getElem?_eq_getElem h, Option.getD_some]
  · rename_i h
    rw [List.getElem?_append_right (Nat.le_of_not_lt h), List.getElem?_replicate]
    split <;> rfl

/-- Settles O47: `exec_writeString_done`, then `finishOk_writeDigitsBody`. -/
theorem writeStringRuns : Obligations.WriteStringRuns := by
  intro text s b prev hstb hclk h
  refine ⟨padToDigits b, padToDigits_getElem b, ?_⟩
  rw [exec_writeString_done h, finishOk_writeDigitsBody _ _ _ _ hstb hclk]

/-! ## What the lines leave in the chip -/

/-- The second chip differs from the first in the display registers, the pointer and the transaction at most. -/
def Chip.StoresOnly (c d : Chip) : Prop :=
  d = { c with dram := d.dram, ptr := d.ptr, phase := d.phase, bits := d.bits, out := d.out }

theorem Chip.StoresOnly.trans {c d e : Chip} (h : c.StoresOnly d) (k : d.StoresOnly e) : c.StoresOnly e := by
  unfold Chip.StoresOnly at *
  rw [k, h]

/-- Lines sent in write mode store bytes, and do nothing else (R72, R194). -/
theorem afterSomeLines_storesOnly (c : Chip) (f : Octet) (bs : List (Fin 8)) (hmode : c.mode = .write) :
    c.StoresOnly (c.afterSomeLines f bs) := by
  induction bs generalizing c with
  | nil => rfl
  | cons b bs ih =>
    have line := afterSent_line c b f[b] hmode
    have one : c.StoresOnly (c.afterSent [setAddressByte (lineAddress b.val), f[b]]) := by rw [line]; rfl
    exact one.trans (ih _ (by rw [line]; exact hmode))

/-- After all lines the pointer is where the address mode takes it from 0xE, the last line's address (R195). -/
theorem afterLines_ptr (c : Chip) (f : Octet) (hmode : c.mode = .write) :
    (c.afterLines f).ptr = c.nextPtr 14#4 := by
  have lines : List.finRange 8 = [0, 1, 2, 3, 4, 5, 6] ++ [7] := by decide
  have before := afterSomeLines_storesOnly c f [0, 1, 2, 3, 4, 5, 6] hmode
  have last : c.afterLines f =
      (c.afterSomeLines f [0, 1, 2, 3, 4, 5, 6]).afterSent [setAddressByte (lineAddress 7), f[7]] := by
    rw [Chip.afterLines, lines, List.foldl_append]
    rfl
  generalize c.afterSomeLines f [0, 1, 2, 3, 4, 5, 6] = d at before last
  have mode : d.mode = .write := by rw [before]; exact hmode
  have ainc : d.ainc = c.ainc := by rw [before]
  rw [last]
  refine (congrArg Chip.ptr (afterSent_line d 7 f[7] mode)).trans ?_
  simp only [Chip.nextPtr, ainc]
  rfl

/-- WRITE_DIGITS, and WRITE_STRING of a text that builds to those digits, send the same lines to an attached chip
(R194, R196). -/
theorem exec_writesLines {d : Octet} {i : Instr} {s : State} (hstb : s.stb = true) (hclk : s.clk = true)
    (hbus : s.bus = .attached)
    (hi : i = .writeDigits d ∨ ∃ text b prev, i = .writeString text ∧
      buildDigits s.params.font text = .done b prev ∧ d = padToDigits b) :
    ∃ t, exec i s = .next t ∧ t.chip = s.chip.afterLines (scrambleDigits d) := by
  have attached : (s.chipAfter fun c => c.afterLines (scrambleDigits d)) = s.chip.afterLines (scrambleDigits d) := by
    simp only [State.chipAfter, hbus]
  obtain rfl | ⟨text, b, prev, rfl, hbuild, rfl⟩ := hi
  · exact ⟨_, writeDigitsRuns d s hstb hclk, attached⟩
  · rw [exec_writeString_done hbuild, finishOk_writeDigitsBody _ _ _ _ hstb hclk]
    exact ⟨_, rfl, attached⟩

/-- Settles O40: the eight lines fill their registers and no others (`afterSomeLines_registers`), whatever the address
mode, and change nothing else but the pointer. -/
theorem writeDigitsFillsTheEvenRegisters : Obligations.WriteDigitsFillsTheEvenRegisters := by
  intro d i s hstb hclk hbus hmode hi
  obtain ⟨t, ht, chip⟩ := exec_writesLines hstb hclk hbus hi
  obtain ⟨filled, kept, epoch⟩ := afterSomeLines_registers s.chip (scrambleDigits d) (List.finRange 8) hmode
  have stores := afterSomeLines_storesOnly s.chip (scrambleDigits d) (List.finRange 8) hmode
  have ptr := afterLines_ptr s.chip (scrambleDigits d) hmode
  have all : s.chip.afterSomeLines (scrambleDigits d) (List.finRange 8) = t.chip := by rw [chip]; rfl
  rw [all] at filled kept epoch stores
  rw [← chip] at ptr
  refine ⟨t, ht, fun b => filled b (List.mem_finRange b), fun x hx => ?_, fun auto => ?_, fun fixed => ?_, ?_⟩
  · have read := kept x fun b _ => hx b
    exact ⟨read, dramByte_congr read epoch⟩
  · rw [ptr, Chip.nextPtr, auto]
    rfl
  · rw [ptr, Chip.nextPtr, fixed]
  · rw [stores]
    exact ⟨rfl, hmode, rfl, rfl, rfl, rfl⟩

/-- An address that was written holds the byte written there (R63). -/
theorem dramByte_of_memRead {c : Chip} {x : Nat} {v : Byte} (h : memRead c.dram x = some v) : c.dramByte x = v := by
  rw [Chip.dramByte, h]

/-- Settles O41: the even registers hold the frame (O40), and the frame is the transpose of the digits (O36). -/
theorem displayShowsTheDigits : Obligations.DisplayShowsTheDigits := by
  intro d s ⟨hstb, hclk, _⟩ ⟨hbus, hmode, hhazard⟩ hen
  obtain ⟨t, ht, filled, -, -, -, hazard, -, -, dispEn, -, -⟩ :=
    writeDigitsFillsTheEvenRegisters d (.writeDigits d) s hstb hclk hbus hmode (.inl rfl)
  refine ⟨t, ht, hazard.trans hhazard, fun i b => ?_⟩
  rw [Chip.lit, dispEn, hen, dramByte_of_memRead (filled b), Bool.true_and, scrambleDigits_bit]

/-! ## Operations without a wire event -/

/-- Settles O38: `loadDigits`, `scrambleBody` and `finishOk` write these fields and no others (R191, R192). -/
theorem scrambleAndUnscrambleRun : Obligations.ScrambleAndUnscrambleRun :=
  fun _ _ _ => ⟨rfl, rfl⟩

/-- BUILD_DIGITS and WRITE_STRING end alike where the text does not build (R198, R264). -/
theorem exec_unknownCharacter {text : List Byte} {s : State} {j ch : Byte}
    (h : buildDigits s.params.font text = .unknown j ch) :
    exec (.writeString text) s = .next (failBuild j ch (acceptOperation s)) ∧
      exec (.buildDigits text) s = .next (failBuild j ch (acceptOperation s)) := by
  simp only [exec, execWriteString, execBuildDigits, h, and_self]

/-- Settles O48: `exec_unknownCharacter`, and `failBuild` emits no event (R198, R263). -/
theorem unknownCharacterEndsTheOperation : Obligations.UnknownCharacterEndsTheOperation := by
  intro text s j ch h
  obtain ⟨string, build⟩ := exec_unknownCharacter h
  exact ⟨string, build.trans string.symm⟩

end Sys2Proof.Machine

/-! PROOFS. The family '43_font.md': BUILD_DIGITS character by character, the error it reports, and the operation. -/

namespace Sys2Proof.Machine

/-! ## The loop of BUILD_DIGITS -/

/-- A round of the loop goes on with some BUILD and prev, whatever follows the character, or stops at a character
that has no digit to merge into and no entry (R224). -/
theorem buildFrom_cons (font : List (Byte × Byte)) (j : Nat) (ch : Byte) (build : List Byte) (prev : Option Nat) :
    (∃ build' prev', ∀ rest, buildFrom font j (ch :: rest) build prev = buildFrom font (j + 1) rest build' prev') ∨
      mergeTarget ch prev = none ∧ fontLookup font ch = none ∧
        ∀ rest, buildFrom font j (ch :: rest) build prev = .unknown (BitVec.ofNat 8 j) ch := by
  cases merge : mergeTarget ch prev with
  | some k => exact .inl ⟨dpMerge k build, none, fun rest => by rw [buildFrom, merge]⟩
  | none =>
    cases entry : fontLookup font ch with
    | some p => exact .inl ⟨build ++ [p], some build.length, fun rest => by rw [buildFrom, merge, entry]⟩
    | none => exact .inr ⟨rfl, rfl, fun rest => by rw [buildFrom, merge, entry]⟩

/-- The loop goes on after a text that builds from the BUILD and prev that text left (R224). -/
theorem buildFrom_append {font : List (Byte × Byte)} {j : Nat} {text build b : List Byte} {prev prev' : Option Nat}
    (h : buildFrom font j text build prev = .done b prev') (rest : List Byte) :
    buildFrom font j (text ++ rest) build prev = buildFrom font (j + text.length) rest b prev' := by
  induction text generalizing j build prev with
  | nil =>
    cases h
    rfl
  | cons ch text ih =>
    obtain ⟨build₁, prev₁, next⟩ | ⟨-, -, stop⟩ := buildFrom_cons font j ch build prev
    · rw [next] at h
      rw [List.cons_append, next, ih h, List.length_cons, Nat.add_assoc, Nat.add_comm 1]
    · cases (stop text).symm.trans h

/-- The loop reports the character at which it stops: what stands before it builds, there is no digit to merge it
into, and it has no entry (R224, R225). -/
theorem eq_append_of_buildFrom_unknown {font : List (Byte × Byte)} {j : Nat} {text build : List Byte}
    {prev : Option Nat} {index ch : Byte} (h : buildFrom font j text build prev = .unknown index ch) :
    ∃ before after b prev', text = before ++ ch :: after ∧ index = BitVec.ofNat 8 (j + before.length) ∧
      buildFrom font j before build prev = .done b prev' ∧ mergeTarget ch prev' = none ∧
      fontLookup font ch = none := by
  induction text generalizing j build prev with
  | nil => cases h
  | cons c text ih =>
    obtain ⟨build₁, prev₁, next⟩ | ⟨merge, missing, stop⟩ := buildFrom_cons font j c build prev
    · rw [next] at h
      obtain ⟨before, after, b, prev', rfl, rfl, built, unknown⟩ := ih h
      refine ⟨c :: before, after, b, prev', rfl, ?_, (next before).trans built, unknown⟩
      rw [List.length_cons, Nat.add_assoc, Nat.add_comm 1]
    · cases (stop text).symm.trans h
      exact ⟨[], text, build, prev, rfl, rfl, rfl, merge, missing⟩

/-- Settles O44: `buildFrom_append`, then one round of the loop for the last character, merged, looked up or neither. -/
theorem buildDigitsTakesOneMoreCharacter : Obligations.BuildDigitsTakesOneMoreCharacter := by
  intro font text ch b prev h
  rw [buildDigits, buildFrom_append h, Nat.zero_add, buildFrom, mergeTarget, dotChar]
  by_cases dot : ch = 0x2E#8
  · cases prev with
    | some k =>
      rw [if_pos dot, decide_eq_true dot]
      rfl
    | none =>
      rw [if_pos dot]
      cases fontLookup font ch <;> rfl
  · rw [if_neg dot, decide_eq_false dot]
    cases prev <;> cases fontLookup font ch <;> rfl

/-- Settles O45: `eq_append_of_buildFrom_unknown`; in a text of at most 255 characters the position fits its byte. -/
theorem firstUnknownCharacterIsReported : Obligations.FirstUnknownCharacterIsReported := by
  intro font text j ch htext h
  obtain ⟨before, after, b, prev, rfl, rfl, built, merge, missing⟩ := eq_append_of_buildFrom_unknown h
  rw [List.length_append, List.length_cons] at htext
  have position : (BitVec.ofNat 8 (0 + before.length)).toNat = before.length := by
    rw [Nat.zero_add, BitVec.toNat_ofNat, Nat.mod_eq_of_lt (by omega)]
  rw [position, List.take_left]
  refine ⟨?_, missing, b, prev, built, fun dot => ?_⟩
  · rw [List.getElem?_append_right le_rfl, Nat.sub_self, List.getElem?_cons_zero]
  · rwa [mergeTarget, dotChar, if_pos dot] at merge

/-! ## The operation -/

/-- Settles O46: `buildFrom_bounds` counts the digits, and the operation writes these fields and no others (R112,
R226). -/
theorem buildDigitsRuns : Obligations.BuildDigitsRuns := by
  intro text s b prev h
  constructor
  · obtain ⟨length, -⟩ := buildFrom_bounds h nofun
    rwa [List.length_nil, Nat.zero_add] at length
  · rw [exec, execBuildDigits, h]
    rfl

end Sys2Proof.Machine

/-! PROOFS. The family '44_scan.md': the decode table and the loop of R240, DECODE_SCAN and READ_BUTTONS. -/

namespace Sys2Proof.Machine

/-! ## Placing buttons -/

/-- Masking with one bit reads that bit (R11, R240). -/
theorem maskedBool_twoPow (v : Byte) {k : Nat} (hk : k < 8) : maskedBool v (BitVec.twoPow 8 k) = v.getLsbD k := by
  have nonzero : BitVec.twoPow 8 k ≠ 0#8 := fun h => by
    simpa [hk] using congrArg (BitVec.getLsbD · k) h
  rw [maskedBool, BitVec.and_twoPow]
  cases v.getLsbD k
  · rfl
  · exact bne_iff_ne.mpr nonzero

/-- A placed button adds its bit to those already there (R240). -/
theorem getLsbD_placeButton (w : Buttons) (i : Nat) (b : Bool) {n : Nat} (hn : n < 16) :
    (placeButton w i b).getLsbD n = (w.getLsbD n || (i == n && b)) := by
  have placed : ((BitVec.ofBool b).setWidth 16 <<< i).getLsbD n = (i == n && b) := by
    rw [BitVec.getLsbD_shiftLeft, BitVec.getLsbD_setWidth, BitVec.getLsbD_ofBool]
    by_cases h : i = n
    · simp [h, hn]
    · have other : n < i ∨ n - i ≠ 0 := by omega
      obtain below | above := other
      · simp [h, below]
      · simp [h, above]
  rw [placeButton, BitVec.getLsbD_or, placed]

/-- The order in which two buttons are placed does not matter. -/
theorem placeButton_comm (w : Buttons) (i j : Nat) (a b : Bool) :
    placeButton (placeButton w i a) j b = placeButton (placeButton w j b) i a := by
  unfold placeButton
  ac_rfl

/-- One row of the decode table: its button placed by its masked scan byte (R240). -/
def placeRow (q : Quad) (w : Buttons) (row : Nat × Fin 4 × Byte) : Buttons :=
  placeButton w row.1 (maskedBool q[row.2.1] row.2.2)

theorem decodeScanBytes_eq_foldl (q : Quad) : decodeScanBytes q = scanTable.foldl (placeRow q) 0#16 := rfl

/-- The bits after some rows are placed: those set before, and those of the rows. -/
theorem getLsbD_foldl_placeRow (q : Quad) (rows : List (Nat × Fin 4 × Byte)) (w : Buttons) {n : Nat} (hn : n < 16) :
    (rows.foldl (placeRow q) w).getLsbD n =
      (w.getLsbD n || rows.any fun row => row.1 == n && maskedBool q[row.2.1] row.2.2) := by
  induction rows generalizing w with
  | nil => rw [List.foldl_nil, List.any_nil, Bool.or_false]
  | cons row rows ih =>
    rw [List.foldl_cons, ih, placeRow, getLsbD_placeButton _ _ _ hn, List.any_cons, Bool.or_assoc]

/-! ## The table -/

/-- The table has one row for each button, and sixteen buttons (R242). -/
theorem scanTable_buttons : ∀ row ∈ scanTable, row.1 < 16 ∧ ∀ other ∈ scanTable, other.1 = row.1 → other = row := by
  decide

/-- Each button is the masked bit of its row (R242). -/
theorem getLsbD_decodeScanBytes (q : Quad) {row : Nat × Fin 4 × Byte} (hrow : row ∈ scanTable) :
    (decodeScanBytes q).getLsbD row.1 = maskedBool q[row.2.1] row.2.2 := by
  obtain ⟨bound, unique⟩ := scanTable_buttons row hrow
  rw [decodeScanBytes_eq_foldl, getLsbD_foldl_placeRow q _ _ bound, BitVec.getLsbD_zero, Bool.false_or,
    Bool.eq_iff_iff, List.any_eq_true]
  constructor
  · rintro ⟨other, hother, hbit⟩
    obtain ⟨button, bit⟩ := Bool.and_eq_true_iff.mp hbit
    rwa [unique other hother (beq_iff_eq.mp button)] at bit
  · exact fun bit => ⟨row, hrow, Bool.and_eq_true_iff.mpr ⟨beq_self_eq_true _, bit⟩⟩

/-- A button vector has, for each scan byte, the four bits that the table takes from that byte (R242). -/
def HasTableBits (q : Quad) (w : Buttons) : Prop :=
  ∀ k : Fin 4,
    w.getLsbD (2 * k.val) = q[k].getLsbD 5 ∧ w.getLsbD (2 * k.val + 1) = q[k].getLsbD 1 ∧
    w.getLsbD (8 + 2 * k.val) = q[k].getLsbD 6 ∧ w.getLsbD (9 + 2 * k.val) = q[k].getLsbD 2

/-- The rows of scan byte k, written by the loop's formulas (R240). -/
theorem mem_scanTable : ∀ k : Fin 4,
    (2 * k.val, k, BitVec.twoPow 8 5) ∈ scanTable ∧ (2 * k.val + 1, k, BitVec.twoPow 8 1) ∈ scanTable ∧
    (8 + 2 * k.val, k, BitVec.twoPow 8 6) ∈ scanTable ∧ (9 + 2 * k.val, k, BitVec.twoPow 8 2) ∈ scanTable := by
  decide

theorem decodeScanBytes_hasTableBits (q : Quad) : HasTableBits q (decodeScanBytes q) := by
  have bit : ∀ {i m : Nat} {k : Fin 4}, m < 8 → (i, k, BitVec.twoPow 8 m) ∈ scanTable →
      (decodeScanBytes q).getLsbD i = q[k].getLsbD m := fun hm hrow =>
    (getLsbD_decodeScanBytes q hrow).trans (maskedBool_twoPow _ hm)
  intro k
  obtain ⟨row5, row1, row6, row2⟩ := mem_scanTable k
  exact ⟨bit (by decide) row5, bit (by decide) row1, bit (by decide) row6, bit (by decide) row2⟩

/-- The table's bits are all sixteen bits of the vector. -/
theorem HasTableBits.unique {q : Quad} {w w' : Buttons} (h : HasTableBits q w) (h' : HasTableBits q w') : w = w' := by
  have covered : ∀ n < 16, ∃ k : Fin 4,
      n = 2 * k.val ∨ n = 2 * k.val + 1 ∨ n = 8 + 2 * k.val ∨ n = 9 + 2 * k.val := by decide
  refine BitVec.eq_of_getLsbD_eq fun n hn => ?_
  obtain ⟨k, hk⟩ := covered n hn
  obtain ⟨w5, w1, w6, w2⟩ := h k
  obtain ⟨v5, v1, v6, v2⟩ := h' k
  obtain rfl | rfl | rfl | rfl := hk
  · exact w5.trans v5.symm
  · exact w1.trans v1.symm
  · exact w6.trans v6.symm
  · exact w2.trans v2.symm

/-- The vector with the table's bits is the decoded one (R242). -/
theorem HasTableBits.decodeScanBytes_eq {q : Quad} {w : Buttons} (h : HasTableBits q w) : decodeScanBytes q = w :=
  (decodeScanBytes_hasTableBits q).unique h

/-! ## The loop -/

/-- The rows in the order in which the loop of R240 places them. -/
def loopRows : List (Nat × Fin 4 × Byte) :=
  (List.finRange 4).flatMap fun k =>
    [(2 * k.val, k, 0x20#8), (2 * k.val + 1, k, 0x02#8), (8 + 2 * k.val, k, 0x40#8), (9 + 2 * k.val, k, 0x04#8)]

theorem decodeScanLoop_eq_foldl (q : Quad) : decodeScanLoop q = loopRows.foldl (placeRow q) 0#16 := by
  rw [loopRows, List.foldl_flatMap]
  rfl

/-- The loop places the rows of the table in another order (R240, R242). -/
theorem decodeScanLoop_eq_decodeScanBytes (q : Quad) : decodeScanLoop q = decodeScanBytes q := by
  have rows : loopRows.Perm scanTable := by decide
  have comm : RightCommutative (placeRow q) := ⟨fun w _ _ => placeButton_comm w _ _ _ _⟩
  rw [decodeScanLoop_eq_foldl, decodeScanBytes_eq_foldl, rows.foldl_eq]

/-- Settles O49: `decodeScanBytes_hasTableBits`, and the loop places the same rows. -/
theorem decodeFollowsTheTable : Obligations.DecodeFollowsTheTable :=
  fun q => ⟨decodeScanBytes_hasTableBits q, decodeScanLoop_eq_decodeScanBytes q⟩

/-- Settles O50: the decoded vector of the one buffer has the other's table bits, and these leave no bit open. -/
theorem unmappedScanBitsAreIgnored : Obligations.UnmappedScanBitsAreIgnored := by
  intro q r same
  refine HasTableBits.decodeScanBytes_eq fun k => ?_
  obtain ⟨same1, same2, same5, same6⟩ := same k
  rw [same1, same2, same5, same6]
  exact decodeScanBytes_hasTableBits r k

/-! ## The operations -/

/-- The four key bits of each scan byte decode to the keys, whatever the other four are (R73, R245). -/
theorem decodeScanBytes_scanData (r : KeyRead) : decodeScanBytes r.scanData = r.keys := by
  refine HasTableBits.decodeScanBytes_eq fun k => ?_
  obtain ⟨bit5, bit1, bit6, bit2, -⟩ := scanDataHoldsTheKeys r k
  exact ⟨bit5.symm, bit1.symm, bit6.symm, bit2.symm⟩

/-- Settles O52: `exec_readButtons`, what an attached chip presents and becomes (`receiveFrame_read`), and
`decodeScanBytes_scanData`. -/
theorem readButtonsReturnsTheKeys : Obligations.ReadButtonsReturnsTheKeys := by
  intro s hbus hstb hclk
  obtain ⟨bytes, chip⟩ := receiveFrame_read (acceptOperation s) hbus hstb hclk
  simp only [exec_readButtons, readFrame, bytes, chip, hstb, hclk, acceptOperation_chip, quadOf_toList,
    decodeScanBytes_scanData]
  rfl

/-- Settles O51: `decodeScanBody` and `finishOk` write these fields and no others (R240), and the word is the decoded
vector (`decodeScanBytes_hasTableBits`). -/
theorem decodeScanRuns : Obligations.DecodeScanRuns :=
  fun q _ => ⟨decodeScanBytes q, rfl, decodeScanBytes_hasTableBits q⟩

end Sys2Proof.Machine

/-! PROOFS. The family '60_exceptions.md': the headers the IllegalOperation check refuses, and the step that answers them. -/

namespace Sys2Proof

/-! ## The refused headers -/

variable {op arg : BitVec 4} {h : Byte} {ops : List Byte}

/-- The illegal OPs: 0x0 and 0xC to 0xF (R111). -/
theorem reservedOp_iff : reservedOp op = true ↔ op.toNat = 0 ∨ 12 ≤ op.toNat := by
  simp only [reservedOp, Bool.or_eq_true, beq_iff_eq, decide_eq_true_eq]

/-- The reserved ARG bits of a legal OP: ARG[3:1] of OP 0x2, all of ARG of OP 0x3 to 0xB (R111, R262). -/
theorem reservedArg_of_setBit
    (hset : (op.toNat = 2 ∧ arg.extractLsb' 1 3 ≠ 0#3) ∨ (3 ≤ op.toNat ∧ arg ≠ 0#4)) :
    reservedArg op arg = true := by
  unfold reservedArg
  obtain ⟨hop, hbits⟩ | ⟨hop, harg⟩ := hset
  · simpa only [hop, bne_iff_ne] using hbits
  · split
    · omega
    · omega
    · exact bne_iff_ne.mpr harg

/-- An illegal OP consumes its header only (R262). -/
theorem decode_reservedOp (hop : reservedOp (opField h) = true) :
    decode (.request (h :: ops)) = .rejected .reservedOp ops :=
  if_pos hop

/-- A reserved ARG bit of a legal OP consumes the whole request (R262). -/
theorem decode_reservedArg {n : Nat} (hop : reservedOp (opField h) = false)
    (hn : operandBytes (opField h) ops = some n) (whole : n ≤ ops.length)
    (harg : reservedArg (opField h) (argField h) = true) :
    decode (.request (h :: ops)) = .rejected .reservedArg (ops.drop n) := by
  simp [decode, decodeRequest, hop, hn, whole.not_gt, harg]

end Sys2Proof

namespace Sys2Proof.Machine

/-! ## The refusing step -/

variable {s : State} {why : Rejection} {rest : List Byte}

/-- A rejected request at the front of the host's bytes is refused, the bytes the decoder took consumed (R262). -/
theorem fetch_reject_of_request (hb : s.busy = false) (hraw : s.rawIn = [])
    (hd : decode (.request s.hostIn) = .rejected why rest) : fetch s = .reject { s with hostIn := rest } := by
  simp only [fetch, hb, hraw, fetchRequest, hd]

/-- With no reset input the step on a rejected request is the IllegalOperation answer (R262, R263). -/
theorem step_reject_of_request (hb : s.busy = false) (hraw : s.rawIn = []) (hreset : s.resetAt = none)
    (hd : decode (.request s.hostIn) = .rejected why rest) :
    step s = .next (rejectRequest { s with hostIn := rest }) := by
  simp only [step, fetch_reject_of_request hb hraw hd, settleReset_none (s := { s with hostIn := rest }) hreset]

/-- The error entry writes BUSY, pc, CAUSE, the trace and the response, and nothing else (R112, R263). -/
theorem rejectRequest_eq (s : State) :
    rejectRequest s =
      { s with busy := false, pc := 0, cause := 2#3, response := [0x02#8], log := [] } := rfl

/-- Settles O8: what the decoder rejects (`decode_reservedOp`, `decode_reservedArg`) the step refuses
(`step_reject_of_request`), and `rejectRequest_eq` says how. -/
theorem illegalRequestIsRefused : Obligations.IllegalRequestIsRefused := by
  intro s h ops hb hraw hreset hin
  have refused {why : Rejection} {rest : List Byte} (hd : decode (.request (h :: ops)) = .rejected why rest) :
      step s = .next (rejectRequest { s with hostIn := rest }) :=
    step_reject_of_request hb hraw hreset (hin ▸ hd)
  refine ⟨fun hop => ?_, fun n hlow hhigh hn whole hset => ?_⟩
  · rw [refused (decode_reservedOp (reservedOp_iff.mpr hop)), rejectRequest_eq]
  · have hop : reservedOp (opField h) = false :=
      Bool.eq_false_iff.mpr fun illegal => by have := reservedOp_iff.mp illegal; omega
    rw [refused (decode_reservedArg hop hn whole (reservedArg_of_setBit hset)), rejectRequest_eq]

end Sys2Proof.Machine

/-! PROOFS. The family '70_reset_and_hazards.md': reset of an idle block and in the middle of an operation, what an
operation's trace measures, and the boot order. -/

namespace Sys2Proof.Machine

/-! ## Reset -/

/-- The block at the values that the spec gives it at reset, with the last operation's trace and response emptied and
the reset input consumed (R37, R290). -/
structure State.AtResetValues (s : State) : Prop where
  stb : s.stb = true
  clk : s.clk = true
  dio : s.dio = .released
  busy : s.busy = false
  pc : s.pc = 0
  cause : s.cause = 0#3
  errIndex : s.errIndex = 0#8
  errChar : s.errChar = 0#8
  response : s.response = []
  trace : s.trace = []
  resetAt : s.resetAt = none

theorem resetBlock_atResetValues (s : State) : (resetBlock s).AtResetValues :=
  ⟨driveStbLine_stb true s, rfl, rfl, rfl, rfl, rfl, rfl, rfl, rfl, rfl, rfl⟩

/-- What the chip does is no part of them. -/
theorem State.AtResetValues.onChip {s : State} (h : s.AtResetValues) (f : Chip → Chip) :
    (s.onChip f).AtResetValues := by
  unfold State.onChip
  split
  · exact ⟨h.stb, h.clk, h.dio, h.busy, h.pc, h.cause, h.errIndex, h.errChar, h.response, h.trace, h.resetAt⟩
  · exact h

theorem resetBlock_hostIn (s : State) : (resetBlock s).hostIn = s.hostIn :=
  (driveStbLine_wireOnly true s).hostIn

/-- An abandoned operation leaves the bytes behind its request presented. -/
theorem abandonOperation_hostIn (es : List Event) (s : State) : (abandonOperation es s).hostIn = s.hostIn := by
  calc (abandonOperation es s).hostIn
    _ = (resetBlock (emitAll es (acceptOperation s))).hostIn := (onChip_wireOnly _ _).hostIn
    _ = (emitAll es (acceptOperation s)).hostIn := resetBlock_hostIn _
    _ = s.hostIn := (emitAll_wireOnly _ _).hostIn

/-- Reset during an operation is HAZARD case e, wherever it falls: all state of an attached chip is at draws not taken
before (R79, R290, R307). -/
theorem abandonOperation_allDrawn (es : List Event) {s : State} (hbus : s.bus = .attached) :
    ∃ k, s.chip.draws ≤ k ∧ (abandonOperation es s).chip.AllDrawn k := by
  have bus : (resetBlock (emitAll es (acceptOperation s))).bus = s.bus :=
    (driveStbLine_wireOnly true _).bus.trans (emitAll_wireOnly es _).bus
  have emitted : s.chip.draws ≤ (emitAll es (acceptOperation s)).chip.draws :=
    emitAll_chip (draws_closed s.chip.draws) es (acceptOperation s) le_rfl
  refine ⟨_, resetBlock_keeps (draws_closed s.chip.draws) emitted, ?_⟩
  rw [abandonOperation, onChip_attached _ (bus.trans hbus)]
  exact abandoned_allDrawn _

/-- Reset short of the last event of the operation fetched abandons it after the events emitted (R290). -/
theorem step_abandons {s t u : State} {i : Instr} {n : Nat} (hf : fetch s = .run i t) (hreset : t.resetAt = some n)
    (hu : exec i t = .next u) (hn : n < u.trace.length) :
    step s = .next (abandonOperation (u.trace.take n) t) := by
  have short : n < u.log.length := by rwa [State.trace, List.length_reverse] at hn
  simp only [step, hf, hu, settleReset, hreset, if_pos short]

/-- Settles O59: the step is `abandonOperation` (`step_abandons`), which is `resetBlock` and HAZARD case e
(`abandonOperation_allDrawn`). -/
theorem resetAbandonsTheOperation : Obligations.ResetAbandonsTheOperation := by
  intro s u i rest n hb hraw hreset hd hu hn
  have abandons := step_abandons (fetch_run_of_request hb hraw hd) hreset hu hn
  have reset : (abandonOperation (u.trace.take n) { s with hostIn := rest }).AtResetValues :=
    (resetBlock_atResetValues _).onChip _
  obtain ⟨stb, clk, dio, busy, pc, cause, errIndex, errChar, response, trace, resetAt⟩ := reset
  exact ⟨_, abandons, stb, clk, dio, busy, pc, cause, errIndex, errChar, response, trace,
    abandonOperation_hostIn _ _, resetAt, abandonOperation_allDrawn (s := { s with hostIn := rest }) _⟩

/-- Settles O60: nothing is fetched (`fetch_hold`), and with STB high `resetBlock` shows the chip no edge
(`resetBlock_chip`). -/
theorem idleResetLeavesTheChip : Obligations.IdleResetLeavesTheChip := by
  intro s n ⟨hstb, _⟩ hraw hd hreset
  have idle : step s = .next (resetBlock s) := by
    simp only [step, fetch_hold (.inr ⟨hraw, hd⟩), settleIdle, hreset]
  obtain ⟨stb, clk, dio, busy, pc, cause, errIndex, errChar, response, trace, resetAt⟩ := resetBlock_atResetValues s
  exact ⟨_, idle, resetBlock_chip s hstb, stb, clk, dio, busy, pc, cause, errIndex, errChar, response, trace,
    resetBlock_hostIn s, resetBlock_params s, resetAt⟩

/-! ## Measures of a trace -/

/-- A number that a trace has as the sum of its parts: its length, its transactions, its least duration. -/
structure TraceMeasure (m : List Event → Nat) : Prop where
  nil : m [] = 0
  append : ∀ es fs, m (es ++ fs) = m es + m fs

theorem length_traceMeasure : TraceMeasure List.length :=
  ⟨rfl, fun _ _ => List.length_append⟩

theorem transactionCount_traceMeasure : TraceMeasure transactionCount :=
  ⟨rfl, fun _ _ => List.countP_append⟩

theorem minDuration_traceMeasure (p : Params) : TraceMeasure (minDuration p) :=
  ⟨rfl, fun es fs => by rw [minDuration, List.map_append, List.sum_append]; rfl⟩

namespace TraceMeasure

variable {m : List Event → Nat} (hm : TraceMeasure m)
include hm

/-- Parts that all measure the same. -/
theorem flatMap {α : Type} {f : α → List Event} {k : Nat} (hk : ∀ a, m (f a) = k) (as : List α) :
    m (as.flatMap f) = k * as.length := by
  induction as with
  | nil => exact hm.nil
  | cons a as ih => rw [List.flatMap_cons, hm.append, hk, ih, List.length_cons, Nat.mul_succ, Nat.add_comm]

/-- FRAME adds its four events to those of the body (R146). -/
theorem frame (body : List Event) : m (frameTrace body) = m (frameTrace []) + m body := by
  simp only [frameTrace, hm.append, hm.nil]
  omega

variable {k : Nat} (hsend : ∀ v, m (sendTrace v) = k)
include hsend

/-- A sending transaction is FRAME around one SEND_BYTE for each byte (R107, R146). -/
theorem sendFrame (bs : List Byte) : m (sendFrameTrace bs) = m (frameTrace []) + k * bs.length := by
  rw [sendFrameTrace, hm.frame, hm.flatMap hsend]

/-- The read transaction is FRAME around a SEND_BYTE, the wait and four RECEIVE_BYTE (R147, R167). -/
theorem read : m readTrace = m (frameTrace []) + k + m [.wait .tRdwait] + m receiveTrace * 4 := by
  have parts : .wait .tRdwait :: (List.replicate 4 receiveTrace).flatten =
      [.wait .tRdwait] ++ (List.range 4).flatMap fun _ => receiveTrace := rfl
  rw [readTrace, receiveFrameTrace, hm.frame, hm.append, hm.flatMap hsend, parts, hm.append,
    hm.flatMap fun _ => rfl, List.length_singleton, List.length_range, Nat.mul_one, Nat.add_assoc, Nat.add_assoc]

/-- The wire part of WRITE_DIGITS is eight transactions of two bytes (R194). -/
theorem lines (f : Octet) : m (linesTrace f) = (m (frameTrace []) + k * 2) * 8 := by
  have line : ∀ b, m (lineTrace f b) = m (frameTrace []) + k * 2 := fun b => hm.sendFrame hsend _
  rw [linesTrace_eq, hm.flatMap line, List.length_finRange]

end TraceMeasure

/-! ## Event counts and transactions -/

/-- The number of events of a trace, and the number of its transactions (R118, R309). -/
def traceShape (es : List Event) : Nat × Nat :=
  (es.length, transactionCount es)

/-- SEND_BYTE opens no transaction (R142). -/
theorem sendTrace_transactionCount (v : Byte) : transactionCount (sendTrace v) = 0 := rfl

theorem sendFrameTrace_shape (bs : List Byte) : traceShape (sendFrameTrace bs) = (4 + 48 * bs.length, 1) := by
  rw [traceShape, length_traceMeasure.sendFrame sendTrace_length,
    transactionCount_traceMeasure.sendFrame sendTrace_transactionCount, Nat.zero_mul]
  rfl

/-- A command byte and its payload. -/
theorem sendFrameTrace_cons_shape (c : Byte) (payload : List Byte) :
    traceShape (sendFrameTrace (c :: payload)) = (4 + 48 * (1 + payload.length), 1) := by
  rw [sendFrameTrace_shape, List.length_cons, Nat.add_comm 1]

theorem readTrace_shape : traceShape readTrace = (217, 1) := by
  rw [traceShape, length_traceMeasure.read sendTrace_length,
    transactionCount_traceMeasure.read sendTrace_transactionCount]
  rfl

theorem linesTrace_shape (f : Octet) : traceShape (linesTrace f) = (800, 8) := by
  rw [traceShape, length_traceMeasure.lines sendTrace_length,
    transactionCount_traceMeasure.lines sendTrace_transactionCount]
  rfl

/-- WRITE_STRING has no event where its text does not build, which CAUSE 1 says, and the eight transactions of
WRITE_DIGITS where it does (R196, R198). -/
theorem writeString_traceShape {text : List Byte} {s t : State} (ht : exec (.writeString text) s = .next t) :
    traceShape (opTrace (.writeString text) s) = if t.cause = 1#3 then (0, 0) else (800, 8) := by
  cases hbuild : buildDigits s.params.font text with
  | done b prev =>
    obtain rfl := Host.Outcome.next.inj ((exec_writeString_done hbuild).symm.trans ht)
    rw [opTrace, hbuild, finishOk_cause, if_neg (by decide)]
    exact linesTrace_shape _
  | unknown j ch =>
    obtain rfl := Host.Outcome.next.inj ((exec_unknownCharacter hbuild).1.symm.trans ht)
    rw [opTrace, hbuild]
    rfl

/-- Settles O17: each operation's trace is `opTrace`, made of transactions whose events are counted part by part
(`TraceMeasure`). -/
theorem traceShapesAreExact : Obligations.TraceShapesAreExact := by
  refine ⟨fun i s t ht => ?_, fun _ => rfl, sendTrace_length, rfl, length_traceMeasure.frame⟩
  rw [(EndsAs.of_exec ht).trace]
  cases i with
  | displayControl d ppp => exact sendFrameTrace_shape _
  | dataWrite fixed => exact sendFrameTrace_shape _
  | dataRead => exact readTrace_shape
  | setAddress a payload => exact sendFrameTrace_cons_shape _ _
  | configureDisplay en pw => exact sendFrameTrace_shape _
  | initWriteData auto => exact sendFrameTrace_shape _
  | writeData a payload => exact sendFrameTrace_cons_shape _ _
  | readScan => exact readTrace_shape
  | writeDigits d => exact linesTrace_shape _
  | writeString text => exact writeString_traceShape ht
  | readButtons => exact readTrace_shape
  | buildDigits text => rfl
  | scramble d => rfl
  | unscramble f => rfl
  | decodeScan q => rfl

/-! ## Minimum durations -/

variable (p : Params)

theorem frameTrace_minDuration : minDuration p (frameTrace []) = 2 * p.tStb := by
  simp only [minDuration, frameTrace, List.append_nil, List.cons_append, List.nil_append, List.map_cons, List.map_nil,
    eventDuration, delayOf, List.sum_cons, List.sum_nil]
  omega

/-- Each of the eight bits waits T_SETUP once and T_CLK twice (R142). -/
theorem sendTrace_minDuration (v : Byte) : minDuration p (sendTrace v) = 8 * (p.tSetup + 2 * p.tClk) := by
  have bit : ∀ b, minDuration p (sendBitEvents b) = p.tSetup + 2 * p.tClk := by
    intro b
    simp only [minDuration, sendBitEvents, List.map_cons, List.map_nil, eventDuration, delayOf, List.sum_cons,
      List.sum_nil]
    omega
  rw [sendTrace, (minDuration_traceMeasure p).flatMap bit, Nat.mul_comm]
  rfl

/-- Each of the eight bits waits T_CLK twice (R144). -/
theorem receiveTrace_minDuration : minDuration p receiveTrace = 16 * p.tClk := by
  simp only [minDuration, receiveTrace, receiveBitEvents, List.replicate, List.flatten_cons, List.flatten_nil,
    List.append_nil, List.cons_append, List.nil_append, List.map_cons, List.map_nil, eventDuration, delayOf,
    List.sum_cons, List.sum_nil]
  omega

/-- A transaction of one byte (R310). -/
theorem sendFrameTrace_minDuration (v : Byte) :
    minDuration p (sendFrameTrace [v]) = 2 * p.tStb + 8 * (p.tSetup + 2 * p.tClk) := by
  rw [(minDuration_traceMeasure p).sendFrame (sendTrace_minDuration p), frameTrace_minDuration, List.length_singleton,
    Nat.mul_one]

theorem readTrace_minDuration :
    minDuration p readTrace = 2 * p.tStb + 8 * (p.tSetup + 2 * p.tClk) + p.tRdwait + 64 * p.tClk := by
  have wait : minDuration p [.wait .tRdwait] = p.tRdwait := rfl
  rw [(minDuration_traceMeasure p).read (sendTrace_minDuration p), frameTrace_minDuration, receiveTrace_minDuration,
    wait]
  omega

theorem linesTrace_minDuration (f : Octet) :
    minDuration p (linesTrace f) = 8 * (2 * p.tStb + 16 * (p.tSetup + 2 * p.tClk)) := by
  rw [(minDuration_traceMeasure p).lines (sendTrace_minDuration p), frameTrace_minDuration]
  omega

/-- Settles O18: each operation's trace is `opTrace`, and its waits are summed part by part (`TraceMeasure`). -/
theorem minimumDurations : Obligations.MinimumDurations := by
  intro p
  refine ⟨sendTrace_minDuration p, receiveTrace_minDuration p, fun en pw s t ht => ?_, fun auto s t ht => ?_,
    fun s t ht => ?_, fun d s t ht => ?_⟩
  · rw [(EndsAs.of_exec ht).trace]
    exact sendFrameTrace_minDuration p _
  · rw [(EndsAs.of_exec ht).trace]
    exact sendFrameTrace_minDuration p _
  · rw [(EndsAs.of_exec ht).trace]
    exact readTrace_minDuration p
  · rw [(EndsAs.of_exec ht).trace]
    exact linesTrace_minDuration p _

/-! ## The boot order -/

/-- Between operations, with an attached chip that has seen no hazard: where the boot order begins (R294). -/
structure State.BootReady (s : State) : Prop where
  idle : s.Idle
  bus : s.bus = .attached
  hazard : s.chip.hazard = false

variable {s : State}

/-- An attached chip sees what happens on the wire (R75). -/
theorem chipAfter_attached (f : Chip → Chip) (hbus : s.bus = .attached) : s.chipAfter f = f s.chip := by
  simp only [State.chipAfter, hbus]

/-- CONFIGURE_DISPLAY sets the display enable and the pulse width, and leaves the data mode (R65, R160). -/
theorem State.BootReady.configureDisplay (h : s.BootReady) (en : Bool) (pw : BitVec 3) :
    ∃ t, exec (.configureDisplay en pw) s = .next t ∧ t.BootReady ∧ t.chip.dispEn = en ∧ t.chip.pw = pw ∧
      t.chip.mode = s.chip.mode := by
  obtain ⟨⟨hstb, hclk, _⟩, hbus, hhazard⟩ := h
  refine ⟨_, configureDisplayRuns en pw s hstb hclk, ?_⟩
  rw [chipAfter_attached _ hbus]
  exact ⟨⟨⟨hstb, hclk, rfl, rfl, rfl, rfl, rfl⟩, hbus, hhazard⟩, rfl, rfl, rfl⟩

/-- INIT_WRITE_DATA sets write mode, and leaves the display enable and the pulse width (R64, R162). -/
theorem State.BootReady.initWriteData (h : s.BootReady) (auto : Bool) :
    ∃ t, exec (.initWriteData auto) s = .next t ∧ t.BootReady ∧ t.chip.dispEn = s.chip.dispEn ∧
      t.chip.pw = s.chip.pw ∧ t.chip.mode = .write := by
  obtain ⟨⟨hstb, hclk, _⟩, hbus, hhazard⟩ := h
  refine ⟨_, initWriteDataRuns auto s hstb hclk, ?_⟩
  rw [chipAfter_attached _ hbus]
  exact ⟨⟨⟨hstb, hclk, rfl, rfl, rfl, rfl, rfl⟩, hbus, hhazard⟩, rfl, rfl, rfl⟩

/-- Enabled and in write mode, WRITE_DIGITS shows the digits (R199) and leaves the pulse width (R195). -/
theorem State.BootReady.writeDigits (h : s.BootReady) (hmode : s.chip.mode = .write) (hen : s.chip.dispEn = true)
    (d : Octet) :
    ∃ t, exec (.writeDigits d) s = .next t ∧ t.chip.hazard = false ∧ t.chip.pw = s.chip.pw ∧
      ∀ i b : Fin 8, t.chip.lit b i = d[i].getLsbD b.val := by
  obtain ⟨t, ht, hazard, lit⟩ := displayShowsTheDigits d s h.idle ⟨h.bus, hmode, h.hazard⟩ hen
  obtain ⟨t', ht', -, -, -, -, -, -, -, -, pw, -⟩ :=
    writeDigitsFillsTheEvenRegisters d (.writeDigits d) s h.idle.1 h.idle.2.1 h.bus hmode (.inl rfl)
  obtain rfl := Host.Outcome.next.inj (ht'.symm.trans ht)
  exact ⟨t', ht, hazard, pw, lit⟩

/-- Settles O42: CONFIGURE_DISPLAY and INIT_WRITE_DATA leave each other's settings alone, so either order meets what
WRITE_DIGITS needs (`State.BootReady.writeDigits`). -/
theorem bootOrderShowsTheDigits : Obligations.BootOrderShowsTheDigits := by
  intro d auto pw s hidle hbus hhazard
  have boot : s.BootReady := ⟨hidle, hbus, hhazard⟩
  constructor
  · obtain ⟨t, ht, bootT, enT, pwT, -⟩ := boot.configureDisplay true pw
    obtain ⟨u, hu, bootU, enU, pwU, modeU⟩ := bootT.initWriteData auto
    obtain ⟨v, hv, hazard, pwV, lit⟩ := bootU.writeDigits modeU (enU.trans enT) d
    exact ⟨t, u, v, ht, hu, hv, hazard, pwV.trans (pwU.trans pwT), lit⟩
  · obtain ⟨t, ht, bootT, -, -, modeT⟩ := boot.initWriteData auto
    obtain ⟨u, hu, bootU, enU, pwU, modeU⟩ := bootT.configureDisplay true pw
    obtain ⟨v, hv, hazard, pwV, lit⟩ := bootU.writeDigits (modeU.trans modeT) enU d
    exact ⟨t, u, v, ht, hu, hv, hazard, pwV.trans pwU, lit⟩

end Sys2Proof.Machine
